-- ==== Sys2Proof/Word.lean ====
section
/-!
DEFINITION. Word.lean: the word types of the WVQA decode core.
A byte of a payload or of the codebook, and a 16-bit pixel or sample (00_scope.md R10, R12).
-/

namespace Sys2Proof

/-- One byte of a payload or of the codebook memory. -/
abbrev Byte := BitVec 8

/-- One 16-bit pixel of the raster, or one 16-bit sample of the PCM buffer. -/
abbrev Pixel := BitVec 16

end Sys2Proof
end

