-- ==== Sys2Proof/Config.lean ====
section
/-!
DEFINITION. Config.lean: what is fixed for one instance of the core, and the free values.
The parameters of 00_scope.md R8 ("The model takes each as a configuration argument") and R250, and the arbitrary
initial contents of the three memories (10_state.md R33). The default values stand in Machine/Tables.lean.
-/

namespace Sys2Proof

/-- The parameters fixed for the hardware, not per stream (R8, R250). Functions over small ranges are tables:
plain data. A machine's state carries one `Config` that nothing ever writes (log 5). -/
structure Config where
  /-- `UNIT_SAMPLES`: samples in one audio unit. -/
  unitSamples : BitVec 16
  /-- `ADPCM_DELTA(index, m)` at position `8 * index + m` (R250). -/
  adpcmDelta : List Nat
  /-- `ADPCM_IDX(m)` at position `m` (R250). -/
  adpcmIdx : List Int
  /-- `ADPCM_LOW_NIBBLE_FIRST` (R250, R256). -/
  lowNibbleFirst : Bool
  /-- `OP2_EXTRA(K)` at position `K`, `0 <= K <= 31` (R8, R208). -/
  op2Extra : List Nat
  /-- `LCW_LONG_FORMS` (R8, R92). -/
  lcwLongForms : Bool
  /-- `FIXED_RATE`: "OPEN (no default)"; a model without one "skips the rate comparison" (R8, R122; log 6). -/
  fixedRate : Option (BitVec 32)
deriving DecidableEq, Repr

/-- FREE VALUE (log 8): the byte a codebook address holds before its first write in lifetime `epoch` of the memories,
"an arbitrary value it assumes nothing of" (R33). -/
opaque Config.freeCb (epoch addr : Nat) : Byte

/-- FREE VALUE (log 8): the pixel a raster place holds before its first write in lifetime `epoch` (R33). -/
opaque Config.freeRas (epoch key : Nat) : Pixel

/-- FREE VALUE (log 8): the sample a PCM place holds before its first write in lifetime `epoch` (R33). -/
opaque Config.freePcm (epoch k : Nat) : Pixel

end Sys2Proof
end

