-- ==== Sys2Proof/Machine/Tables.lean ====
section
/-!
DEFINITION. Machine/Tables.lean: the default values of the parameters of 00_scope.md R8 and 43_adpcm.md R252 to R254.
-/

namespace Sys2Proof

/-- `ADPCM_STEP[0..88]` (R252). -/
def Config.stepTable : List Nat :=
  [7, 8, 9, 10, 11, 12, 13, 14, 16, 17,
   19, 21, 23, 25, 28, 31, 34, 37, 41, 45,
   50, 55, 60, 66, 73, 80, 88, 97, 107, 118] ++
  [130, 143, 157, 173, 190, 209, 230, 253, 279, 307,
   337, 371, 408, 449, 494, 544, 598, 658, 724, 796,
   876, 963, 1060, 1166, 1282, 1411, 1552, 1707, 1878, 2066] ++
  [2272, 2499, 2749, 3024, 3327, 3660, 4026, 4428, 4871, 5358,
   5894, 6484, 7132, 7845, 8630, 9493, 10442, 11487, 12635, 13899,
   15289, 16818, 18500, 20350, 22385, 24623, 27086, 29794, 32767]

/-- The default `ADPCM_DELTA` of a step and a magnitude: each term truncated separately (R253). -/
def Config.deltaOfStep (step m : Nat) : Nat :=
  step / 8
    + (if m / 4 % 2 = 1 then step else 0)
    + (if m / 2 % 2 = 1 then step / 2 else 0)
    + (if m % 2 = 1 then step / 4 else 0)

/-- The default `ADPCM_DELTA`, position `8 * index + m` (R253). -/
def Config.deltaTable : List Nat :=
  Config.stepTable.flatMap fun step => (List.range 8).map (Config.deltaOfStep step)

/-- The default `ADPCM_IDX` (R254). -/
def Config.idxTable : List Int := [-1, -1, -1, -1, 2, 4, 6, 8]

/-- The default parameters (R8): 735 samples, the default tables, low nibble first, `OP2_EXTRA(K) = K`, long forms
admitted, no `FIXED_RATE` (log 6, 7). -/
def Config.default : Config where
  unitSamples := 735
  adpcmDelta := Config.deltaTable
  adpcmIdx := Config.idxTable
  lowNibbleFirst := true
  op2Extra := List.range 32
  lcwLongForms := true
  fixedRate := none

end Sys2Proof
end

