-- ==== Sys2Proof/Syntax.lean ====
section
/-!
DEFINITION. Syntax.lean: the instructions of the core, one constructor per row of spec/opcode_table.json, and the two
forms in which they reach it: the bytes of a stream (30_encoding.md R81, R82, R85) and the record of a host operation
(R80, R100).
-/

namespace Sys2Proof

/-- The fourteen operands of `CONFIG`, with the widths of 00_scope.md R6. -/
structure ConfigOperands where
  w : BitVec 16
  h : BitVec 16
  bw : BitVec 16
  bh : BitVec 16
  maxBlocks : BitVec 16
  xoff : BitVec 16
  yoff : BitVec 16
  rw : BitVec 16
  rh : BitVec 16
  maxVptr : BitVec 32
  maxCbf : BitVec 32
  aRate : BitVec 32
  aCh : BitVec 8
  aBits : BitVec 8
deriving DecidableEq, Repr

/-- The instructions: the commands of the three streams, then the nine host operations. -/
inductive Instr where
  /-- `LCW.MODE`, the mode prefix (R84, R162). -/
  | lcwMode
  /-- `LCW.SCOPY`: count `n + 3`, distance `dist` (R166). -/
  | lcwScopy (n : BitVec 3) (dist : BitVec 12)
  /-- `LCW.END` (R165). -/
  | lcwEnd
  /-- `LCW.LIT`: the literal bytes, 1 to 63 of them (R164). -/
  | lcwLit (bytes : List Byte)
  /-- `LCW.FILL`: `cnt` times the byte `val` (R169). -/
  | lcwFill (cnt : BitVec 16) (val : Byte)
  /-- `LCW.LCOPY`: count `cnt`, offset `off` (R168). -/
  | lcwLcopy (cnt : BitVec 16) (off : BitVec 16)
  /-- `LCW.RCOPY`: count `n + 3` with `n <= 61`, offset `off` (R167). -/
  | lcwRcopy (n : BitVec 6) (off : BitVec 16)
  /-- `VP.SKIP` (R206). -/
  | vpSkip (n : BitVec 13)
  /-- `VP.REPEAT`: `2 * (k + 1)` times block `b` (R207). -/
  | vpRepeat (k : BitVec 5) (b : BitVec 8)
  /-- `VP.LIST`: block `b`, then one block per index byte (R208). -/
  | vpList (k : BitVec 5) (b : BitVec 8) (idx : List Byte)
  /-- `VP.PUT` (R209). -/
  | vpPut (b : BitVec 13)
  /-- `VP.PUTK` (R210). -/
  | vpPutk (b : BitVec 13)
  /-- `VP.RUN`: `m` times block `b`, opaque (R211). -/
  | vpRun (b : BitVec 13) (m : Byte)
  /-- `VP.RUNK`: `m` times block `b`, keyed (R212). -/
  | vpRunk (b : BitVec 13) (m : Byte)
  /-- `VP.ILLEGAL`: a word whose opcode is 7, with its thirteen unused bits (R90, R213). -/
  | vpIllegal (x : BitVec 13)
  /-- `AD.CODE s, m` (R255). -/
  | adCode (s : BitVec 1) (m : BitVec 3)
  /-- `RESET` (R120). -/
  | reset
  /-- `CONFIG` (R122). -/
  | config (p : ConfigOperands)
  /-- `CB_UPDATE` with its window and its LCW stream (R125). -/
  | cbUpdate (dstOff : BitVec 32) (outLen : BitVec 32) (payload : List Byte)
  /-- `VPTR_EXPAND` with its block-pointer stream (R127). -/
  | vptrExpand (payload : List Byte)
  /-- `ADPCM_SETPARAM`; `pred` is the 32-bit pattern of a signed operand (R129). -/
  | adpcmSetparam (idx : BitVec 16) (pred : BitVec 32)
  /-- `ADPCM_DECODE` with its audio unit (R130). -/
  | adpcmDecode (payload : List Byte)
  /-- `READ_RASTER` (R131). -/
  | readRaster (x : BitVec 16) (y : BitVec 16)
  /-- `READ_PCM` (R132). -/
  | readPcm (k : BitVec 16)
  /-- `READ_REG` (R133). -/
  | readReg (n : BitVec 8)
deriving DecidableEq, Repr

/-- The scalar operands of a host operation, each under the name and with the width R100 gives it. An operation reads
the ones R100 lists for it and no other (log 4). -/
structure HostOperands where
  config : ConfigOperands
  dstOff : BitVec 32
  outLen : BitVec 32
  idx : BitVec 16
  pred : BitVec 32
  x : BitVec 16
  y : BitVec 16
  k : BitVec 16
  n : BitVec 8
deriving DecidableEq, Repr

/-- A host operation as the host presents it: the record `(op, operands, IN, in_len)` of R80; `in_len` is the payload's
length. -/
structure HostRequest where
  op : BitVec 8
  args : HostOperands
  payload : List Byte
deriving DecidableEq, Repr

/-- The operands of a `CONFIG` whose operand words are all zero. -/
def ConfigOperands.zero : ConfigOperands :=
  ⟨0, 0, 0, 0, 0, 0, 0, 0, 0, 0, 0, 0, 0, 0⟩

/-- Operand words of zeros. -/
def HostOperands.zero : HostOperands :=
  ⟨ConfigOperands.zero, 0, 0, 0, 0, 0, 0, 0, 0⟩

/-- An instruction as the machine receives it: the bytes of an LCW or block-pointer command, a 4-bit ADPCM code, or a
host record (R80, R81, R82, R85). -/
inductive Code where
  | lcw (bytes : List Byte)
  | vp (bytes : List Byte)
  | ad (code : BitVec 4)
  | host (r : HostRequest)
deriving DecidableEq, Repr

end Sys2Proof
end

