-- ==== Sys2Proof/WellFormed.lean ====
section
/-!
DEFINITION. WellFormed.lean: which terms of `Instr` are instructions the encodings can express.
Three rows carry an operand whose range is narrower than its type: the literal's length (R164), the run copy's count
field (R81: `c <= 0xFD`) and the number of index bytes of `VP.LIST` (R208).
-/

namespace Sys2Proof

/-- `OP2_EXTRA(K)` (R8, R208). -/
def Config.extraOf (c : Config) (k : BitVec 5) : Nat :=
  c.op2Extra.getD k.toNat 0

/-- The instruction has an encoding. -/
def Instr.wf (c : Config) : Instr → Bool
  | .lcwLit bytes => decide (1 ≤ bytes.length) && decide (bytes.length ≤ 63)
  | .lcwRcopy n _ => decide (n.toNat ≤ 61)
  | .lcwFill _ _ => c.lcwLongForms
  | .lcwLcopy _ _ => c.lcwLongForms
  | .vpList k _ idx => decide (idx.length = c.extraOf k)
  | .lcwMode | .lcwScopy _ _ | .lcwEnd => true
  | .vpSkip _ | .vpRepeat _ _ | .vpPut _ | .vpPutk _ | .vpRun _ _ | .vpRunk _ _ | .vpIllegal _ => true
  | .adCode _ _ => true
  | .reset | .config _ | .cbUpdate _ _ _ | .vptrExpand _ | .adpcmSetparam _ _ | .adpcmDecode _ => true
  | .readRaster _ _ | .readPcm _ | .readReg _ => true

end Sys2Proof
end

