-- ==== Sys2Proof/Decode.lean ====
section
/-!
DEFINITION. Decode.lean: from bytes, codes and host records to instructions, and back.
Total on any bytes; what is no instruction is rejected by name. 30_encoding.md R80 to R92, R100.
-/

namespace Sys2Proof

/-- Why bytes or a record are no instruction. The machine turns each into the error the spec gives it (log 20). -/
inductive Reject where
  /-- LCW: no control byte left, or the command runs past `in_len` (R161, R163 `need`). -/
  | lcwUnderrun
  /-- LCW: 0xFE or 0xFF with `LCW_LONG_FORMS = false` (R92). -/
  | lcwReserved
  /-- Block-pointer: half a command word, or the byte `M` missing (R200, R201). -/
  | vpUnderrun
  /-- `VP.LIST` with fewer than `OP2_EXTRA(K)` index bytes left in `IN`; the ones there are kept, because the blocks
  before the missing byte are checked first (R208). -/
  | vpListCut (k : BitVec 5) (b : BitVec 8) (idx : List Byte)
  /-- Host operation number 9 to 255 (R91). -/
  | badHostOp
deriving DecidableEq, Repr

/-- A little-endian 16-bit value from its byte at the lower address and the one above (R50, R12 `IN16`). -/
def le16 (lo hi : Byte) : BitVec 16 := hi ++ lo

/-- The byte at the lower address of a 16-bit value (R50). -/
def lowByte (v : BitVec 16) : Byte := v.extractLsb' 0 8

/-- The byte at the higher address of a 16-bit value (R50). -/
def highByte (v : BitVec 16) : Byte := v.extractLsb' 8 8

/-- Format `LS` (R81): `0 nnn oooo`, `pppppppp`. -/
def decodeLcwScopy (c : Byte) : List Byte → Except Reject Instr
  | p :: _ => .ok (.lcwScopy (c.extractLsb' 4 3) (c.extractLsb' 0 4 ++ p))
  | [] => .error .lcwUnderrun

/-- Format `LL` (R81): `10 nnnnnn` and `n` literal bytes. -/
def decodeLcwLit (c : Byte) (rest : List Byte) : Except Reject Instr :=
  if rest.length < (c.extractLsb' 0 6).toNat then .error .lcwUnderrun
  else .ok (.lcwLit (rest.take (c.extractLsb' 0 6).toNat))

/-- Format `LR` (R81): `11 nnnnnn`, offset low, offset high. -/
def decodeLcwRcopy (c : Byte) : List Byte → Except Reject Instr
  | lo :: hi :: _ => .ok (.lcwRcopy (c.extractLsb' 0 6) (le16 lo hi))
  | [_] | [] => .error .lcwUnderrun

/-- Format `LF` (R81): count low, count high, value. -/
def decodeLcwFill : List Byte → Except Reject Instr
  | lo :: hi :: v :: _ => .ok (.lcwFill (le16 lo hi) v)
  | [_, _] | [_] | [] => .error .lcwUnderrun

/-- Format `LX` (R81): count low, count high, offset low, offset high. -/
def decodeLcwLcopy : List Byte → Except Reject Instr
  | lo :: hi :: olo :: ohi :: _ => .ok (.lcwLcopy (le16 lo hi) (le16 olo ohi))
  | [_, _, _] | [_, _] | [_] | [] => .error .lcwUnderrun

/-- The LCW command at the head of `bytes`. `atStart` says that the head is payload offset 0, the only place where
0x00 is the mode prefix (R84); the map of control bytes is R87, the reserved ones R92. -/
def decodeLcw (cfg : Config) (atStart : Bool) : List Byte → Except Reject Instr
  | [] => .error .lcwUnderrun
  | c :: rest =>
    if atStart = true ∧ c.toNat = 0x00 then .ok .lcwMode
    else if c.toNat ≤ 0x7F then decodeLcwScopy c rest
    else if c.toNat = 0x80 then .ok .lcwEnd
    else if c.toNat ≤ 0xBF then decodeLcwLit c rest
    else if c.toNat ≤ 0xFD then decodeLcwRcopy c rest
    else if cfg.lcwLongForms = false then .error .lcwReserved
    else if c.toNat = 0xFE then decodeLcwFill rest
    else decodeLcwLcopy rest

/-- Format `VK` of opcode 2 (R82): the index bytes `IN[vs+2 ..]`, as many as are there up to `OP2_EXTRA(K)`. -/
def decodeVpList (cfg : Config) (k : BitVec 5) (b : BitVec 8) (rest : List Byte) : Except Reject Instr :=
  if rest.length < cfg.extraOf k then .error (.vpListCut k b rest)
  else .ok (.vpList k b (rest.take (cfg.extraOf k)))

/-- The block-pointer command with word `w` (R88); `rest` holds the bytes after the word. -/
def decodeVpWord (cfg : Config) (w : BitVec 16) (rest : List Byte) : Except Reject Instr :=
  match (w.extractLsb' 13 3).toNat with
  | 0 => .ok (.vpSkip (w.extractLsb' 0 13))
  | 1 => .ok (.vpRepeat (w.extractLsb' 8 5) (w.extractLsb' 0 8))
  | 2 => decodeVpList cfg (w.extractLsb' 8 5) (w.extractLsb' 0 8) rest
  | 3 => .ok (.vpPut (w.extractLsb' 0 13))
  | 4 => .ok (.vpPutk (w.extractLsb' 0 13))
  | 5 => match rest with
    | m :: _ => .ok (.vpRun (w.extractLsb' 0 13) m)
    | [] => .error .vpUnderrun
  | 6 => match rest with
    | m :: _ => .ok (.vpRunk (w.extractLsb' 0 13) m)
    | [] => .error .vpUnderrun
  | _ => .ok (.vpIllegal (w.extractLsb' 0 13))

/-- The block-pointer command at the head of `bytes` (R82, R200). -/
def decodeVp (cfg : Config) : List Byte → Except Reject Instr
  | lo :: hi :: rest => decodeVpWord cfg (le16 lo hi) rest
  | [_] | [] => .error .vpUnderrun

/-- An ADPCM code (R85, R89): all sixteen are `AD.CODE`. -/
def decodeAd (code : BitVec 4) : Instr :=
  .adCode (code.extractLsb' 3 1) (code.extractLsb' 0 3)

/-- A host record (R100); a number above 8 is no operation (R91). -/
def decodeHost (r : HostRequest) : Except Reject Instr :=
  match r.op.toNat with
  | 0 => .ok .reset
  | 1 => .ok (.config r.args.config)
  | 2 => .ok (.cbUpdate r.args.dstOff r.args.outLen r.payload)
  | 3 => .ok (.vptrExpand r.payload)
  | 4 => .ok (.adpcmSetparam r.args.idx r.args.pred)
  | 5 => .ok (.adpcmDecode r.payload)
  | 6 => .ok (.readRaster r.args.x r.args.y)
  | 7 => .ok (.readPcm r.args.k)
  | 8 => .ok (.readReg r.args.n)
  | _ => .error .badHostOp

/-- One instruction from its code. -/
def decode (cfg : Config) (atStart : Bool) : Code → Except Reject Instr
  | .lcw bytes => decodeLcw cfg atStart bytes
  | .vp bytes => decodeVp cfg bytes
  | .ad code => .ok (decodeAd code)
  | .host r => decodeHost r

/-! ### The encoder, from the same tables (R81, R82, R85, R94, R100) -/

/-- A block-pointer word: opcode in the top three bits (R82). -/
def vpWord (op : BitVec 3) (low : BitVec 13) : BitVec 16 := op ++ low

/-- A block-pointer word as bytes: the low byte first (R82). -/
def vpBytes (op : BitVec 3) (low : BitVec 13) : List Byte :=
  [lowByte (vpWord op low), highByte (vpWord op low)]

/-- A host record with its own operands and zeros for the others. -/
def hostCode (op : BitVec 8) (args : HostOperands) (payload : List Byte) : Code :=
  .host ⟨op, args, payload⟩

/-- The code of an instruction. -/
def encode : Instr → Code
  | .lcwMode => .lcw [0x00]
  | .lcwScopy n dist => .lcw [(0#1 ++ n ++ dist.extractLsb' 8 4 : BitVec 8), dist.extractLsb' 0 8]
  | .lcwEnd => .lcw [0x80]
  | .lcwLit bytes => .lcw ((2#2 ++ BitVec.ofNat 6 bytes.length : BitVec 8) :: bytes)
  | .lcwFill cnt val => .lcw [0xFE, lowByte cnt, highByte cnt, val]
  | .lcwLcopy cnt off => .lcw [0xFF, lowByte cnt, highByte cnt, lowByte off, highByte off]
  | .lcwRcopy n off => .lcw [(3#2 ++ n : BitVec 8), lowByte off, highByte off]
  | .vpSkip n => .vp (vpBytes 0 n)
  | .vpRepeat k b => .vp (vpBytes 1 (k ++ b))
  | .vpList k b idx => .vp (vpBytes 2 (k ++ b) ++ idx)
  | .vpPut b => .vp (vpBytes 3 b)
  | .vpPutk b => .vp (vpBytes 4 b)
  | .vpRun b m => .vp (vpBytes 5 b ++ [m])
  | .vpRunk b m => .vp (vpBytes 6 b ++ [m])
  | .vpIllegal x => .vp (vpBytes 7 x)
  | .adCode s m => .ad (s ++ m)
  | .reset => hostCode 0 HostOperands.zero []
  | .config p => hostCode 1 { HostOperands.zero with config := p } []
  | .cbUpdate dstOff outLen payload => hostCode 2 { HostOperands.zero with dstOff := dstOff, outLen := outLen } payload
  | .vptrExpand payload => hostCode 3 HostOperands.zero payload
  | .adpcmSetparam idx pred => hostCode 4 { HostOperands.zero with idx := idx, pred := pred } []
  | .adpcmDecode payload => hostCode 5 HostOperands.zero payload
  | .readRaster x y => hostCode 6 { HostOperands.zero with x := x, y := y } []
  | .readPcm k => hostCode 7 { HostOperands.zero with k := k } []
  | .readReg n => hostCode 8 { HostOperands.zero with n := n } []

/-- The bytes of a stream command; none for an ADPCM code or a host operation. -/
def encodeBytes (i : Instr) : List Byte :=
  match encode i with
  | .lcw bytes => bytes
  | .vp bytes => bytes
  | .ad _ => []
  | .host _ => []

/-- Bytes a stream command occupies in `IN` (the `length` column of R81 and R82). -/
def Instr.length : Instr → Nat
  | .lcwMode | .lcwEnd => 1
  | .lcwScopy _ _ => 2
  | .lcwLit bytes => 1 + bytes.length
  | .lcwFill _ _ => 4
  | .lcwLcopy _ _ => 5
  | .lcwRcopy _ _ => 3
  | .vpSkip _ | .vpRepeat _ _ | .vpPut _ | .vpPutk _ | .vpIllegal _ => 2
  | .vpList _ _ idx => 2 + idx.length
  | .vpRun _ _ | .vpRunk _ _ => 3
  | .adCode _ _ => 0
  | .reset | .config _ | .cbUpdate _ _ _ | .vptrExpand _ | .adpcmSetparam _ _ | .adpcmDecode _ => 0
  | .readRaster _ _ | .readPcm _ | .readReg _ => 0

/-! ### The opcode table's own numbering -/

/-- The bytes of a table word of `nbits` bits, lowest bits first, followed by zeros up to the 64 bytes of the longest
command (`LCW.LIT` with 63 literals). -/
def tableBytes (nbits w : Nat) : List Byte :=
  (List.range 64).map fun j => BitVec.ofNat 8 (w % 2 ^ nbits / 2 ^ (8 * j))

/-- Which of the four command kinds a table word belongs to. The table's rows do not say it and its 8-bit numbers
overlap, so the model chooses (log 14): fewer than 8 bits an ADPCM code; 8 bits a host operation number when it is one
(0 to 8), else an LCW control byte; 16 bits a block-pointer word; 24 bits a block-pointer word with its byte `M` when
its opcode is 5 or 6, else an LCW command; longer ones an LCW command. -/
def tableCode (nbits w : Nat) : Code :=
  if nbits < 8 then .ad (BitVec.ofNat 4 w)
  else if nbits = 8 then
    if w % 256 ≤ 8 then .host ⟨BitVec.ofNat 8 w, HostOperands.zero, []⟩ else .lcw (tableBytes nbits w)
  else if nbits = 16 then .vp (tableBytes nbits w)
  else if nbits = 24 ∧ (w / 2 ^ 13 % 8 = 5 ∨ w / 2 ^ 13 % 8 = 6) then .vp (tableBytes nbits w)
  else .lcw (tableBytes nbits w)

/-- The instruction the decoder reads from a word of the opcode table; an LCW word stands at payload offset 0. -/
def decodeTableWord (nbits w : Nat) : Option Instr :=
  match decode Config.default true (tableCode nbits w) with
  | .ok i => some i
  | .error _ => none

end Sys2Proof
end

