-- ==== Sys2Proof/Machine/State.lean ====
section
/-!
DEFINITION. Machine/State.lean: the state of the core, its reset value, and the reasons a step can stop.
10_state.md R20 to R34. Plain data throughout.
-/

namespace Sys2Proof.Machine

/-- A memory of `w`-bit places: the places written since the memory was created, as (address, value) pairs with
strictly rising addresses; for `w = 8` an entry is a `Host.Cell`. An address not listed was never written and reads as
a free value (log 8, 9). -/
abbrev Memory (w : Nat) := List (Nat × BitVec w)

/-- The canonical form: addresses strictly rising. (An unlisted address reads as "never written", which no entry is.) -/
abbrev Memory.wf {w : Nat} (m : Memory w) : Prop :=
  (m.map Prod.fst).Pairwise (· < ·)

/-- The configuration registers `CFG_*`, numbers 5 to 15 (R24). -/
structure CfgRegs where
  w : BitVec 16
  h : BitVec 16
  bw : BitVec 16
  bh : BitVec 16
  maxBlocks : BitVec 16
  xoff : BitVec 16
  yoff : BitVec 16
  rw : BitVec 16
  rh : BitVec 16
  maxVptr : BitVec 32
  maxCbf : BitVec 32
deriving DecidableEq, Repr

/-- The configuration registers after reset (R33). -/
def CfgRegs.zero : CfgRegs := ⟨0, 0, 0, 0, 0, 0, 0, 0, 0, 0, 0⟩

/-- A `CB_UPDATE` in progress: `IN`, the window, the cursors `ls`, `lc`, `lrel` (R27, R161), and the copy of the
codebook the commands write, which becomes `CB` when the operation ends well and is dropped on error (R121, log 2). -/
structure LcwEngine where
  input : List Byte
  dstOff : Nat
  outLen : Nat
  ls : Nat
  lc : Nat
  lrel : Bool
  work : Memory 8
deriving DecidableEq, Repr

/-- A `VPTR_EXPAND` in progress: `IN`, the cursors `vs`, `vd` (R27, R200), and the copy of the raster (log 2). -/
structure BlockEngine where
  input : List Byte
  vs : Nat
  vd : Nat
  work : Memory 16
deriving DecidableEq, Repr

/-- An `ADPCM_DECODE` in progress: `IN`, the cursors `as` and `ak`, the pair `(index, pred)` (R27, R257), and the copy
of the PCM buffer (log 2). -/
structure AdpcmEngine where
  input : List Byte
  asOff : Nat
  ak : Nat
  index : BitVec 7
  pred : BitVec 16
  work : Memory 16
deriving DecidableEq, Repr

/-- Which operation is in progress. Between operations the core is idle (R314). -/
inductive Engine where
  | idle
  | lcw (e : LcwEngine)
  | block (e : BlockEngine)
  | adpcm (e : AdpcmEngine)
deriving DecidableEq, Repr

/-- The response `(status, value)` of an operation (R119); the value as an integer, so that `A_PRED` and a sample keep
their sign (log 11). -/
structure Response where
  status : BitVec 16
  value : Int
deriving DecidableEq, Repr

/-- Why the machine stops. Both kinds of stop are SAFE (the model stops where the spec says nothing happens), and no
state that meets `State.Inv` reaches one. -/
inductive Fault where
  /-- A codebook byte at or above `CB_BYTES` would be written; raised by the LCW commands (R29; log 12). Safe. -/
  | outsideCodebook
  /-- A block whose rectangle leaves the raster would be written; raised by the block-pointer commands (R59; log 12).
  Safe. -/
  | outsideRaster
  /-- A sample at or above `UNIT_SAMPLES` would be written; raised by `AD.CODE` (R12, R257; log 12). Safe. -/
  | outsidePcm
  /-- The byte holding an ADPCM code is not in `IN`; raised by the fetch of an ADPCM code (R304; log 12). Safe. -/
  | outsideInput
deriving DecidableEq, Repr

/-- Why an instruction has no meaning in a state. All SAFE. -/
inductive Refusal where
  /-- Raised by `exec` for an instruction of the table that is not modelled; no arm does. Safe. -/
  | notModelled (mnemonic : String)
  /-- Raised by a stream command when no operation of its engine is in progress: a command exists only in a stream
  (R27; log 13). Safe. -/
  | noOperation
  /-- Raised by a host operation while one is in progress: the host cannot act then (R20; log 13). Safe. -/
  | coreBusy
deriving DecidableEq, Repr

/-- The state of the machine. The first group is the spec's (R21), `engine` holds the working registers of R27, the
last group is the model's own. -/
structure State where
  /-- Register 0, `[15:8]` class, `[7:0]` cause (R25, R300). -/
  status : BitVec 16
  /-- Register 1 (R25, R303). -/
  info : BitVec 32
  /-- Register 2 (R25). -/
  configured : Bool
  /-- Register 3 (R23). -/
  aIndex : BitVec 7
  /-- Register 4, two's complement (R23). -/
  aPred : BitVec 16
  /-- Registers 5 to 15 (R24). -/
  cfg : CfgRegs
  /-- The codebook (R29). -/
  cb : Memory 8
  /-- The raster (R30). -/
  ras : Memory 16
  /-- The PCM buffer (R31). -/
  pcm : Memory 16
  /-- The operation in progress (R27). -/
  engine : Engine
  /-- The build parameters (R8); written by nothing (log 5). -/
  config : Config
  /-- Counts the lifetimes of the memories; only the free values depend on it (log 8). -/
  epoch : Nat
  /-- Host operations issued and not yet taken, oldest first (R28; log 3). -/
  pending : List HostRequest
  /-- The response of the last operation that answered (R119; log 3). -/
  resp : Option Response
deriving DecidableEq, Repr

/-- The state after reset (R33, R340): registers 0, memories unspecified, the core idle. The parameters are the
defaults of R8; `epoch`, `pending` and `resp` are the model's own (log 24). -/
def State.reset : State where
  status := 0
  info := 0
  configured := false
  aIndex := 0
  aPred := 0
  cfg := CfgRegs.zero
  cb := []
  ras := []
  pcm := []
  engine := .idle
  config := Config.default
  epoch := 0
  pending := []
  resp := none

end Sys2Proof.Machine
end

