-- ==== Sys2Proof/Machine/Flags.lean ====
section
/-!
DEFINITION. Machine/Flags.lean: the status word, the key bit and the clamp.
The core has no flags or condition codes (10_state.md R26); what other hardware does with flags it does with the status
of 60_exceptions.md R300, R301 and with the key bit of a pixel (42_vptr_block_engine.md R203).
-/

namespace Sys2Proof.Machine

/-- The causes of an error status (R301). -/
inductive Cause where
  | notConfigured
  | alreadyConfigured
  | badGeometry
  | badAudioConfig
  | badHostOp
  | cbWindow
  | readRange
  | cbOverLimit
  | lcwSrcUnderrun
  | lcwBadOffset
  | lcwOverrun
  | lcwSizeMismatch
  | lcwReserved
  | vptrOverLimit
  | vptrSrcUnderrun
  | vptrBadOpcode
  | vptrBadBlock
  | vptrDestOverrun
  | adpcmLen
  | adpcmBadState
deriving DecidableEq, Repr

/-- The class number of a cause: 1 `FormatError`, 3 `RangeError`, 4 `DecodeError` (R300, R301). -/
def Cause.classNo : Cause → BitVec 8
  | .notConfigured | .alreadyConfigured | .badGeometry | .badAudioConfig => 1
  | .badHostOp | .cbWindow | .readRange => 3
  | .cbOverLimit | .lcwSrcUnderrun | .lcwBadOffset | .lcwOverrun | .lcwSizeMismatch | .lcwReserved => 4
  | .vptrOverLimit | .vptrSrcUnderrun | .vptrBadOpcode | .vptrBadBlock | .vptrDestOverrun => 4
  | .adpcmLen | .adpcmBadState => 4

/-- The cause number, unique across classes (R301). -/
def Cause.causeNo : Cause → BitVec 8
  | .notConfigured => 0x10
  | .alreadyConfigured => 0x11
  | .badGeometry => 0x12
  | .badAudioConfig => 0x13
  | .badHostOp => 0x30
  | .cbWindow => 0x31
  | .readRange => 0x32
  | .cbOverLimit => 0x40
  | .lcwSrcUnderrun => 0x41
  | .lcwBadOffset => 0x42
  | .lcwOverrun => 0x43
  | .lcwSizeMismatch => 0x44
  | .lcwReserved => 0x45
  | .vptrOverLimit => 0x48
  | .vptrSrcUnderrun => 0x49
  | .vptrBadOpcode => 0x4A
  | .vptrBadBlock => 0x4B
  | .vptrDestOverrun => 0x4C
  | .adpcmLen => 0x50
  | .adpcmBadState => 0x51

/-- The full status: class in bits 15:8, cause in bits 7:0 (R300). -/
def Cause.status (c : Cause) : BitVec 16 := c.classNo ++ c.causeNo

/-- The status `OK` (R300). -/
def statusOk : BitVec 16 := 0x0000

/-- The key bit of a pixel, bit 15 (R203). -/
def keyBit (p : Pixel) : Bool := p.getLsbD 15

/-- `clamp(v, lo, hi)` (R11). -/
def clamp (v lo hi : Int) : Int :=
  if v < lo then lo else if hi < v then hi else v

end Sys2Proof.Machine
end

