-- ==== Sys2Proof/Machine/Ops.lean ====
section
/-!
DEFINITION. Machine/Ops.lean: the named operations over memories and registers, and the one operation that ends an
operation with an error (what other hardware calls taking an exception).
20_memory.md R50 to R62, 40_host_operations.md R119, R121, R134, 60_exceptions.md R307, R309.
-/

namespace Sys2Proof.Machine

/-- The outcome of a meaning. -/
abbrev Result := Host.Outcome State Fault Refusal

/-! ### Memories -/

/-- What was last written to address `a`; nothing if it was never written. -/
def Memory.get? {w : Nat} : Memory w → Nat → Option (BitVec w)
  | [], _ => none
  | (k, v) :: m, a => if a = k then some v else Memory.get? m a

/-- Writes `v` to address `a`; keeps the canonical form. -/
def Memory.set {w : Nat} : Memory w → Nat → BitVec w → Memory w
  | [], a, v => [(a, v)]
  | (k, u) :: m, a, v =>
    if a < k then (a, v) :: (k, u) :: m
    else if a = k then (a, v) :: m
    else (k, u) :: Memory.set m a v

/-- A codebook byte: what was last written there, else the free value of its address (R33; log 8). -/
def readCb (epoch : Nat) (m : Memory 8) (a : Nat) : Byte :=
  (Memory.get? m a).getD (Config.freeCb epoch a)

/-- A raster pixel by its place, likewise. -/
def readRas (epoch : Nat) (m : Memory 16) (key : Nat) : Pixel :=
  (Memory.get? m key).getD (Config.freeRas epoch key)

/-- A PCM sample, likewise. -/
def readPcmAt (epoch : Nat) (m : Memory 16) (k : Nat) : Pixel :=
  (Memory.get? m k).getD (Config.freePcm epoch k)

/-- Writes bytes at ascending addresses from `a` (R62). -/
def writeBytes : Memory 8 → Nat → List Byte → Memory 8
  | m, _, [] => m
  | m, a, b :: bs => writeBytes (Memory.set m a b) (a + 1) bs

/-- Copies `n` bytes one by one in ascending order, each read as the previous ones left the memory (R62, R163 `copy`). -/
def copyBytes (epoch : Nat) : Nat → Memory 8 → Nat → Nat → Memory 8
  | 0, m, _, _ => m
  | n + 1, m, src, dst => copyBytes epoch n (Memory.set m dst (readCb epoch m src)) (src + 1) (dst + 1)

/-! ### Quantities derived from the configuration registers (R7) -/

/-- `GW = W div BW`. -/
def CfgRegs.gw (c : CfgRegs) : Nat := c.w.toNat / c.bw.toNat

/-- `GH = H div BH`. -/
def CfgRegs.gh (c : CfgRegs) : Nat := c.h.toNat / c.bh.toNat

/-- `NBLK = GW * GH`. -/
def CfgRegs.nblk (c : CfgRegs) : Nat := c.gw * c.gh

/-- `BLKPIX = BW * BH`. -/
def CfgRegs.blkPix (c : CfgRegs) : Nat := c.bw.toNat * c.bh.toNat

/-- `BLKBYTES = 2 * BLKPIX`. -/
def CfgRegs.blkBytes (c : CfgRegs) : Nat := 2 * c.blkPix

/-- `CB_BYTES = MAXBLOCKS * BLKBYTES`. -/
def CfgRegs.cbBytes (c : CfgRegs) : Nat := c.maxBlocks.toNat * c.blkBytes

/-- The geometry condition of `CONFIG` (R123), on registers or on operands of the same form. -/
def CfgRegs.geometryOk (c : CfgRegs) : Bool :=
  decide (1 ≤ c.w.toNat) && decide (1 ≤ c.h.toNat) && decide (1 ≤ c.bw.toNat) && decide (1 ≤ c.bh.toNat)
    && decide (1 ≤ c.maxBlocks.toNat)
    && decide (c.bw.toNat ≤ c.w.toNat) && decide (c.bh.toNat ≤ c.h.toNat)
    && decide (c.xoff.toNat + c.gw * c.bw.toNat ≤ c.rw.toNat)
    && decide (c.yoff.toNat + c.gh * c.bh.toNat ≤ c.rh.toNat)

/-- The eleven registers `CONFIG` loads, from its operands (R122, R24). -/
def CfgRegs.ofOperands (p : ConfigOperands) : CfgRegs :=
  ⟨p.w, p.h, p.bw, p.bh, p.maxBlocks, p.xoff, p.yoff, p.rw, p.rh, p.maxVptr, p.maxCbf⟩

/-- `UNIT_BYTES = (UNIT_SAMPLES + 1) div 2` (R8, R258). -/
def unitBytes (c : Config) : Nat := (c.unitSamples.toNat + 1) / 2

/-! ### Ending an operation -/

/-- An error (R307, R121): the operation stops, `STATUS` and `INFO` receive the status and the info word, the response
carries the status, and nothing else changes; the working copy is dropped with the engine. There is no handler, no
saved program counter and no return (R307, R309): the next operation is accepted normally (R308). -/
def raiseError (c : Cause) (info : Nat) (s : State) : State :=
  { s with
    status := c.status
    info := BitVec.ofNat 32 info
    engine := .idle
    resp := some ⟨c.status, 0⟩ }

/-- A failing read: the status goes to the response only (R134). -/
def failRead (c : Cause) (s : State) : State :=
  { s with resp := some ⟨c.status, 0⟩ }

/-- A successful read: status `OK` and the datum, in the response only (R119, R131 to R133). -/
def answerRead (value : Int) (s : State) : State :=
  { s with resp := some ⟨statusOk, value⟩ }

/-- The successful end of an operation that is no read: `STATUS` is `OK`, `INFO` is 0, the response `(OK, 0)` (R119,
R301), and the core is idle. -/
def finishOk (s : State) : State :=
  { s with
    status := statusOk
    info := 0
    engine := .idle
    resp := some ⟨statusOk, 0⟩ }

/-- The end of a `CB_UPDATE`: the working copy becomes the codebook (R125, R121). -/
def commitLcw (e : LcwEngine) (s : State) : State :=
  finishOk { s with cb := e.work }

/-- The end of a `VPTR_EXPAND`: the working copy becomes the raster (R127, R121). -/
def commitBlock (e : BlockEngine) (s : State) : State :=
  finishOk { s with ras := e.work }

/-- The end of an `ADPCM_DECODE`: the unit becomes `PCM`, the pair becomes `(A_INDEX, A_PRED)` (R257). -/
def commitAdpcm (e : AdpcmEngine) (s : State) : State :=
  finishOk { s with pcm := e.work, aIndex := e.index, aPred := e.pred }

/-- The memories get fresh unspecified contents (R33, R120, R122; log 8). -/
def freshMemories (s : State) : State :=
  { s with cb := [], ras := [], pcm := [], epoch := s.epoch + 1 }

/-! ### The operation in progress -/

/-- Runs `f` on the LCW operation in progress. -/
def withLcw (s : State) (f : LcwEngine → Result) : Result :=
  match s.engine with
  | .lcw e => f e
  | .idle | .block _ | .adpcm _ => .refused .noOperation

/-- Runs `f` on the block operation in progress. -/
def withBlock (s : State) (f : BlockEngine → Result) : Result :=
  match s.engine with
  | .block e => f e
  | .idle | .lcw _ | .adpcm _ => .refused .noOperation

/-- Runs `f` on the ADPCM operation in progress. -/
def withAdpcm (s : State) (f : AdpcmEngine → Result) : Result :=
  match s.engine with
  | .adpcm e => f e
  | .idle | .lcw _ | .block _ => .refused .noOperation

/-- Runs `r` if no operation is in progress (R20). -/
def whenIdle (s : State) (r : Result) : Result :=
  match s.engine with
  | .idle => r
  | .lcw _ | .block _ | .adpcm _ => .refused .coreBusy

end Sys2Proof.Machine
end

