-- ==== Sys2Proof/Machine/Operands.lean ====
section
/-!
DEFINITION. Machine/Operands.lean: the operand forms of the stream commands.
Copy sources of the LCW commands (41_lcw_codebook.md R163), pixels of codebook and raster blocks (20_memory.md R58,
R59), codes of an audio unit (43_adpcm.md R256), and the registers by number (10_state.md R23 to R25).
-/

namespace Sys2Proof.Machine

/-- `backref(dist)`: the window index `dist` bytes back from `lc`, if it points into the produced output (R163). -/
def backref (lc dist : Nat) : Option Nat :=
  if dist = 0 ∨ lc < dist then none else some (lc - dist)

/-- `absref(off)`: the window index `off`, if it points into the produced output (R163). -/
def absref (lc off : Nat) : Option Nat :=
  if lc ≤ off then none else some off

/-- The copy source of `LCW.RCOPY` and `LCW.LCOPY`: relative or absolute by `lrel` (R167, R168). -/
def runSource (e : LcwEngine) (off : Nat) : Option Nat :=
  if e.lrel = true then backref e.lc off else absref e.lc off

/-- `cbpix(b, x, y)`: the codebook pixel, little-endian, row-major in its block (R58). -/
def cbPixel (s : State) (b x y : Nat) : Pixel :=
  le16 (readCb s.epoch s.cb (b * s.cfg.blkBytes + 2 * (y * s.cfg.bw.toNat + x)))
    (readCb s.epoch s.cb (b * s.cfg.blkBytes + 2 * (y * s.cfg.bw.toNat + x) + 1))

/-- The place of `RAS[y][x]` in the raster memory; coordinates are 16 bits (R12, R131; log 10). -/
def rasKey (x y : Nat) : Nat := y * 65536 + x

/-- `x0(d)`: the left column of destination block `d` (R59). -/
def CfgRegs.x0 (c : CfgRegs) (d : Nat) : Nat := c.xoff.toNat + d % c.gw * c.bw.toNat

/-- `y0(d)`: the top row of destination block `d` (R59). -/
def CfgRegs.y0 (c : CfgRegs) (d : Nat) : Nat := c.yoff.toNat + d / c.gw * c.bh.toNat

/-- Code `ak` of a unit: two codes a byte, which half first by `ADPCM_LOW_NIBBLE_FIRST` (R256). -/
def codeAt (c : Config) (input : List Byte) (ak : Nat) : Option (BitVec 4) :=
  match input[ak / 2]? with
  | none => none
  | some byte =>
    if (ak % 2 == 0) == c.lowNibbleFirst then some (byte.extractLsb' 0 4)
    else some (byte.extractLsb' 4 4)

/-- `ADPCM_DELTA(index, m)` (R250). -/
def adpcmDelta (c : Config) (index m : Nat) : Nat := c.adpcmDelta.getD (8 * index + m) 0

/-- `ADPCM_IDX(m)` (R250). -/
def adpcmIdx (c : Config) (m : Nat) : Int := c.adpcmIdx.getD m 0

/-- Register `n` as `READ_REG` returns it: `A_PRED` sign-extended, all others zero-extended; none for a number that is
no register (R23 to R25, R133). -/
def readRegister (s : State) (n : Nat) : Option Int :=
  match n with
  | 0 => some s.status.toNat
  | 1 => some s.info.toNat
  | 2 => some s.configured.toNat
  | 3 => some s.aIndex.toNat
  | 4 => some s.aPred.toInt
  | 5 => some s.cfg.w.toNat
  | 6 => some s.cfg.h.toNat
  | 7 => some s.cfg.bw.toNat
  | 8 => some s.cfg.bh.toNat
  | 9 => some s.cfg.maxBlocks.toNat
  | 10 => some s.cfg.xoff.toNat
  | 11 => some s.cfg.yoff.toNat
  | 12 => some s.cfg.rw.toNat
  | 13 => some s.cfg.rh.toNat
  | 14 => some s.cfg.maxVptr.toNat
  | 15 => some s.cfg.maxCbf.toNat
  | 16 => some s.config.unitSamples.toNat
  | _ => none

end Sys2Proof.Machine
end

