-- ==== Sys2Proof/Machine/Adpcm.lean ====
section
/-!
DEFINITION. Machine/Adpcm.lean: the meaning of an ADPCM code (43_adpcm.md R250 to R258).
It acts on the `ADPCM_DECODE` in progress.
-/

namespace Sys2Proof.Machine

/-- The new predictor (R255): the old one plus or minus the delta of the index before the update, clamped to 16 bits. -/
def adpcmPred (c : Config) (index : BitVec 7) (pred : BitVec 16) (s : BitVec 1) (m : BitVec 3) : Int :=
  let d : Int := adpcmDelta c index.toNat m.toNat
  clamp (if s = 1 then pred.toInt - d else pred.toInt + d) (-32768) 32767

/-- The new step index (R255), clamped to 0..88. -/
def adpcmIndex (c : Config) (index : BitVec 7) (m : BitVec 3) : Int :=
  clamp (index.toNat + adpcmIdx c m.toNat) 0 88

/-- The pair `(index, pred)` after one code (R255). -/
def adpcmNext (c : Config) (index : BitVec 7) (pred : BitVec 16) (s : BitVec 1) (m : BitVec 3) :
    BitVec 7 × BitVec 16 :=
  (BitVec.ofInt 7 (adpcmIndex c index m), BitVec.ofInt 16 (adpcmPred c index pred s m))

/-- `AD.CODE s, m` (R255) inside the unit loop (R257): the sample is the new predictor and goes to `PCM[ak]`; then the
next code. A sample at or above `UNIT_SAMPLES` does not exist (R12; log 12). -/
def execAdCode (sgn : BitVec 1) (m : BitVec 3) (s : State) : Result :=
  withAdpcm s fun e =>
    if s.config.unitSamples.toNat ≤ e.ak then .fault .outsidePcm
    else
      let next := adpcmNext s.config e.index e.pred sgn m
      .next { s with
        engine := .adpcm { e with
          asOff := (e.ak + 1) / 2
          ak := e.ak + 1
          index := next.1
          pred := next.2
          work := Memory.set e.work e.ak next.2 } }

end Sys2Proof.Machine
end

