-- ==== Sys2Proof/Machine/Block.lean ====
section
/-!
DEFINITION. Machine/Block.lean: the meanings of the block-pointer commands (42_vptr_block_engine.md R200 to R215).
Each acts on the `VPTR_EXPAND` in progress.
-/

namespace Sys2Proof.Machine

/-- One pixel move of `put` (R202): the source pixel `(x, y)` of block `b` to the same place of destination block `d`,
unless the write is keyed and the pixel's bit 15 is set (R203). -/
def putPixel (s : State) (keyed : Bool) (b d x y : Nat) (m : Memory 16) : Memory 16 :=
  if keyed = true ∧ keyBit (cbPixel s b x y) = true then m
  else Memory.set m (rasKey (s.cfg.x0 d + x) (s.cfg.y0 d + y)) (cbPixel s b x y)

/-- The first `n` pixel moves of a block, in row-major order. -/
def putPixels (s : State) (keyed : Bool) (b d : Nat) : Nat → Memory 16 → Memory 16
  | 0, m => m
  | n + 1, m => putPixel s keyed b d (n % s.cfg.bw.toNat) (n / s.cfg.bw.toNat) (putPixels s keyed b d n m)

/-- How a block write can fail: with a cause (R202), or by leaving the raster, which `CONFIG` excludes (R59; log 12). -/
inductive PutStop where
  | cause (c : Cause)
  | hole
deriving DecidableEq, Repr

/-- `put(vd, b, keyed); vd <- vd + 1` (R202): block index check, destination check, then `BW * BH` pixel moves. -/
def put (s : State) (keyed : Bool) (b : Nat) (e : BlockEngine) : Except PutStop BlockEngine :=
  if s.cfg.maxBlocks.toNat ≤ b then .error (.cause .vptrBadBlock)
  else if s.cfg.nblk ≤ e.vd then .error (.cause .vptrDestOverrun)
  else if s.cfg.rw.toNat < s.cfg.x0 e.vd + s.cfg.bw.toNat ∨ s.cfg.rh.toNat < s.cfg.y0 e.vd + s.cfg.bh.toNat then
    .error .hole
  else .ok { e with vd := e.vd + 1, work := putPixels s keyed b e.vd s.cfg.blkPix e.work }

/-- Successive `put`s of the listed blocks. -/
def putAll (s : State) (keyed : Bool) : List Nat → BlockEngine → Except PutStop BlockEngine
  | [], e => .ok e
  | b :: bs, e =>
    match put s keyed b e with
    | .ok e' => putAll s keyed bs e'
    | .error stop => .error stop

/-- The index loop of `VP.LIST` (R208): `n` times a checked read of the next index byte, then a `put`. -/
def putListed (s : State) : Nat → List Byte → BlockEngine → Except PutStop BlockEngine
  | 0, _, e => .ok e
  | _ + 1, [], _ => .error (.cause .vptrSrcUnderrun)
  | n + 1, b :: bs, e =>
    match put s false b.toNat e with
    | .ok e' => putListed s n bs e'
    | .error stop => .error stop

/-- The end of a command that wrote blocks: the cursor `vs` moves by the command's length, or the error is raised with
the offset of the command word (R201). -/
def blockResult (len : Nat) (e : BlockEngine) (s : State) : Except PutStop BlockEngine → Result
  | .ok e' => .next { s with engine := .block { e' with vs := e.vs + len } }
  | .error (.cause c) => .next (raiseError c e.vs s)
  | .error .hole => .fault .outsideRaster

/-- `VP.LIST` with the index bytes that are in `IN` (R208): all `OP2_EXTRA(k)` of them in a whole command. -/
def vpListOp (k : BitVec 5) (b : BitVec 8) (idx : List Byte) (e : BlockEngine) (s : State) : Result :=
  blockResult (2 + s.config.extraOf k) e s
    (match put s false b.toNat e with
      | .ok e' => putListed s (s.config.extraOf k) idx e'
      | .error stop => .error stop)

/-- `VP.RUN` and `VP.RUNK`: the byte `M` must be in `IN`, then `M` times block `b` (R211, R212). -/
def vpRunOp (keyed : Bool) (b : BitVec 13) (m : Byte) (e : BlockEngine) (s : State) : Result :=
  if e.input.length ≤ e.vs + 2 then .next (raiseError .vptrSrcUnderrun e.vs s)
  else blockResult 3 e s (putAll s keyed (List.replicate m.toNat b.toNat) e)

/-- `VP.SKIP` (R206). -/
def execVpSkip (n : BitVec 13) (s : State) : Result :=
  withBlock s fun e =>
    if s.cfg.nblk < e.vd + n.toNat then .next (raiseError .vptrDestOverrun e.vs s)
    else .next { s with engine := .block { e with vd := e.vd + n.toNat, vs := e.vs + 2 } }

/-- `VP.REPEAT` (R207): `2 * (k + 1)` times block `b`, opaque. -/
def execVpRepeat (k : BitVec 5) (b : BitVec 8) (s : State) : Result :=
  withBlock s fun e =>
    blockResult 2 e s (putAll s false (List.replicate (2 * (k.toNat + 1)) b.toNat) e)

/-- `VP.LIST` (R208). -/
def execVpList (k : BitVec 5) (b : BitVec 8) (idx : List Byte) (s : State) : Result :=
  withBlock s fun e => vpListOp k b idx e s

/-- `VP.PUT` (R209). -/
def execVpPut (b : BitVec 13) (s : State) : Result :=
  withBlock s fun e => blockResult 2 e s (putAll s false [b.toNat] e)

/-- `VP.PUTK` (R210). -/
def execVpPutk (b : BitVec 13) (s : State) : Result :=
  withBlock s fun e => blockResult 2 e s (putAll s true [b.toNat] e)

/-- `VP.RUN` (R211). -/
def execVpRun (b : BitVec 13) (m : Byte) (s : State) : Result :=
  withBlock s fun e => vpRunOp false b m e s

/-- `VP.RUNK` (R212). -/
def execVpRunk (b : BitVec 13) (m : Byte) (s : State) : Result :=
  withBlock s fun e => vpRunOp true b m e s

/-- Opcode 7 (R213): `raise DecodeError(VPTR_BAD_OPCODE, vs)`, whatever the other thirteen bits. -/
def execVpIllegal (_x : BitVec 13) (s : State) : Result :=
  withBlock s fun e => .next (raiseError .vptrBadOpcode e.vs s)

end Sys2Proof.Machine
end

