-- ==== Sys2Proof/Machine/Lcw.lean ====
section
/-!
DEFINITION. Machine/Lcw.lean: the meanings of the LCW commands (41_lcw_codebook.md R160 to R171).
Each acts on the `CB_UPDATE` in progress. The order of checks is R163's: source bytes, offset, room.
-/

namespace Sys2Proof.Machine

/-- The rest of a command once its checks have passed: `ls` moves by the command's length, `lc` by the bytes produced,
and the working copy of the codebook is the new one. Writing past the codebook's end cannot happen after the window
check of `CB_UPDATE` (R125, R61); a state in which it would stops (log 12). -/
def lcwAdvance (len count : Nat) (work : Memory 8) (e : LcwEngine) (s : State) : Result :=
  if s.cfg.cbBytes < e.dstOff + e.lc + count then .fault .outsideCodebook
  else .next { s with engine := .lcw { e with ls := e.ls + len, lc := e.lc + count, work := work } }

/-- A command that produces `count` bytes without a copy source: `need(len)`, `room(count)`, then the bytes. -/
def lcwProduce (len count : Nat) (work : Memory 8) (e : LcwEngine) (s : State) : Result :=
  if e.input.length < e.ls + len then .next (raiseError .lcwSrcUnderrun e.ls s)
  else if e.outLen < e.lc + count then .next (raiseError .lcwOverrun e.ls s)
  else lcwAdvance len count work e s

/-- A copy command: `need(len)`, the offset check, `room(count)`, then `copy(src, count)` (R163). -/
def lcwCopy (len count : Nat) (source : Option Nat) (e : LcwEngine) (s : State) : Result :=
  if e.input.length < e.ls + len then .next (raiseError .lcwSrcUnderrun e.ls s)
  else match source with
    | none => .next (raiseError .lcwBadOffset e.ls s)
    | some src =>
      if e.outLen < e.lc + count then .next (raiseError .lcwOverrun e.ls s)
      else lcwAdvance len count (copyBytes s.epoch count e.work (e.dstOff + src) (e.dstOff + e.lc)) e s

/-- `LCW.MODE` (R162): offsets of run copies become relative; one byte consumed, nothing produced. -/
def execLcwMode (s : State) : Result :=
  withLcw s fun e => .next { s with engine := .lcw { e with lrel := true, ls := 1 } }

/-- `LCW.SCOPY` (R166): `n + 3` bytes from `dist` bytes back, in both modes. -/
def execLcwScopy (n : BitVec 3) (dist : BitVec 12) (s : State) : Result :=
  withLcw s fun e => lcwCopy 2 (n.toNat + 3) (backref e.lc dist.toNat) e s

/-- `LCW.END` (R165): the window must be exactly full; the codebook takes the working copy. -/
def execLcwEnd (s : State) : Result :=
  withLcw s fun e =>
    if e.lc ≠ e.outLen then .next (raiseError .lcwSizeMismatch e.ls s)
    else .next (commitLcw e s)

/-- `LCW.LIT` (R164): the literal bytes. -/
def execLcwLit (bytes : List Byte) (s : State) : Result :=
  withLcw s fun e =>
    lcwProduce (1 + bytes.length) bytes.length (writeBytes e.work (e.dstOff + e.lc) bytes) e s

/-- `LCW.FILL` (R169): `cnt` times `val`; reserved without the long forms (R92). -/
def execLcwFill (cnt : BitVec 16) (val : Byte) (s : State) : Result :=
  withLcw s fun e =>
    if s.config.lcwLongForms = false then .next (raiseError .lcwReserved e.ls s)
    else lcwProduce 4 cnt.toNat (writeBytes e.work (e.dstOff + e.lc) (List.replicate cnt.toNat val)) e s

/-- `LCW.LCOPY` (R168): `cnt` bytes from `off`, which is not checked when `cnt = 0`; reserved without the long forms. -/
def execLcwLcopy (cnt off : BitVec 16) (s : State) : Result :=
  withLcw s fun e =>
    if s.config.lcwLongForms = false then .next (raiseError .lcwReserved e.ls s)
    else if cnt = 0 then
      if e.input.length < e.ls + 5 then .next (raiseError .lcwSrcUnderrun e.ls s)
      else lcwAdvance 5 0 e.work e s
    else lcwCopy 5 cnt.toNat (runSource e off.toNat) e s

/-- `LCW.RCOPY` (R167): `n + 3` bytes from `off`. -/
def execLcwRcopy (n : BitVec 6) (off : BitVec 16) (s : State) : Result :=
  withLcw s fun e => lcwCopy 3 (n.toNat + 3) (runSource e off.toNat) e s

end Sys2Proof.Machine
end

