-- ==== Sys2Proof/Machine/Engine.lean ====
section
/-!
DEFINITION. Machine/Engine.lean: the main loops of the three engines (R161, R200, R257): fetching the command at the
cursor, running it, and running an operation to its end.
-/

namespace Sys2Proof.Machine

/-- What stands at the cursor of the operation in progress. -/
inductive Fetched where
  /-- No operation is in progress. -/
  | idle
  /-- A command. -/
  | command (i : Instr)
  /-- The stream's loop is over and every command passed: `vs = in_len` (R200), or `ak = UNIT_SAMPLES` (R257). -/
  | finished
  /-- Bytes that are no command: an error of the stream. -/
  | rejected (r : Reject)
  /-- An audio unit without the byte of the next code; no run reaches it (log 12). -/
  | hole
deriving DecidableEq, Repr

/-- A decoder's answer as a fetch. -/
def Fetched.ofDecode : Except Reject Instr → Fetched
  | .ok i => .command i
  | .error r => .rejected r

/-- The command at the cursor (R27: the cursor over `IN` is the engine's program counter). The mode prefix is looked for
at payload offset 0 only (R84); the block loop ends when `vs` reaches `in_len` (R200); the ADPCM loop runs
`UNIT_SAMPLES` times (R257). -/
def fetch (s : State) : Fetched :=
  match s.engine with
  | .idle => .idle
  | .lcw e => Fetched.ofDecode (decodeLcw s.config (e.ls == 0) (e.input.drop e.ls))
  | .block e =>
    if e.input.length ≤ e.vs then .finished
    else Fetched.ofDecode (decodeVp s.config (e.input.drop e.vs))
  | .adpcm e =>
    if s.config.unitSamples.toNat ≤ e.ak then .finished
    else match codeAt s.config e.input e.ak with
      | some code => .command (decodeAd code)
      | none => .hole

/-- The error for bytes that are no command (R161, R163, R92, R200, R201); a `VP.LIST` cut short makes its checks up to
the missing byte (R208). -/
def takeReject (r : Reject) (s : State) : Result :=
  match r with
  | .lcwUnderrun => withLcw s fun e => .next (raiseError .lcwSrcUnderrun e.ls s)
  | .lcwReserved => withLcw s fun e => .next (raiseError .lcwReserved e.ls s)
  | .vpUnderrun => withBlock s fun e => .next (raiseError .vptrSrcUnderrun e.vs s)
  | .vpListCut k b idx => withBlock s fun e => vpListOp k b idx e s
  | .badHostOp => .next (raiseError .badHostOp 0 s)

/-- The successful end of a stream whose loop is over (R200, R257). -/
def closeStream (s : State) : State :=
  match s.engine with
  | .block e => commitBlock e s
  | .adpcm e => commitAdpcm e s
  | .idle | .lcw _ => s

/-- Runs a stream command; a host operation is no stream command. -/
def runCommand (i : Instr) (s : State) : Result :=
  match i with
  | .lcwMode => execLcwMode s
  | .lcwScopy n dist => execLcwScopy n dist s
  | .lcwEnd => execLcwEnd s
  | .lcwLit bytes => execLcwLit bytes s
  | .lcwFill cnt val => execLcwFill cnt val s
  | .lcwLcopy cnt off => execLcwLcopy cnt off s
  | .lcwRcopy n off => execLcwRcopy n off s
  | .vpSkip n => execVpSkip n s
  | .vpRepeat k b => execVpRepeat k b s
  | .vpList k b idx => execVpList k b idx s
  | .vpPut b => execVpPut b s
  | .vpPutk b => execVpPutk b s
  | .vpRun b m => execVpRun b m s
  | .vpRunk b m => execVpRunk b m s
  | .vpIllegal x => execVpIllegal x s
  | .adCode sgn m => execAdCode sgn m s
  | .reset | .config _ | .cbUpdate _ _ _ | .vptrExpand _ | .adpcmSetparam _ _ | .adpcmDecode _ => .refused .noOperation
  | .readRaster _ _ | .readPcm _ | .readReg _ => .refused .noOperation

/-- One round of the main loop of the operation in progress. -/
def engineStep (s : State) : Result :=
  match fetch s with
  | .idle => .next s
  | .command i => runCommand i s
  | .finished => .next (closeStream s)
  | .rejected r => takeReject r s
  | .hole => .fault .outsideInput

/-- Rounds of the main loop until the core is idle, at most `fuel` of them. R353: every loop is bounded; `in_len + 1`
rounds suffice for a stream, `UNIT_SAMPLES + 1` for an audio unit. -/
def runEngine : Nat → State → Result
  | 0, s => .next s
  | fuel + 1, s =>
    match s.engine with
    | .idle => .next s
    | .lcw _ | .block _ | .adpcm _ =>
      match engineStep s with
      | .next s' => runEngine fuel s'
      | .fault r => .fault r
      | .refused r => .refused r

end Sys2Proof.Machine
end

