-- ==== Sys2Proof/Machine/HostOps.lean ====
section
/-!
DEFINITION. Machine/HostOps.lean: the meanings of the nine host operations (40_host_operations.md R119 to R134).
Each is the whole operation, to its end, in one step (R56, R353).
-/

namespace Sys2Proof.Machine

/-- The gate of operations 2 to 5 (R124): it comes before every other check. -/
def whenConfigured (s : State) (r : Result) : Result :=
  whenIdle s (if s.configured = true then r else .next (raiseError .notConfigured 0 s))

/-- The gate of the reads 6 and 7 (R124), whose errors stay out of `STATUS` (R134). -/
def readWhenConfigured (s : State) (r : Result) : Result :=
  whenIdle s (if s.configured = true then r else .next (failRead .notConfigured s))

/-- `RESET` (R120, R33): registers 0, memories unspecified; never fails. -/
def execReset (s : State) : Result :=
  whenIdle s (.next (finishOk { freshMemories s with
    configured := false
    aIndex := 0
    aPred := 0
    cfg := CfgRegs.zero }))

/-- The declared audio is not the fixed configuration (R122): the rate is compared only if there is a `FIXED_RATE`. -/
def audioBad (c : Config) (p : ConfigOperands) : Bool :=
  p.aCh != 1 || p.aBits != 16 ||
    match c.fixedRate with
    | some rate => p.aRate != rate
    | none => false

/-- `CONFIG` (R122): already configured, geometry, audio; then the registers, the pair, fresh memories. -/
def execConfig (p : ConfigOperands) (s : State) : Result :=
  whenIdle s (
    if s.configured = true then .next (raiseError .alreadyConfigured 0 s)
    else if (CfgRegs.ofOperands p).geometryOk = false then .next (raiseError .badGeometry 0 s)
    else if audioBad s.config p = true then .next (raiseError .badAudioConfig 0 s)
    else .next (finishOk { freshMemories s with
      configured := true
      aIndex := 0
      aPred := 0
      cfg := CfgRegs.ofOperands p }))

/-- The start of a `CB_UPDATE` whose operands passed (R161): cursors 0, absolute offsets until the mode prefix says
otherwise (R162), a copy of the codebook to work on. -/
def beginLcw (dstOff outLen : BitVec 32) (payload : List Byte) (s : State) : State :=
  { s with engine := .lcw ⟨payload, dstOff.toNat, outLen.toNat, 0, 0, false, s.cb⟩ }

/-- `CB_UPDATE` (R125): window, limit (R126), then the LCW stream to its end. -/
def execCbUpdate (dstOff outLen : BitVec 32) (payload : List Byte) (s : State) : Result :=
  whenConfigured s (
    if s.cfg.cbBytes < dstOff.toNat + outLen.toNat then .next (raiseError .cbWindow 0 s)
    else if s.cfg.maxCbf.toNat < payload.length then .next (raiseError .cbOverLimit 0 s)
    else runEngine (payload.length + 1) (beginLcw dstOff outLen payload s))

/-- The start of a `VPTR_EXPAND` (R200): cursors 0, a copy of the raster to work on. -/
def beginBlock (payload : List Byte) (s : State) : State :=
  { s with engine := .block ⟨payload, 0, 0, s.ras⟩ }

/-- `VPTR_EXPAND` (R127): limit (R126), then the block-pointer stream to its end. -/
def execVptrExpand (payload : List Byte) (s : State) : Result :=
  whenConfigured s (
    if s.cfg.maxVptr.toNat < payload.length then .next (raiseError .vptrOverLimit 0 s)
    else runEngine (payload.length + 1) (beginBlock payload s))

/-- `ADPCM_SETPARAM` (R129): range check, then the pair. -/
def execAdpcmSetparam (idx : BitVec 16) (pred : BitVec 32) (s : State) : Result :=
  whenConfigured s (
    if 88 < idx.toNat ∨ pred.toInt < -32768 ∨ 32767 < pred.toInt then .next (raiseError .adpcmBadState 0 s)
    else .next (finishOk { s with aIndex := BitVec.ofNat 7 idx.toNat, aPred := BitVec.ofInt 16 pred.toInt }))

/-- The start of an `ADPCM_DECODE` (R257): cursors 0, the pair of the registers, a copy of the buffer to work on. -/
def beginAdpcm (payload : List Byte) (s : State) : State :=
  { s with engine := .adpcm ⟨payload, 0, 0, s.aIndex, s.aPred, s.pcm⟩ }

/-- `ADPCM_DECODE` (R130): length, then the unit to its end. -/
def execAdpcmDecode (payload : List Byte) (s : State) : Result :=
  whenConfigured s (
    if payload.length ≠ unitBytes s.config then .next (raiseError .adpcmLen 0 s)
    else runEngine (s.config.unitSamples.toNat + 1) (beginAdpcm payload s))

/-- `READ_RASTER` (R131): the pixel zero-extended. -/
def execReadRaster (x y : BitVec 16) (s : State) : Result :=
  readWhenConfigured s (
    if s.cfg.rw.toNat ≤ x.toNat ∨ s.cfg.rh.toNat ≤ y.toNat then .next (failRead .readRange s)
    else .next (answerRead (readRas s.epoch s.ras (rasKey x.toNat y.toNat)).toNat s))

/-- `READ_PCM` (R132): the signed sample. -/
def execReadPcm (k : BitVec 16) (s : State) : Result :=
  readWhenConfigured s (
    if s.config.unitSamples.toNat ≤ k.toNat then .next (failRead .readRange s)
    else .next (answerRead (readPcmAt s.epoch s.pcm k.toNat).toInt s))

/-- `READ_REG` (R133): accepted when unconfigured. -/
def execReadReg (n : BitVec 8) (s : State) : Result :=
  whenIdle s (
    match readRegister s n.toNat with
    | some v => .next (answerRead v s)
    | none => .next (failRead .readRange s))

end Sys2Proof.Machine
end

