-- ==== Sys2Proof/Machine/Dispatch.lean ====
section
/-!
DEFINITION. Machine/Dispatch.lean: one arm per instruction, each one call of its meaning.
-/

namespace Sys2Proof.Machine

def exec (i : Instr) (s : State) : Host.Outcome State Fault Refusal :=
  match i with
  | .lcwMode => Sys2Proof.Machine.execLcwMode s
  | .lcwScopy n dist => Sys2Proof.Machine.execLcwScopy n dist s
  | .lcwEnd => Sys2Proof.Machine.execLcwEnd s
  | .lcwLit bytes => Sys2Proof.Machine.execLcwLit bytes s
  | .lcwFill cnt val => Sys2Proof.Machine.execLcwFill cnt val s
  | .lcwLcopy cnt off => Sys2Proof.Machine.execLcwLcopy cnt off s
  | .lcwRcopy n off => Sys2Proof.Machine.execLcwRcopy n off s
  | .vpSkip n => Sys2Proof.Machine.execVpSkip n s
  | .vpRepeat k b => Sys2Proof.Machine.execVpRepeat k b s
  | .vpList k b idx => Sys2Proof.Machine.execVpList k b idx s
  | .vpPut b => Sys2Proof.Machine.execVpPut b s
  | .vpPutk b => Sys2Proof.Machine.execVpPutk b s
  | .vpRun b m => Sys2Proof.Machine.execVpRun b m s
  | .vpRunk b m => Sys2Proof.Machine.execVpRunk b m s
  | .vpIllegal x => Sys2Proof.Machine.execVpIllegal x s
  | .adCode sgn m => Sys2Proof.Machine.execAdCode sgn m s
  | .reset => Sys2Proof.Machine.execReset s
  | .config p => Sys2Proof.Machine.execConfig p s
  | .cbUpdate dstOff outLen payload => Sys2Proof.Machine.execCbUpdate dstOff outLen payload s
  | .vptrExpand payload => Sys2Proof.Machine.execVptrExpand payload s
  | .adpcmSetparam idx pred => Sys2Proof.Machine.execAdpcmSetparam idx pred s
  | .adpcmDecode payload => Sys2Proof.Machine.execAdpcmDecode payload s
  | .readRaster x y => Sys2Proof.Machine.execReadRaster x y s
  | .readPcm k => Sys2Proof.Machine.execReadPcm k s
  | .readReg n => Sys2Proof.Machine.execReadReg n s

end Sys2Proof.Machine
end

