-- ==== Sys2Proof/Machine/Step.lean ====
section
/-!
DEFINITION. Machine/Step.lean: one step of the machine.
Idle, it takes the oldest host operation and runs it to its end (R20, R56); with no operation it waits (R340). With an
operation in progress it runs the command at the cursor (R161, R200, R257).
-/

namespace Sys2Proof.Machine

/-- One step. -/
def step (s : State) : Host.Outcome State Fault Refusal :=
  match fetch s with
  | .idle =>
    match s.pending with
    | [] => .next s
    | r :: rest =>
      match decodeHost r with
      | .ok i => exec i { s with pending := rest }
      | .error reject => takeReject reject { s with pending := rest }
  | .command i => exec i s
  | .finished => .next (closeStream s)
  | .rejected reject => takeReject reject s
  | .hole => .fault .outsideInput

/-- `s` with the table word `w` placed where the next step fetches (log 15): a host operation as the only request of an
idle core; a stream command at offset 0 of the payload of an operation of its engine, in the window of no bytes at
codebook address 0; an ADPCM code as the next code of a unit. -/
def State.withFetchWord (s : State) (nbits w : Nat) : State :=
  match tableCode nbits w with
  | .host r => { s with engine := .idle, pending := [r] }
  | .lcw bytes => { s with engine := .lcw ⟨bytes, 0, 0, 0, 0, false, s.cb⟩ }
  | .vp bytes => { s with engine := .block ⟨bytes, 0, 0, s.ras⟩ }
  | .ad code => { s with engine := .adpcm ⟨[code ++ code], 0, 0, s.aIndex, s.aPred, s.pcm⟩ }

end Sys2Proof.Machine
end

