-- ==== Sys2Proof/Safety.lean ====
section
/-!
DEFINITION. Safety.lean: the terms claims are stated in: the invariant of the machine, what a block covers, what an
audio unit decodes to, a stream of literals.
-/

namespace Sys2Proof.Machine

/-- A raster place lies inside the raster `CONFIG` set up (R30). -/
def CfgRegs.inRaster (c : CfgRegs) (key : Nat) : Prop :=
  key % 65536 < c.rw.toNat ∧ key / 65536 < c.rh.toNat

/-- A raster place belongs to destination block `d` (R59). -/
def CfgRegs.inBlock (c : CfgRegs) (d key : Nat) : Prop :=
  ∃ x y, x < c.bw.toNat ∧ y < c.bh.toNat ∧ key = rasKey (c.x0 d + x) (c.y0 d + y)

/-- A `CB_UPDATE` in progress is sound: the cursors are in range (R27), the window lies in the codebook (R125), and the
working copy differs from the codebook only in the bytes produced so far (R163). -/
structure LcwEngine.Ok (s : State) (e : LcwEngine) : Prop where
  source : e.ls ≤ e.input.length
  limit : e.input.length ≤ s.cfg.maxCbf.toNat
  window : e.dstOff + e.outLen ≤ s.cfg.cbBytes
  width : e.outLen < 2 ^ 32
  produced : e.lc ≤ e.outLen
  canonical : Memory.wf e.work
  inside : ∀ p ∈ e.work, p.1 < s.cfg.cbBytes
  written : ∀ i, i < e.lc → (Memory.get? e.work (e.dstOff + i)).isSome = true
  kept : ∀ a, a < e.dstOff ∨ e.dstOff + e.lc ≤ a → Memory.get? e.work a = Memory.get? s.cb a

/-- A `VPTR_EXPAND` in progress is sound: `0 <= vd <= NBLK` (R205), and the working copy stays in the raster (R59). -/
structure BlockEngine.Ok (s : State) (e : BlockEngine) : Prop where
  source : e.vs ≤ e.input.length
  limit : e.input.length ≤ s.cfg.maxVptr.toNat
  dest : e.vd ≤ s.cfg.nblk
  canonical : Memory.wf e.work
  inside : ∀ p ∈ e.work, s.cfg.inRaster p.1

/-- An `ADPCM_DECODE` in progress is sound (R257, R258, R260). -/
structure AdpcmEngine.Ok (s : State) (e : AdpcmEngine) : Prop where
  unit : e.input.length = unitBytes s.config
  count : e.ak ≤ s.config.unitSamples.toNat
  offset : e.asOff = e.ak / 2
  index : e.index.toNat ≤ 88
  canonical : Memory.wf e.work
  inside : ∀ p ∈ e.work, p.1 < s.config.unitSamples.toNat

/-- The operation in progress is sound; one is in progress only in a configured core (R124). -/
def State.EngineOk (s : State) : Prop :=
  match s.engine with
  | .idle => True
  | .lcw e => s.configured = true ∧ LcwEngine.Ok s e
  | .block e => s.configured = true ∧ BlockEngine.Ok s e
  | .adpcm e => s.configured = true ∧ AdpcmEngine.Ok s e

/-- The invariant of the machine: the memories are canonical and lie inside the spaces `CONFIG` set up, the step index
is 0..88 (R23, R260), a configured core has a legal geometry (R123), an unconfigured one has zero configuration
registers (R24, R33), and the operation in progress is sound. -/
structure State.Inv (s : State) : Prop where
  cbCanonical : Memory.wf s.cb
  rasCanonical : Memory.wf s.ras
  pcmCanonical : Memory.wf s.pcm
  cbInside : ∀ p ∈ s.cb, p.1 < s.cfg.cbBytes
  rasInside : ∀ p ∈ s.ras, s.cfg.inRaster p.1
  pcmInside : ∀ p ∈ s.pcm, p.1 < s.config.unitSamples.toNat
  indexRange : s.aIndex.toNat ≤ 88
  geometry : s.configured = true → s.cfg.geometryOk = true
  unconfigured : s.configured = false → s.cfg = CfgRegs.zero
  engineOk : s.EngineOk

/-- A step is safe if it answers a next state: neither a fault nor a refusal. -/
def State.Goes (s : State) : Prop := ∃ t, step s = .next t

/-- The commands of the three streams, as opposed to the host operations. -/
def isCommand : Instr → Bool
  | .lcwMode | .lcwScopy _ _ | .lcwEnd | .lcwLit _ | .lcwFill _ _ | .lcwLcopy _ _ | .lcwRcopy _ _ => true
  | .vpSkip _ | .vpRepeat _ _ | .vpList _ _ _ | .vpPut _ | .vpPutk _ | .vpRun _ _ | .vpRunk _ _ | .vpIllegal _ => true
  | .adCode _ _ => true
  | .reset | .config _ | .cbUpdate _ _ _ | .vptrExpand _ | .adpcmSetparam _ _ | .adpcmDecode _ => false
  | .readRaster _ _ | .readPcm _ | .readReg _ => false

/-- The three read operations (R134). -/
def isRead : Instr → Bool
  | .readRaster _ _ | .readPcm _ | .readReg _ => true
  | .lcwMode | .lcwScopy _ _ | .lcwEnd | .lcwLit _ | .lcwFill _ _ | .lcwLcopy _ _ | .lcwRcopy _ _ => false
  | .vpSkip _ | .vpRepeat _ _ | .vpList _ _ _ | .vpPut _ | .vpPutk _ | .vpRun _ _ | .vpRunk _ _ | .vpIllegal _ => false
  | .adCode _ _ => false
  | .reset | .config _ | .cbUpdate _ _ _ | .vptrExpand _ | .adpcmSetparam _ _ | .adpcmDecode _ => false

/-- The causes a command of the LCW stream can raise (R171). -/
def isLcwCause (c : Cause) : Prop :=
  c = .lcwSrcUnderrun ∨ c = .lcwBadOffset ∨ c = .lcwOverrun ∨ c = .lcwSizeMismatch ∨ c = .lcwReserved

/-- The causes a command of the block-pointer stream can raise (R215). -/
def isBlockCause (c : Cause) : Prop :=
  c = .vptrSrcUnderrun ∨ c = .vptrBadOpcode ∨ c = .vptrBadBlock ∨ c = .vptrDestOverrun

/-- `new` is `old` with the codebook blocks `bs` written to destination blocks `vd`, `vd + 1`, ...: every pixel of those
blocks holds its source pixel, or what it held if the write is keyed and the source pixel's bit 15 is set (R202, R203);
every other pixel is as before. -/
def BlocksWritten (s : State) (keyed : Bool) (bs : List Nat) (vd : Nat) (old new : Memory 16) : Prop :=
  (∀ j (hj : j < bs.length) x y, x < s.cfg.bw.toNat → y < s.cfg.bh.toNat →
    readRas s.epoch new (rasKey (s.cfg.x0 (vd + j) + x) (s.cfg.y0 (vd + j) + y)) =
      if keyed = true ∧ keyBit (cbPixel s bs[j] x y) = true
      then readRas s.epoch old (rasKey (s.cfg.x0 (vd + j) + x) (s.cfg.y0 (vd + j) + y)) else cbPixel s bs[j] x y) ∧
  (∀ key, (∀ j, j < bs.length → ¬ s.cfg.inBlock (vd + j) key) → readRas s.epoch new key = readRas s.epoch old key)

/-- `new` is `old` with the bytes `value 0`, ..., `value (n - 1)` at addresses `a`, `a + 1`, ...; every other byte is as
before. -/
def BytesWritten (epoch : Nat) (a n : Nat) (value : Nat → Byte) (old new : Memory 8) : Prop :=
  (∀ i, i < n → readCb epoch new (a + i) = value i) ∧
  (∀ b, b < a ∨ a + n ≤ b → readCb epoch new b = readCb epoch old b)

/-- The pair `(index, pred)` after the first `k` codes of a unit (R255 to R257). -/
def unitPair (c : Config) (input : List Byte) (start : BitVec 7 × BitVec 16) : Nat → BitVec 7 × BitVec 16
  | 0 => start
  | k + 1 =>
    let p := unitPair c input start k
    match codeAt c input k with
    | some code => adpcmNext c p.1 p.2 (code.extractLsb' 3 1) (code.extractLsb' 0 3)
    | none => p

/-- An LCW stream of literals, at most 63 bytes each, without the end marker (R164, R170); `fuel` bounds the number of
literals. -/
def literalCommands : Nat → List Byte → List Byte
  | 0, _ => []
  | _ + 1, [] => []
  | fuel + 1, b :: bs =>
    encodeBytes (.lcwLit ((b :: bs).take 63)) ++ literalCommands fuel ((b :: bs).drop 63)

/-- "literals only, then `LCW.END`" (R170). -/
def literalStream (bytes : List Byte) : List Byte :=
  literalCommands bytes.length bytes ++ encodeBytes .lcwEnd

end Sys2Proof.Machine
end

