-- ==== Sys2Proof/Certificates/Slice0/Obligations.lean ====
section
/-!
DEFINITION. Certificates/Slice0/Obligations.lean: the statements for the provers. OBLIGATIONS.json lists them with the
rules they formalise.
-/

open Sys2Proof Sys2Proof.Machine

/-! ### Encodings -/

/-- Words of the spec's vectors and of its opcode table (95_test_vectors.md, 30_encoding.md R94, R100) decode to the
instructions they stand for. -/
def Obligations.SpecWordsDecode : Prop :=
  decodeLcw Config.default true [0x00, 0x80] = .ok .lcwMode ∧
  decodeLcw Config.default false [0x20, 0x02, 0x80] = .ok (.lcwScopy 2 2) ∧
  decodeLcw Config.default true [0x83, 0x11, 0x22, 0x33, 0x80] = .ok (.lcwLit [0x11, 0x22, 0x33]) ∧
  decodeLcw Config.default true [0x80, 0x99] = .ok .lcwEnd ∧
  decodeLcw Config.default false [0xFE, 0x05, 0x01, 0x77] = .ok (.lcwFill 0x105 0x77) ∧
  decodeLcw Config.default false [0xFF, 0x04, 0x00, 0x0A, 0x01] = .ok (.lcwLcopy 4 0x10A) ∧
  decodeLcw Config.default false [0xC1, 0x01, 0x02] = .ok (.lcwRcopy 1 0x201) ∧
  decodeVp Config.default [0x04, 0x00] = .ok (.vpSkip 4) ∧
  decodeVp Config.default [0x03, 0x27] = .ok (.vpRepeat 7 3) ∧
  decodeVp Config.default [0x01, 0x42, 0x02, 0x07] = .ok (.vpList 2 1 [2, 7]) ∧
  decodeVp Config.default [0x2B, 0x61] = .ok (.vpPut 299) ∧
  decodeVp Config.default [0x05, 0x80] = .ok (.vpPutk 5) ∧
  decodeVp Config.default [0x09, 0xA0, 0x00] = .ok (.vpRun 9 0) ∧
  decodeVp Config.default [0x01, 0xC0, 0x04] = .ok (.vpRunk 1 4) ∧
  decodeVp Config.default [0x00, 0xE0] = .ok (.vpIllegal 0) ∧
  decodeAd 0x9 = .adCode 1 1 ∧
  codeAt Config.default [0x7F] 0 = some 0xF ∧
  codeAt Config.default [0x7F] 1 = some 0x7 ∧
  decodeHost ⟨7, { HostOperands.zero with k := 5 }, []⟩ = .ok (.readPcm 5)

/-- The LCW control byte map (R87) with the fields of each format (R81), as numbers, where `rest` is long enough for any
operand; with the long forms every control byte is assigned. Without them 0xFE and 0xFF are reserved and raise
`LCW_RESERVED` whatever follows, also nothing: the check comes before the source check (R92, R168, R169). -/
def Obligations.LcwControlByteMap : Prop :=
  (∀ (cfg : Config) (start : Bool) (c : Byte) (rest : List Byte), 63 ≤ rest.length →
    let byte (j : Nat) : Nat := (rest.getD j 0).toNat
    (start = true ∧ c.toNat = 0x00 → decodeLcw cfg start (c :: rest) = .ok .lcwMode) ∧
    (¬(start = true ∧ c.toNat = 0x00) →
      (c.toNat ≤ 0x7F → ∃ n dist, decodeLcw cfg start (c :: rest) = .ok (.lcwScopy n dist) ∧
        n.toNat = c.toNat / 16 ∧ dist.toNat = c.toNat % 16 * 256 + byte 0) ∧
      (c.toNat = 0x80 → decodeLcw cfg start (c :: rest) = .ok .lcwEnd) ∧
      (0x81 ≤ c.toNat ∧ c.toNat ≤ 0xBF →
        decodeLcw cfg start (c :: rest) = .ok (.lcwLit (rest.take (c.toNat - 0x80)))) ∧
      (0xC0 ≤ c.toNat ∧ c.toNat ≤ 0xFD → ∃ n off, decodeLcw cfg start (c :: rest) = .ok (.lcwRcopy n off) ∧
        n.toNat = c.toNat - 0xC0 ∧ off.toNat = byte 0 + 256 * byte 1) ∧
      (cfg.lcwLongForms = true →
        (c.toNat = 0xFE → ∃ cnt, decodeLcw cfg start (c :: rest) = .ok (.lcwFill cnt (rest.getD 2 0)) ∧
          cnt.toNat = byte 0 + 256 * byte 1) ∧
        (c.toNat = 0xFF → ∃ cnt off, decodeLcw cfg start (c :: rest) = .ok (.lcwLcopy cnt off) ∧
          cnt.toNat = byte 0 + 256 * byte 1 ∧ off.toNat = byte 2 + 256 * byte 3)))) ∧
  (∀ (cfg : Config) (start : Bool) (c : Byte) (rest : List Byte), cfg.lcwLongForms = false → 0xFE ≤ c.toNat →
    decodeLcw cfg start (c :: rest) = .error .lcwReserved ∧
    ∀ (s : State) (e : LcwEngine), s.engine = .lcw e → s.config = cfg → e.input.drop e.ls = c :: rest →
      step s = .next (raiseError .lcwReserved e.ls s))

/-- The block-pointer opcode map (R88) with the fields of each format (R82), as numbers of the little-endian word `w`
whose bytes are `lo`, `hi`; with enough bytes after the word no word is without an instruction. -/
def Obligations.VpOpcodeMap : Prop :=
  ∀ (cfg : Config) (lo hi m : Byte) (rest : List Byte), (∀ k, cfg.extraOf k ≤ (m :: rest).length) →
    let w : Nat := lo.toNat + 256 * hi.toNat
    ∃ i, decodeVp cfg (lo :: hi :: m :: rest) = .ok i ∧
      (w / 8192 = 0 → ∃ n, i = .vpSkip n ∧ n.toNat = w % 8192) ∧
      (w / 8192 = 1 → ∃ k b, i = .vpRepeat k b ∧ k.toNat = w / 256 % 32 ∧ b.toNat = w % 256) ∧
      (w / 8192 = 2 → ∃ k b, i = .vpList k b ((m :: rest).take (cfg.extraOf k)) ∧
        k.toNat = w / 256 % 32 ∧ b.toNat = w % 256) ∧
      (w / 8192 = 3 → ∃ b, i = .vpPut b ∧ b.toNat = w % 8192) ∧
      (w / 8192 = 4 → ∃ b, i = .vpPutk b ∧ b.toNat = w % 8192) ∧
      (w / 8192 = 5 → ∃ b, i = .vpRun b m ∧ b.toNat = w % 8192) ∧
      (w / 8192 = 6 → ∃ b, i = .vpRunk b m ∧ b.toNat = w % 8192) ∧
      (w / 8192 = 7 → ∃ x, i = .vpIllegal x ∧ x.toNat = w % 8192)

/-- A code of an audio unit (R256, R89): byte `j` holds codes `2j` and `2j + 1`, the low half first or, with
`ADPCM_LOW_NIBBLE_FIRST` false, the high half; every code is `AD.CODE s, m` with `s` its top bit. -/
def Obligations.AdpcmPacking : Prop :=
  (∀ (cfg : Config) (input : List Byte) (j : Nat) (byte : Byte), input[j]? = some byte →
    ∃ low high : BitVec 4, low.toNat = byte.toNat % 16 ∧ high.toNat = byte.toNat / 16 ∧
      (cfg.lowNibbleFirst = true →
        codeAt cfg input (2 * j) = some low ∧ codeAt cfg input (2 * j + 1) = some high) ∧
      (cfg.lowNibbleFirst = false →
        codeAt cfg input (2 * j) = some high ∧ codeAt cfg input (2 * j + 1) = some low)) ∧
  (∀ code : BitVec 4, ∃ s m, decodeAd code = .adCode s m ∧ s.toNat = code.toNat / 8 ∧ m.toNat = code.toNat % 8)

/-- The host operation numbers (R100), with the operands each takes. That an operation is read from its record whatever
the operands it does not use and whatever payload stands with one that has none is the model's choice (log 4). -/
def Obligations.HostOperationNumbers : Prop :=
  ∀ r : HostRequest,
    (r.op = 0 → decodeHost r = .ok .reset) ∧
    (r.op = 1 → decodeHost r = .ok (.config r.args.config)) ∧
    (r.op = 2 → decodeHost r = .ok (.cbUpdate r.args.dstOff r.args.outLen r.payload)) ∧
    (r.op = 3 → decodeHost r = .ok (.vptrExpand r.payload)) ∧
    (r.op = 4 → decodeHost r = .ok (.adpcmSetparam r.args.idx r.args.pred)) ∧
    (r.op = 5 → decodeHost r = .ok (.adpcmDecode r.payload)) ∧
    (r.op = 6 → decodeHost r = .ok (.readRaster r.args.x r.args.y)) ∧
    (r.op = 7 → decodeHost r = .ok (.readPcm r.args.k)) ∧
    (r.op = 8 → decodeHost r = .ok (.readReg r.args.n)) ∧
    (9 ≤ r.op.toNat → decodeHost r = .error .badHostOp)

/-- Decoding an encoded instruction gives it back, whatever bytes follow it in the stream (R81, R82, R85, R100). An
LCW command that begins with 0x00 is itself only away from payload offset 0, the mode prefix only there (R84). -/
def Obligations.DecodeOfEncode : Prop :=
  ∀ (cfg : Config) (start : Bool) (i : Instr) (rest : List Byte), i.wf cfg = true →
    match encode i with
    | .lcw bytes =>
      (i = .lcwMode → start = true) → (start = true → i ≠ .lcwMode → bytes.head? ≠ some 0) →
        decodeLcw cfg start (bytes ++ rest) = .ok i
    | .vp bytes => decodeVp cfg (bytes ++ rest) = .ok i
    | .ad code => decodeAd code = i
    | .host r => decodeHost r = .ok i

/-- Every decoded command is well formed and its encoding is exactly the bytes it occupies: no other bytes decode to it
(R81, R82, R85). -/
def Obligations.EncodeOfDecode : Prop :=
  (∀ (cfg : Config) (start : Bool) (bytes : List Byte) (i : Instr), decodeLcw cfg start bytes = .ok i →
    i.wf cfg = true ∧ i.length ≤ bytes.length ∧ encode i = .lcw (bytes.take i.length)) ∧
  (∀ (cfg : Config) (bytes : List Byte) (i : Instr), decodeVp cfg bytes = .ok i →
    i.wf cfg = true ∧ i.length ≤ bytes.length ∧ encode i = .vp (bytes.take i.length)) ∧
  (∀ code : BitVec 4, encode (decodeAd code) = .ad code) ∧
  (∀ (cfg : Config) (r : HostRequest) (i : Instr), decodeHost r = .ok i → i.wf cfg = true ∧ isCommand i = false)

/-! ### The step -/

/-- A step runs the instruction it fetches: of an idle core the oldest request, taken off the queue; of an operation in
progress the command at its cursor (R27, R161, R200, R257). -/
def Obligations.StepRunsFetched : Prop :=
  (∀ (s : State) (r : HostRequest) (rest : List HostRequest) (i : Instr), s.engine = .idle → s.pending = r :: rest →
    decodeHost r = .ok i → step s = exec i { s with pending := rest }) ∧
  (∀ (s : State) (e : LcwEngine) (i : Instr), s.engine = .lcw e →
    decodeLcw s.config (e.ls == 0) (e.input.drop e.ls) = .ok i → step s = exec i s) ∧
  (∀ (s : State) (e : BlockEngine) (i : Instr), s.engine = .block e → e.vs < e.input.length →
    decodeVp s.config (e.input.drop e.vs) = .ok i → step s = exec i s) ∧
  (∀ (s : State) (e : AdpcmEngine) (code : BitVec 4), s.engine = .adpcm e → e.ak < s.config.unitSamples.toNat →
    codeAt s.config e.input e.ak = some code → step s = exec (decodeAd code) s)

/-- An operation number above 8 raises `RangeError(BAD_HOSTOP)`, whatever its operands and payload (R91). That the
request comes from a queue and is taken off it, and the response field, are the model's choice of interface (log 3). -/
def Obligations.BadOperationNumber : Prop :=
  ∀ (s : State) (r : HostRequest) (rest : List HostRequest), s.engine = .idle → s.pending = r :: rest →
    9 ≤ r.op.toNat →
    step s = .next { s with pending := rest, status := 0x0330, info := 0, resp := some ⟨0x0330, 0⟩ }

/-- With no request an idle core waits, unchanged (R340; the model's step for waiting is log 16). -/
def Obligations.IdleCoreWaits : Prop :=
  ∀ s : State, s.engine = .idle → s.pending = [] → step s = .next s

/-- Bytes that are no command raise the stream's underrun error with the offset of the command: no LCW control byte
left; an LCW control byte, not the mode prefix, with fewer bytes after it than its format has (R81, R87: `LS` 1, `LL`
n, `LR` 2 and, with the long forms, `LF` 3, `LX` 4), for which bytes alone the decoder answers so; half a block-pointer
word; a run word without its byte `M` (R161, R163, R200, R201, R303, R304). -/
def Obligations.StreamUnderruns : Prop :=
  (∀ (s : State) (e : LcwEngine), s.engine = .lcw e → e.input.length ≤ e.ls →
    step s = .next (raiseError .lcwSrcUnderrun e.ls s)) ∧
  (∀ (cfg : Config) (start : Bool) (c : Byte) (rest : List Byte),
    let cut : Prop :=
      c.toNat ≤ 0x7F ∧ rest.length < 1 ∨
      0x81 ≤ c.toNat ∧ c.toNat ≤ 0xBF ∧ rest.length < c.toNat - 0x80 ∨
      0xC0 ≤ c.toNat ∧ c.toNat ≤ 0xFD ∧ rest.length < 2 ∨
      cfg.lcwLongForms = true ∧ c.toNat = 0xFE ∧ rest.length < 3 ∨
      cfg.lcwLongForms = true ∧ c.toNat = 0xFF ∧ rest.length < 4
    (decodeLcw cfg start (c :: rest) = .error .lcwUnderrun ↔ ¬(start = true ∧ c.toNat = 0x00) ∧ cut) ∧
    ∀ (s : State) (e : LcwEngine), s.engine = .lcw e → s.config = cfg → e.input.drop e.ls = c :: rest →
      ¬(e.ls = 0 ∧ c.toNat = 0x00) → cut → step s = .next (raiseError .lcwSrcUnderrun e.ls s)) ∧
  (∀ (s : State) (e : BlockEngine), s.engine = .block e → e.input.length = e.vs + 1 →
    step s = .next (raiseError .vptrSrcUnderrun e.vs s)) ∧
  (∀ (s : State) (e : BlockEngine) (b : BitVec 13), s.engine = .block e →
    (e.input.drop e.vs = vpBytes 5 b ∨ e.input.drop e.vs = vpBytes 6 b) →
    step s = .next (raiseError .vptrSrcUnderrun e.vs s))

/-- The block loop ends when `vs` reaches `in_len`, with no end command and no check of `vd`; the operation answers `OK`
and the raster is the one the commands wrote (R200, R127). -/
def Obligations.BlockStreamEnds : Prop :=
  ∀ (s : State) (e : BlockEngine), s.engine = .block e → e.vs = e.input.length →
    step s = .next { s with
      ras := e.work, engine := .idle, status := 0, info := 0, resp := some ⟨0, 0⟩ }

/-- The unit loop ends after `UNIT_SAMPLES` codes: `PCM`, `A_INDEX`, `A_PRED` take their values (R257). -/
def Obligations.UnitEnds : Prop :=
  ∀ (s : State) (e : AdpcmEngine), s.engine = .adpcm e → e.ak = s.config.unitSamples.toNat →
    step s = .next { s with
      pcm := e.work, aIndex := e.index, aPred := e.pred
      engine := .idle, status := 0, info := 0, resp := some ⟨0, 0⟩ }

/-! ### Errors -/

/-- What an error does (R307): `STATUS`, `INFO` and the response receive it, the operation is over, and every other
piece of state is as it was. -/
def Obligations.ErrorEntry : Prop :=
  ∀ (c : Cause) (n : Nat) (s : State),
    (raiseError c n s).status = c.status ∧ (raiseError c n s).info = BitVec.ofNat 32 n ∧
    (raiseError c n s).resp = some ⟨c.status, 0⟩ ∧ (raiseError c n s).engine = .idle ∧
    (raiseError c n s).configured = s.configured ∧ (raiseError c n s).aIndex = s.aIndex ∧
    (raiseError c n s).aPred = s.aPred ∧ (raiseError c n s).cfg = s.cfg ∧ (raiseError c n s).cb = s.cb ∧
    (raiseError c n s).ras = s.ras ∧ (raiseError c n s).pcm = s.pcm ∧ (raiseError c n s).config = s.config ∧
    (raiseError c n s).epoch = s.epoch ∧ (raiseError c n s).pending = s.pending

/-- The status words of R301, and that no two causes share one. -/
def Obligations.StatusWords : Prop :=
  Cause.notConfigured.status = 0x0110 ∧ Cause.alreadyConfigured.status = 0x0111 ∧
  Cause.badGeometry.status = 0x0112 ∧ Cause.badAudioConfig.status = 0x0113 ∧
  Cause.badHostOp.status = 0x0330 ∧ Cause.cbWindow.status = 0x0331 ∧ Cause.readRange.status = 0x0332 ∧
  Cause.cbOverLimit.status = 0x0440 ∧ Cause.lcwSrcUnderrun.status = 0x0441 ∧ Cause.lcwBadOffset.status = 0x0442 ∧
  Cause.lcwOverrun.status = 0x0443 ∧ Cause.lcwSizeMismatch.status = 0x0444 ∧ Cause.lcwReserved.status = 0x0445 ∧
  Cause.vptrOverLimit.status = 0x0448 ∧ Cause.vptrSrcUnderrun.status = 0x0449 ∧
  Cause.vptrBadOpcode.status = 0x044A ∧ Cause.vptrBadBlock.status = 0x044B ∧
  Cause.vptrDestOverrun.status = 0x044C ∧ Cause.adpcmLen.status = 0x0450 ∧ Cause.adpcmBadState.status = 0x0451 ∧
  (∀ c d : Cause, c.status = d.status → c = d) ∧ (∀ c : Cause, c.status ≠ statusOk)

/-- All or nothing (R121): a host operation that answers a status other than `OK` has changed no register but `STATUS`
and `INFO` and no memory; a failing read not even those (R134); any other operation leaves its status in `STATUS`. -/
def Obligations.AllOrNothing : Prop :=
  ∀ (s t : State) (i : Instr) (r : Response), s.Inv → s.engine = .idle → isCommand i = false →
    exec i s = .next t → t.resp = some r → r.status ≠ statusOk →
    t = { s with status := t.status, info := t.info, resp := some r } ∧
    (isRead i = true → t.status = s.status ∧ t.info = s.info) ∧
    (isRead i = false → t.status = r.status)

/-- Every host operation runs to its end and answers, on every operand and every payload (R19, R119, R353). -/
def Obligations.EveryOperationAnswers : Prop :=
  ∀ (s : State) (i : Instr), s.Inv → s.engine = .idle → isCommand i = false →
    ∃ t r, exec i s = .next t ∧ t.engine = .idle ∧ t.resp = some r ∧ t.pending = s.pending

/-! ### Reset and configuration -/

/-- The registers at power-on (R33, R340). -/
def Obligations.PowerOnRegisters : Prop :=
  State.reset.status = 0x0000 ∧ State.reset.info = 0 ∧ State.reset.configured = false ∧
  State.reset.aIndex = 0 ∧ State.reset.aPred = 0 ∧ State.reset.cfg = ⟨0, 0, 0, 0, 0, 0, 0, 0, 0, 0, 0⟩

/-- `RESET` (R120): every register takes its reset value, the memories are created anew; it never fails. That
memories with unspecified contents are empty lists in a new epoch is the model's choice of form (log 8); queue, response
and parameters are the model's own too (log 3, 5). -/
def Obligations.ResetEffect : Prop :=
  ∀ s : State, s.engine = .idle →
    exec .reset s = .next { s with
      status := 0, info := 0, configured := false, aIndex := 0, aPred := 0
      cfg := ⟨0, 0, 0, 0, 0, 0, 0, 0, 0, 0, 0⟩
      cb := [], ras := [], pcm := [], epoch := s.epoch + 1, resp := some ⟨0, 0⟩ }

/-- After `RESET` and after a `CONFIG` that is accepted, every place of the three memories reads as the free value of
the new lifetime (R33; the form of the free value is the model's, log 8). -/
def Obligations.FreshMemoriesAreFree : Prop :=
  ∀ (s t : State) (i : Instr), s.engine = .idle →
    (i = .reset ∨ (∃ p, i = .config p) ∧ t.status = statusOk) → exec i s = .next t →
    t.epoch = s.epoch + 1 ∧
    (∀ a, readCb t.epoch t.cb a = Config.freeCb t.epoch a) ∧
    (∀ key, readRas t.epoch t.ras key = Config.freeRas t.epoch key) ∧
    (∀ k, readPcmAt t.epoch t.pcm k = Config.freePcm t.epoch k)

/-- `CONFIG` (R122, R123): the checks in their order, and what it loads when all pass. That the unspecified contents of
the memories are empty lists in a new epoch is the model's choice of form (log 8). -/
def Obligations.ConfigOutcome : Prop :=
  ∀ (s : State) (p : ConfigOperands), s.engine = .idle →
    let geometry : Prop :=
      1 ≤ p.w.toNat ∧ 1 ≤ p.h.toNat ∧ 1 ≤ p.bw.toNat ∧ 1 ≤ p.bh.toNat ∧ 1 ≤ p.maxBlocks.toNat ∧
      p.bw.toNat ≤ p.w.toNat ∧ p.bh.toNat ≤ p.h.toNat ∧
      p.xoff.toNat + p.w.toNat / p.bw.toNat * p.bw.toNat ≤ p.rw.toNat ∧
      p.yoff.toNat + p.h.toNat / p.bh.toNat * p.bh.toNat ≤ p.rh.toNat
    let audio : Prop :=
      p.aCh.toNat = 1 ∧ p.aBits.toNat = 16 ∧ ∀ rate, s.config.fixedRate = some rate → p.aRate = rate
    (s.configured = true → exec (.config p) s = .next (raiseError .alreadyConfigured 0 s)) ∧
    (s.configured = false → ¬geometry → exec (.config p) s = .next (raiseError .badGeometry 0 s)) ∧
    (s.configured = false → geometry → ¬audio → exec (.config p) s = .next (raiseError .badAudioConfig 0 s)) ∧
    (s.configured = false → geometry → audio →
      exec (.config p) s = .next { s with
        cfg := ⟨p.w, p.h, p.bw, p.bh, p.maxBlocks, p.xoff, p.yoff, p.rw, p.rh, p.maxVptr, p.maxCbf⟩
        aIndex := 0, aPred := 0, configured := true, status := 0, info := 0
        cb := [], ras := [], pcm := [], epoch := s.epoch + 1, resp := some ⟨0, 0⟩ })

/-- Operations 2 to 7 on an unconfigured core raise `FormatError(NOT_CONFIGURED)`, info 0, before any other check (R124);
the two reads among them in the response only (R134). `RESET`, `CONFIG` and `READ_REG` are never answered so. -/
def Obligations.NotConfiguredComesFirst : Prop :=
  ∀ s : State, s.engine = .idle →
    (s.configured = false →
      (∀ d o p, exec (.cbUpdate d o p) s = .next (raiseError .notConfigured 0 s)) ∧
      (∀ p, exec (.vptrExpand p) s = .next (raiseError .notConfigured 0 s)) ∧
      (∀ i p, exec (.adpcmSetparam i p) s = .next (raiseError .notConfigured 0 s)) ∧
      (∀ p, exec (.adpcmDecode p) s = .next (raiseError .notConfigured 0 s)) ∧
      (∀ x y, exec (.readRaster x y) s = .next { s with resp := some ⟨0x0110, 0⟩ }) ∧
      (∀ k, exec (.readPcm k) s = .next { s with resp := some ⟨0x0110, 0⟩ })) ∧
    (∀ i : Instr, (i = .reset ∨ (∃ p, i = .config p) ∨ ∃ n, i = .readReg n) →
      ∃ t r, exec i s = .next t ∧ t.resp = some r ∧ r.status ≠ 0x0110)

/-- "Immutable after open" (R24): once configured, no instruction but `RESET` changes a configuration register or
`CONFIGURED`. -/
def Obligations.ConfigurationIsImmutable : Prop :=
  ∀ (s t : State) (i : Instr), exec i s = .next t → s.configured = true → i ≠ .reset →
    t.cfg = s.cfg ∧ t.configured = true

/-- Nothing writes the build parameters (R8, R21: configuration, not state), and no instruction takes or adds a request
(log 3, 5). -/
def Obligations.ParametersNeverChange : Prop :=
  ∀ (s t : State) (i : Instr), exec i s = .next t → t.config = s.config ∧ t.pending = s.pending

/-! ### Reads -/

/-- `READ_RASTER` (R131): an unconfigured core (R124) and a coordinate outside the raster fail; else the response is the
pixel, zero-extended; no other state changes. -/
def Obligations.ReadRasterOutcome : Prop :=
  ∀ (s : State) (x y : BitVec 16), s.engine = .idle →
    (s.configured = false → exec (.readRaster x y) s = .next { s with resp := some ⟨0x0110, 0⟩ }) ∧
    (s.configured = true → (s.cfg.rw.toNat ≤ x.toNat ∨ s.cfg.rh.toNat ≤ y.toNat) →
      exec (.readRaster x y) s = .next { s with resp := some ⟨0x0332, 0⟩ }) ∧
    (s.configured = true → x.toNat < s.cfg.rw.toNat → y.toNat < s.cfg.rh.toNat →
      exec (.readRaster x y) s =
        .next { s with resp := some ⟨0, (readRas s.epoch s.ras (rasKey x.toNat y.toNat)).toNat⟩ })

/-- `READ_PCM` (R132): an unconfigured core (R124) and a sample number outside the unit fail; else the response is the
signed sample; no other state changes. -/
def Obligations.ReadPcmOutcome : Prop :=
  ∀ (s : State) (k : BitVec 16), s.engine = .idle →
    (s.configured = false → exec (.readPcm k) s = .next { s with resp := some ⟨0x0110, 0⟩ }) ∧
    (s.configured = true → s.config.unitSamples.toNat ≤ k.toNat →
      exec (.readPcm k) s = .next { s with resp := some ⟨0x0332, 0⟩ }) ∧
    (s.configured = true → k.toNat < s.config.unitSamples.toNat →
      exec (.readPcm k) s = .next { s with resp := some ⟨0, (readPcmAt s.epoch s.pcm k.toNat).toInt⟩ })

/-- `READ_REG` (R133, R23 to R25): each register by its number, `A_PRED` sign-extended and all others zero-extended; any
other number fails; accepted when unconfigured; no state but the response changes. -/
def Obligations.ReadRegOutcome : Prop :=
  ∀ s : State, s.engine = .idle →
    let answers (n : BitVec 8) (v : Int) : Prop := exec (.readReg n) s = .next { s with resp := some ⟨0, v⟩ }
    answers 0 s.status.toNat ∧ answers 1 s.info.toNat ∧ answers 2 (if s.configured = true then 1 else 0) ∧
    answers 3 s.aIndex.toNat ∧ answers 4 s.aPred.toInt ∧
    answers 5 s.cfg.w.toNat ∧ answers 6 s.cfg.h.toNat ∧ answers 7 s.cfg.bw.toNat ∧ answers 8 s.cfg.bh.toNat ∧
    answers 9 s.cfg.maxBlocks.toNat ∧ answers 10 s.cfg.xoff.toNat ∧ answers 11 s.cfg.yoff.toNat ∧
    answers 12 s.cfg.rw.toNat ∧ answers 13 s.cfg.rh.toNat ∧ answers 14 s.cfg.maxVptr.toNat ∧
    answers 15 s.cfg.maxCbf.toNat ∧ answers 16 s.config.unitSamples.toNat ∧
    (∀ n : BitVec 8, 17 ≤ n.toNat → exec (.readReg n) s = .next { s with resp := some ⟨0x0332, 0⟩ })

/-! ### `CB_UPDATE` and the LCW commands -/

/-- The operand checks of `CB_UPDATE` and `VPTR_EXPAND` in their order: window, then over-limit; a payload of exactly the
limit is accepted and its stream is run from its first byte (R125, R126, R127, R306). -/
def Obligations.PayloadChecks : Prop :=
  ∀ (s : State) (dstOff outLen : BitVec 32) (payload : List Byte), s.engine = .idle → s.configured = true →
    (s.cfg.cbBytes < dstOff.toNat + outLen.toNat →
      exec (.cbUpdate dstOff outLen payload) s = .next (raiseError .cbWindow 0 s)) ∧
    (dstOff.toNat + outLen.toNat ≤ s.cfg.cbBytes → s.cfg.maxCbf.toNat < payload.length →
      exec (.cbUpdate dstOff outLen payload) s = .next (raiseError .cbOverLimit 0 s)) ∧
    (dstOff.toNat + outLen.toNat ≤ s.cfg.cbBytes → payload.length ≤ s.cfg.maxCbf.toNat →
      exec (.cbUpdate dstOff outLen payload) s =
        runEngine (payload.length + 1)
          { s with engine := .lcw ⟨payload, dstOff.toNat, outLen.toNat, 0, 0, false, s.cb⟩ }) ∧
    (s.cfg.maxVptr.toNat < payload.length →
      exec (.vptrExpand payload) s = .next (raiseError .vptrOverLimit 0 s)) ∧
    (payload.length ≤ s.cfg.maxVptr.toNat →
      exec (.vptrExpand payload) s =
        runEngine (payload.length + 1) { s with engine := .block ⟨payload, 0, 0, s.ras⟩ })

/-- A stream operation is its commands, stepped one by one from its start until the core is idle, and it ends within
`in_len + 1` rounds (`UNIT_SAMPLES + 1` for an audio unit) (R121, R161, R200, R257, R353). -/
def Obligations.OperationIsItsCommands : Prop :=
  ∀ s : State, s.Inv → s.engine = .idle → s.configured = true →
    (∀ (d o : BitVec 32) (payload : List Byte), d.toNat + o.toNat ≤ s.cfg.cbBytes →
      payload.length ≤ s.cfg.maxCbf.toNat →
      ∃ n t, n ≤ payload.length + 1 ∧ Sys2Proof.core.run n (beginLcw d o payload s) = .next t ∧ t.engine = .idle ∧
        exec (.cbUpdate d o payload) s = .next t) ∧
    (∀ payload : List Byte, payload.length ≤ s.cfg.maxVptr.toNat →
      ∃ n t, n ≤ payload.length + 1 ∧ Sys2Proof.core.run n (beginBlock payload s) = .next t ∧ t.engine = .idle ∧
        exec (.vptrExpand payload) s = .next t) ∧
    (∀ payload : List Byte, payload.length = (s.config.unitSamples.toNat + 1) / 2 →
      ∃ n t, n ≤ s.config.unitSamples.toNat + 1 ∧ Sys2Proof.core.run n (beginAdpcm payload s) = .next t ∧
        t.engine = .idle ∧ exec (.adpcmDecode payload) s = .next t)

/-- `CB_UPDATE` on any payload (R125, R121): either a `DecodeError` of the LCW stream with an offset in the payload and
nothing else changed, or `OK` with every byte outside the window, the raster, `PCM` and the ADPCM registers as before. -/
def Obligations.CbUpdateOutcome : Prop :=
  ∀ (s : State) (dstOff outLen : BitVec 32) (payload : List Byte), s.Inv → s.engine = .idle → s.configured = true →
    dstOff.toNat + outLen.toNat ≤ s.cfg.cbBytes → payload.length ≤ s.cfg.maxCbf.toNat →
    (∃ c n, isLcwCause c ∧ n ≤ payload.length ∧
      exec (.cbUpdate dstOff outLen payload) s = .next (raiseError c n s)) ∨
    (∃ m, exec (.cbUpdate dstOff outLen payload) s =
        .next { s with cb := m, status := 0, info := 0, resp := some ⟨0, 0⟩ } ∧
      ∀ a, a < dstOff.toNat ∨ dstOff.toNat + outLen.toNat ≤ a → readCb s.epoch m a = readCb s.epoch s.cb a)

/-- Round trip (R170): for every byte string the stream of its literals followed by the end marker is accepted, with
`out_len` its length, and leaves the window equal to it and every other byte of the codebook as before. -/
def Obligations.LiteralStreamRoundTrip : Prop :=
  ∀ (s : State) (dstOff outLen : BitVec 32) (bytes : List Byte), s.Inv → s.engine = .idle → s.configured = true →
    outLen.toNat = bytes.length → dstOff.toNat + bytes.length ≤ s.cfg.cbBytes →
    (literalStream bytes).length ≤ s.cfg.maxCbf.toNat →
    ∃ m, exec (.cbUpdate dstOff outLen (literalStream bytes)) s =
        .next { s with cb := m, status := 0, info := 0, resp := some ⟨0, 0⟩ } ∧
      BytesWritten s.epoch dstOff.toNat bytes.length (fun i => bytes.getD i 0) s.cb m

/-- `LCW.MODE` (R162): a payload that begins with 0x00 makes run-copy offsets relative and is consumed by one byte; any
other payload starts with absolute offsets at its first byte; an empty payload fails with info 0. -/
def Obligations.LcwModePrefix : Prop :=
  (∀ (s : State) (e : LcwEngine), s.engine = .lcw e →
    exec .lcwMode s = .next { s with engine := .lcw { e with lrel := true, ls := 1 } }) ∧
  (∀ (s : State) (d o : BitVec 32) (rest : List Byte),
    step (beginLcw d o (0x00 :: rest) s) =
      .next { s with engine := .lcw ⟨0x00 :: rest, d.toNat, o.toNat, 1, 0, true, s.cb⟩ }) ∧
  (∀ (s : State) (d o : BitVec 32) (c : Byte) (rest : List Byte) (i : Instr), c ≠ 0x00 →
    decodeLcw s.config true (c :: rest) = .ok i →
    i ≠ .lcwMode ∧ step (beginLcw d o (c :: rest) s) =
      exec i { s with engine := .lcw ⟨c :: rest, d.toNat, o.toNat, 0, 0, false, s.cb⟩ }) ∧
  (∀ (s : State) (d o : BitVec 32), step (beginLcw d o [] s) = .next (raiseError .lcwSrcUnderrun 0 s))

/-- `LCW.LIT` (R164): its bytes must be in `IN`, then there must be room in the window; then they become the next bytes
of the window. -/
def Obligations.LcwLitRule : Prop :=
  ∀ (s : State) (e : LcwEngine) (bytes : List Byte), s.engine = .lcw e →
    (e.input.length < e.ls + (1 + bytes.length) →
      exec (.lcwLit bytes) s = .next (raiseError .lcwSrcUnderrun e.ls s)) ∧
    (e.ls + (1 + bytes.length) ≤ e.input.length → e.outLen < e.lc + bytes.length →
      exec (.lcwLit bytes) s = .next (raiseError .lcwOverrun e.ls s)) ∧
    (e.ls + (1 + bytes.length) ≤ e.input.length → e.lc + bytes.length ≤ e.outLen →
      e.dstOff + e.outLen ≤ s.cfg.cbBytes →
      ∃ m, exec (.lcwLit bytes) s = .next { s with engine := .lcw { e with
            ls := e.ls + (1 + bytes.length), lc := e.lc + bytes.length, work := m } } ∧
        BytesWritten s.epoch (e.dstOff + e.lc) bytes.length (fun i => bytes.getD i 0) e.work m)

/-- `LCW.FILL` (R169): reserved without the long forms; its bytes must be in `IN`, then there must be room; then `cnt`
bytes, all `val`, also at `lc = 0`, also with `cnt = 0`. -/
def Obligations.LcwFillRule : Prop :=
  ∀ (s : State) (e : LcwEngine) (cnt : BitVec 16) (val : Byte), s.engine = .lcw e →
    (s.config.lcwLongForms = false → exec (.lcwFill cnt val) s = .next (raiseError .lcwReserved e.ls s)) ∧
    (s.config.lcwLongForms = true → e.input.length < e.ls + 4 →
      exec (.lcwFill cnt val) s = .next (raiseError .lcwSrcUnderrun e.ls s)) ∧
    (s.config.lcwLongForms = true → e.ls + 4 ≤ e.input.length → e.outLen < e.lc + cnt.toNat →
      exec (.lcwFill cnt val) s = .next (raiseError .lcwOverrun e.ls s)) ∧
    (s.config.lcwLongForms = true → e.ls + 4 ≤ e.input.length → e.lc + cnt.toNat ≤ e.outLen →
      e.dstOff + e.outLen ≤ s.cfg.cbBytes →
      ∃ m, exec (.lcwFill cnt val) s = .next { s with engine := .lcw { e with
            ls := e.ls + 4, lc := e.lc + cnt.toNat, work := m } } ∧
        BytesWritten s.epoch (e.dstOff + e.lc) cnt.toNat (fun _ => val) e.work m)

/-- `LCW.SCOPY` (R166, R163, R62): source bytes, then the distance (0, or beyond the produced output, is bad), then room;
then `n + 3` bytes from `dist` back, in both modes. Byte by byte: an overlapping copy replicates the last `dist` bytes. -/
def Obligations.LcwScopyRule : Prop :=
  ∀ (s : State) (e : LcwEngine) (n : BitVec 3) (dist : BitVec 12), s.engine = .lcw e →
    let bad : Prop := dist.toNat = 0 ∨ e.lc < dist.toNat
    (e.input.length < e.ls + 2 → exec (.lcwScopy n dist) s = .next (raiseError .lcwSrcUnderrun e.ls s)) ∧
    (e.ls + 2 ≤ e.input.length → bad → exec (.lcwScopy n dist) s = .next (raiseError .lcwBadOffset e.ls s)) ∧
    (e.ls + 2 ≤ e.input.length → ¬bad → e.outLen < e.lc + (n.toNat + 3) →
      exec (.lcwScopy n dist) s = .next (raiseError .lcwOverrun e.ls s)) ∧
    (e.ls + 2 ≤ e.input.length → ¬bad → e.lc + (n.toNat + 3) ≤ e.outLen → e.dstOff + e.outLen ≤ s.cfg.cbBytes →
      ∃ m, exec (.lcwScopy n dist) s = .next { s with engine := .lcw { e with
            ls := e.ls + 2, lc := e.lc + (n.toNat + 3), work := m } } ∧
        BytesWritten s.epoch (e.dstOff + e.lc) (n.toNat + 3)
          (fun i => readCb s.epoch e.work (e.dstOff + (e.lc - dist.toNat) + i % dist.toNat)) e.work m)

/-- `LCW.RCOPY` (R167, R163, R62): source bytes, then the offset (a distance back in relative mode, a window index in
absolute mode, which must point into the produced output), then room; then `n + 3` bytes, byte by byte. -/
def Obligations.LcwRcopyRule : Prop :=
  ∀ (s : State) (e : LcwEngine) (n : BitVec 6) (off : BitVec 16), s.engine = .lcw e →
    let bad : Prop := e.lrel = true ∧ (off.toNat = 0 ∨ e.lc < off.toNat) ∨ e.lrel = false ∧ e.lc ≤ off.toNat
    let src : Nat := if e.lrel = true then e.lc - off.toNat else off.toNat
    (e.input.length < e.ls + 3 → exec (.lcwRcopy n off) s = .next (raiseError .lcwSrcUnderrun e.ls s)) ∧
    (e.ls + 3 ≤ e.input.length → bad → exec (.lcwRcopy n off) s = .next (raiseError .lcwBadOffset e.ls s)) ∧
    (e.ls + 3 ≤ e.input.length → ¬bad → e.outLen < e.lc + (n.toNat + 3) →
      exec (.lcwRcopy n off) s = .next (raiseError .lcwOverrun e.ls s)) ∧
    (e.ls + 3 ≤ e.input.length → ¬bad → e.lc + (n.toNat + 3) ≤ e.outLen → e.dstOff + e.outLen ≤ s.cfg.cbBytes →
      ∃ m, exec (.lcwRcopy n off) s = .next { s with engine := .lcw { e with
            ls := e.ls + 3, lc := e.lc + (n.toNat + 3), work := m } } ∧
        BytesWritten s.epoch (e.dstOff + e.lc) (n.toNat + 3)
          (fun i => readCb s.epoch e.work (e.dstOff + src + i % (e.lc - src))) e.work m)

/-- `LCW.LCOPY` (R168, R163, R62): reserved without the long forms; else as the run copy with a 16-bit count; a count of
zero needs its five bytes, produces nothing and leaves its offset unchecked. -/
def Obligations.LcwLcopyRule : Prop :=
  ∀ (s : State) (e : LcwEngine) (cnt off : BitVec 16), s.engine = .lcw e →
    let bad : Prop := e.lrel = true ∧ (off.toNat = 0 ∨ e.lc < off.toNat) ∨ e.lrel = false ∧ e.lc ≤ off.toNat
    let src : Nat := if e.lrel = true then e.lc - off.toNat else off.toNat
    (s.config.lcwLongForms = false → exec (.lcwLcopy cnt off) s = .next (raiseError .lcwReserved e.ls s)) ∧
    (s.config.lcwLongForms = true →
      (e.input.length < e.ls + 5 → exec (.lcwLcopy cnt off) s = .next (raiseError .lcwSrcUnderrun e.ls s)) ∧
      (e.ls + 5 ≤ e.input.length → cnt = 0 → e.lc ≤ e.outLen → e.dstOff + e.outLen ≤ s.cfg.cbBytes →
        exec (.lcwLcopy cnt off) s = .next { s with engine := .lcw { e with ls := e.ls + 5 } }) ∧
      (e.ls + 5 ≤ e.input.length → cnt ≠ 0 → bad →
        exec (.lcwLcopy cnt off) s = .next (raiseError .lcwBadOffset e.ls s)) ∧
      (e.ls + 5 ≤ e.input.length → cnt ≠ 0 → ¬bad → e.outLen < e.lc + cnt.toNat →
        exec (.lcwLcopy cnt off) s = .next (raiseError .lcwOverrun e.ls s)) ∧
      (e.ls + 5 ≤ e.input.length → cnt ≠ 0 → ¬bad → e.lc + cnt.toNat ≤ e.outLen →
        e.dstOff + e.outLen ≤ s.cfg.cbBytes →
        ∃ m, exec (.lcwLcopy cnt off) s = .next { s with engine := .lcw { e with
              ls := e.ls + 5, lc := e.lc + cnt.toNat, work := m } } ∧
          BytesWritten s.epoch (e.dstOff + e.lc) cnt.toNat
            (fun i => readCb s.epoch e.work (e.dstOff + src + i % (e.lc - src))) e.work m))

/-- `LCW.END` (R165): with the window exactly full the operation ends `OK` and the codebook is the one the commands
wrote; else `LCW_SIZE_MISMATCH`. -/
def Obligations.LcwEndOutcome : Prop :=
  ∀ (s : State) (e : LcwEngine), s.engine = .lcw e →
    (e.lc = e.outLen → exec .lcwEnd s = .next { s with
      cb := e.work, engine := .idle, status := 0, info := 0, resp := some ⟨0, 0⟩ }) ∧
    (e.lc ≠ e.outLen → exec .lcwEnd s = .next (raiseError .lcwSizeMismatch e.ls s))

/-! ### `VPTR_EXPAND` and the block-pointer commands -/

/-- The grid (R59): for a geometry that `CONFIG` accepts, no block leaves the raster, and two destination blocks share no
pixel. -/
def Obligations.GridLiesInRaster : Prop :=
  ∀ c : CfgRegs, c.geometryOk = true → ∀ d, d < c.nblk →
    c.xoff.toNat + d % (c.w.toNat / c.bw.toNat) * c.bw.toNat + c.bw.toNat ≤ c.rw.toNat ∧
    c.yoff.toNat + d / (c.w.toNat / c.bw.toNat) * c.bh.toNat + c.bh.toNat ≤ c.rh.toNat ∧
    ∀ d' key, d' < c.nblk → c.inBlock d key → c.inBlock d' key → d = d'

/-- `VPTR_EXPAND` on any payload (R127, R121): either a `DecodeError` of the block-pointer stream with an offset in the
payload and nothing else changed, or `OK` with every pixel outside the grid, the codebook, `PCM` and the ADPCM registers
as before. -/
def Obligations.VptrExpandOutcome : Prop :=
  ∀ (s : State) (payload : List Byte), s.Inv → s.engine = .idle → s.configured = true →
    payload.length ≤ s.cfg.maxVptr.toNat →
    (∃ c n, isBlockCause c ∧ n ≤ payload.length ∧ exec (.vptrExpand payload) s = .next (raiseError c n s)) ∨
    (∃ m, exec (.vptrExpand payload) s =
        .next { s with ras := m, status := 0, info := 0, resp := some ⟨0, 0⟩ } ∧
      ∀ key, (∀ d, d < s.cfg.nblk → ¬ s.cfg.inBlock d key) → readRas s.epoch m key = readRas s.epoch s.ras key)

/-- Skip identity (R206, R214 frame 1): "a packet whose block-pointer stream is a single skip spanning the whole frame
leaves the raster byte-identical to its pre-call state". -/
def Obligations.SkipWholeFrame : Prop :=
  ∀ (s : State) (n : BitVec 13), s.engine = .idle → s.configured = true → n.toNat = s.cfg.nblk →
    2 ≤ s.cfg.maxVptr.toNat →
    exec (.vptrExpand (encodeBytes (.vpSkip n))) s = .next { s with status := 0, info := 0, resp := some ⟨0, 0⟩ }

/-- A frame of one opaque block per destination (R214 frame 0): putting a block of one solid colour everywhere makes the
grid uniform and leaves every pixel outside it as before. -/
def Obligations.SolidFrame : Prop :=
  ∀ (s : State) (b : BitVec 13) (p : Pixel), s.Inv → s.engine = .idle → s.configured = true →
    b.toNat < s.cfg.maxBlocks.toNat → 2 * s.cfg.nblk ≤ s.cfg.maxVptr.toNat →
    (∀ x y, x < s.cfg.bw.toNat → y < s.cfg.bh.toNat → cbPixel s b.toNat x y = p) →
    ∃ m, exec (.vptrExpand (List.replicate s.cfg.nblk (encodeBytes (.vpPut b))).flatten) s =
        .next { s with ras := m, status := 0, info := 0, resp := some ⟨0, 0⟩ } ∧
      (∀ d key, d < s.cfg.nblk → s.cfg.inBlock d key → readRas s.epoch m key = p) ∧
      (∀ key, (∀ d, d < s.cfg.nblk → ¬ s.cfg.inBlock d key) → readRas s.epoch m key = readRas s.epoch s.ras key)

/-- `VP.SKIP` (R206): the cursor moves, nothing is written; beyond `NBLK` it fails, exactly `NBLK` is legal (R205). -/
def Obligations.VpSkipOutcome : Prop :=
  ∀ (s : State) (e : BlockEngine) (n : BitVec 13), s.engine = .block e →
    (e.vd + n.toNat ≤ s.cfg.nblk → exec (.vpSkip n) s = .next { s with engine := .block { e with
      vd := e.vd + n.toNat, vs := e.vs + 2 } }) ∧
    (s.cfg.nblk < e.vd + n.toNat → exec (.vpSkip n) s = .next (raiseError .vptrDestOverrun e.vs s))

/-- `VP.PUT` and `VP.PUTK` (R209, R210, R202, R203): block index, then destination; then one block, opaque or keyed, at
the cursor. -/
def Obligations.VpPutRule : Prop :=
  ∀ (s : State) (e : BlockEngine) (b : BitVec 13), s.engine = .block e → s.cfg.geometryOk = true →
    (s.cfg.maxBlocks.toNat ≤ b.toNat →
      exec (.vpPut b) s = .next (raiseError .vptrBadBlock e.vs s) ∧
      exec (.vpPutk b) s = .next (raiseError .vptrBadBlock e.vs s)) ∧
    (b.toNat < s.cfg.maxBlocks.toNat → s.cfg.nblk ≤ e.vd →
      exec (.vpPut b) s = .next (raiseError .vptrDestOverrun e.vs s) ∧
      exec (.vpPutk b) s = .next (raiseError .vptrDestOverrun e.vs s)) ∧
    (b.toNat < s.cfg.maxBlocks.toNat → e.vd < s.cfg.nblk →
      (∃ m, exec (.vpPut b) s = .next { s with engine := .block { e with
            vd := e.vd + 1, vs := e.vs + 2, work := m } } ∧
        BlocksWritten s false [b.toNat] e.vd e.work m) ∧
      (∃ m, exec (.vpPutk b) s = .next { s with engine := .block { e with
            vd := e.vd + 1, vs := e.vs + 2, work := m } } ∧
        BlocksWritten s true [b.toNat] e.vd e.work m))

/-- `VP.REPEAT` (R207): block `b` to `2 * (k + 1)` consecutive destination blocks, opaque; an index that is no block or a
run past the grid fails. -/
def Obligations.VpRepeatRule : Prop :=
  ∀ (s : State) (e : BlockEngine) (k : BitVec 5) (b : BitVec 8), s.engine = .block e → s.cfg.geometryOk = true →
    (s.cfg.maxBlocks.toNat ≤ b.toNat → exec (.vpRepeat k b) s = .next (raiseError .vptrBadBlock e.vs s)) ∧
    (b.toNat < s.cfg.maxBlocks.toNat → s.cfg.nblk < e.vd + 2 * (k.toNat + 1) →
      exec (.vpRepeat k b) s = .next (raiseError .vptrDestOverrun e.vs s)) ∧
    (b.toNat < s.cfg.maxBlocks.toNat → e.vd + 2 * (k.toNat + 1) ≤ s.cfg.nblk →
      ∃ m, exec (.vpRepeat k b) s = .next { s with engine := .block { e with
            vd := e.vd + 2 * (k.toNat + 1), vs := e.vs + 2, work := m } } ∧
        BlocksWritten s false (List.replicate (2 * (k.toNat + 1)) b.toNat) e.vd e.work m)

/-- `VP.LIST` (R208) where every block passes: the addressed block, then one block per index byte, `OP2_EXTRA(K)` of
them, opaque. -/
def Obligations.VpListEffect : Prop :=
  ∀ (s : State) (e : BlockEngine) (k : BitVec 5) (b : BitVec 8) (idx : List Byte), s.engine = .block e →
    s.cfg.geometryOk = true → idx.length = s.config.extraOf k →
    (∀ v ∈ b :: idx, v.toNat < s.cfg.maxBlocks.toNat) → e.vd + (1 + idx.length) ≤ s.cfg.nblk →
    ∃ m, exec (.vpList k b idx) s = .next { s with engine := .block { e with
          vd := e.vd + (1 + idx.length), vs := e.vs + (2 + idx.length), work := m } } ∧
      BlocksWritten s false ((b :: idx).map BitVec.toNat) e.vd e.work m

/-- `VP.RUN` and `VP.RUNK` (R211, R212): the byte `M` must be in `IN`; then `m` times block `b`, opaque or keyed. With
`M = 0` nothing is checked about `B` (R204); otherwise an index that is no block or a run past the grid fails. -/
def Obligations.VpRunRule : Prop :=
  ∀ (s : State) (e : BlockEngine) (b : BitVec 13) (m : Byte), s.engine = .block e → s.cfg.geometryOk = true →
    (e.input.length < e.vs + 3 →
      exec (.vpRun b m) s = .next (raiseError .vptrSrcUnderrun e.vs s) ∧
      exec (.vpRunk b m) s = .next (raiseError .vptrSrcUnderrun e.vs s)) ∧
    (e.vs + 3 ≤ e.input.length → m ≠ 0 → s.cfg.maxBlocks.toNat ≤ b.toNat →
      exec (.vpRun b m) s = .next (raiseError .vptrBadBlock e.vs s) ∧
      exec (.vpRunk b m) s = .next (raiseError .vptrBadBlock e.vs s)) ∧
    (e.vs + 3 ≤ e.input.length → m ≠ 0 → b.toNat < s.cfg.maxBlocks.toNat → s.cfg.nblk < e.vd + m.toNat →
      exec (.vpRun b m) s = .next (raiseError .vptrDestOverrun e.vs s) ∧
      exec (.vpRunk b m) s = .next (raiseError .vptrDestOverrun e.vs s)) ∧
    (e.vs + 3 ≤ e.input.length → m = 0 ∨ b.toNat < s.cfg.maxBlocks.toNat ∧ e.vd + m.toNat ≤ s.cfg.nblk →
      (∃ w, exec (.vpRun b m) s = .next { s with engine := .block { e with
            vd := e.vd + m.toNat, vs := e.vs + 3, work := w } } ∧
        BlocksWritten s false (List.replicate m.toNat b.toNat) e.vd e.work w) ∧
      (∃ w, exec (.vpRunk b m) s = .next { s with engine := .block { e with
            vd := e.vd + m.toNat, vs := e.vs + 3, work := w } } ∧
        BlocksWritten s true (List.replicate m.toNat b.toNat) e.vd e.work w))

/-- The checks of `VP.LIST` come block by block (R208), in a whole command and in one that `in_len` cuts short alike: the
first block whose index or destination is bad decides, and a missing index byte is reported when the blocks before it
pass, and only then. -/
def Obligations.VpListErrors : Prop :=
  ∀ (s : State) (e : BlockEngine) (k : BitVec 5) (b : BitVec 8) (idx : List Byte) (j : Nat)
    (hj : j < (b :: idx).length), s.engine = .block e → s.cfg.geometryOk = true →
    (∀ i (hi : i < j), ((b :: idx)[i]).toNat < s.cfg.maxBlocks.toNat) → e.vd + j ≤ s.cfg.nblk →
    let cut : Prop := idx.length < s.config.extraOf k ∧ e.input.drop e.vs = vpBytes 2 (k ++ b) ++ idx
    let badBlock : Prop := s.cfg.maxBlocks.toNat ≤ ((b :: idx)[j]).toNat
    (idx.length = s.config.extraOf k →
      (badBlock → exec (.vpList k b idx) s = .next (raiseError .vptrBadBlock e.vs s)) ∧
      (¬badBlock → e.vd + j = s.cfg.nblk → exec (.vpList k b idx) s = .next (raiseError .vptrDestOverrun e.vs s))) ∧
    (cut →
      (badBlock → step s = .next (raiseError .vptrBadBlock e.vs s)) ∧
      (¬badBlock → e.vd + j = s.cfg.nblk → step s = .next (raiseError .vptrDestOverrun e.vs s)) ∧
      (¬badBlock → e.vd + j < s.cfg.nblk → j = idx.length → step s = .next (raiseError .vptrSrcUnderrun e.vs s)))

/-- Opcode 7 (R213): `DecodeError(VPTR_BAD_OPCODE)` with the offset of the word, and nothing else changed. -/
def Obligations.VpIllegalOpcode : Prop :=
  ∀ (s : State) (e : BlockEngine) (x : BitVec 13), s.engine = .block e →
    exec (.vpIllegal x) s = .next { s with
      status := 0x044A, info := BitVec.ofNat 32 e.vs, engine := .idle, resp := some ⟨0x044A, 0⟩ }

/-- A stream command that does not end the operation changes only the operation in progress: registers and memories
wait for its end (R121, R14). -/
def Obligations.CommandsWorkOnACopy : Prop :=
  ∀ (s t : State) (i : Instr), isCommand i = true → exec i s = .next t → t.engine ≠ .idle →
    t = { s with engine := t.engine }

/-! ### The audio operations and the ADPCM code -/

/-- `ADPCM_SETPARAM` (R129): an unconfigured core fails (R124); a pair in range is stored; any other is
`DecodeError(ADPCM_BAD_STATE)`. -/
def Obligations.SetparamOutcome : Prop :=
  ∀ (s : State) (idx : BitVec 16) (pred : BitVec 32), s.engine = .idle →
    (s.configured = false → exec (.adpcmSetparam idx pred) s = .next (raiseError .notConfigured 0 s)) ∧
    (s.configured = true → idx.toNat ≤ 88 ∧ -32768 ≤ pred.toInt ∧ pred.toInt ≤ 32767 →
      ∃ a p, exec (.adpcmSetparam idx pred) s = .next { s with
          aIndex := a, aPred := p, status := 0, info := 0, resp := some ⟨0, 0⟩ } ∧
        a.toNat = idx.toNat ∧ p.toInt = pred.toInt) ∧
    (s.configured = true → 88 < idx.toNat ∨ pred.toInt < -32768 ∨ 32767 < pred.toInt →
      exec (.adpcmSetparam idx pred) s = .next (raiseError .adpcmBadState 0 s))

/-- `AD.CODE` (R255): the delta of the index before the update, added or subtracted, clamped to 16 bits; the index moved
and clamped to 0..88; the sample is the new predictor. The cursors and the buffer are those of the unit loop (R257). -/
def Obligations.AdCodeEffect : Prop :=
  ∀ (s : State) (e : AdpcmEngine) (sgn : BitVec 1) (m : BitVec 3), s.engine = .adpcm e →
    e.ak < s.config.unitSamples.toNat →
    ∃ index pred w, exec (.adCode sgn m) s = .next { s with engine := .adpcm { e with
          asOff := (e.ak + 1) / 2, ak := e.ak + 1, index := index, pred := pred, work := w } } ∧
      (let d : Int := adpcmDelta s.config e.index.toNat m.toNat
       let t : Int := if sgn = 1 then e.pred.toInt - d else e.pred.toInt + d
       pred.toInt = if t < -32768 then -32768 else if 32767 < t then 32767 else t) ∧
      (let j : Int := e.index.toNat + adpcmIdx s.config m.toNat
       (index.toNat : Int) = if j < 0 then 0 else if 88 < j then 88 else j) ∧
      readPcmAt s.epoch w e.ak = pred ∧
      ∀ k, k ≠ e.ak → readPcmAt s.epoch w k = readPcmAt s.epoch e.work k

/-- `ADPCM_DECODE` (R130, R257): an unconfigured core (R124) and a payload of another length fail; a unit of
`UNIT_BYTES` bytes writes every sample and both registers, from the registers' pair, code by code in order. -/
def Obligations.AdpcmDecodeOutcome : Prop :=
  ∀ (s : State) (payload : List Byte), s.engine = .idle →
    (s.configured = false → exec (.adpcmDecode payload) s = .next (raiseError .notConfigured 0 s)) ∧
    (s.configured = true → payload.length ≠ (s.config.unitSamples.toNat + 1) / 2 →
      exec (.adpcmDecode payload) s = .next (raiseError .adpcmLen 0 s)) ∧
    (s.configured = true → payload.length = (s.config.unitSamples.toNat + 1) / 2 →
      let pair (k : Nat) := unitPair s.config payload (s.aIndex, s.aPred) k
      ∃ w, exec (.adpcmDecode payload) s = .next { s with
          pcm := w, aIndex := (pair s.config.unitSamples.toNat).1, aPred := (pair s.config.unitSamples.toNat).2
          status := 0, info := 0, resp := some ⟨0, 0⟩ } ∧
        ∀ k, k < s.config.unitSamples.toNat → readPcmAt s.epoch w k = (pair (k + 1)).2)

/-- The spare nibble (R258, R93): with an odd `UNIT_SAMPLES` the half of the last byte that holds no code does not
matter, whichever half that is. -/
def Obligations.SpareNibbleIsIgnored : Prop :=
  ∀ (s : State) (front : List Byte) (b b' : Byte), s.engine = .idle → s.configured = true →
    s.config.unitSamples.toNat = 2 * front.length + 1 →
    (if s.config.lowNibbleFirst = true then b.extractLsb' 0 4 = b'.extractLsb' 0 4
      else b.extractLsb' 4 4 = b'.extractLsb' 4 4) →
    ∃ t, exec (.adpcmDecode (front ++ [b])) s = .next t ∧ exec (.adpcmDecode (front ++ [b'])) s = .next t ∧
      t.status = statusOk

/-- Restart (R259): a unit decoded straight after another, and the same unit decoded after `RESET`, the same `CONFIG`
and an `ADPCM_SETPARAM` with the pair read back after the first unit, give the same samples and the same registers, for
every choice of the tables. -/
def Obligations.AudioRestart : Prop :=
  ∀ (s x : State) (u1 u2 : List Byte) (p : ConfigOperands), s.Inv → s.engine = .idle → s.configured = true →
    x.engine = .idle → x.config = s.config → CfgRegs.ofOperands p = s.cfg →
    audioBad s.config p = false → u1.length = (s.config.unitSamples.toNat + 1) / 2 →
    u2.length = (s.config.unitSamples.toNat + 1) / 2 →
    ∃ a b r c d e, exec (.adpcmDecode u1) s = .next a ∧ exec (.adpcmDecode u2) a = .next b ∧
      exec .reset x = .next r ∧ exec (.config p) r = .next c ∧
      exec (.adpcmSetparam (BitVec.ofNat 16 a.aIndex.toNat) (BitVec.ofInt 32 a.aPred.toInt)) c = .next d ∧
      exec (.adpcmDecode u2) d = .next e ∧
      b.status = statusOk ∧ e.status = statusOk ∧ e.aIndex = b.aIndex ∧ e.aPred = b.aPred ∧
      ∀ k, k < s.config.unitSamples.toNat → readPcmAt e.epoch e.pcm k = readPcmAt b.epoch b.pcm k

/-- Audio and video are independent (R344): an audio operation neither reads nor writes codebook and raster, a video
operation neither reads nor writes `PCM` and the ADPCM pair. -/
def Obligations.AudioVideoIndependent : Prop :=
  (∀ (s t : State) (i : Instr) (cb : Memory 8) (ras : Memory 16), s.engine = .idle →
    ((∃ idx pred, i = .adpcmSetparam idx pred) ∨ (∃ u, i = .adpcmDecode u) ∨ (∃ k, i = .readPcm k)) →
    exec i s = .next t →
    t.cb = s.cb ∧ t.ras = s.ras ∧ t.cfg = s.cfg ∧
    exec i { s with cb := cb, ras := ras } = .next { t with cb := cb, ras := ras }) ∧
  (∀ (s t : State) (i : Instr) (pcm : Memory 16) (a : BitVec 7) (p : BitVec 16), s.engine = .idle →
    ((∃ d o u, i = .cbUpdate d o u) ∨ (∃ u, i = .vptrExpand u) ∨ (∃ x y, i = .readRaster x y)) →
    exec i s = .next t →
    t.pcm = s.pcm ∧ t.aIndex = s.aIndex ∧ t.aPred = s.aPred ∧
    exec i { s with pcm := pcm, aIndex := a, aPred := p } = .next { t with pcm := pcm, aIndex := a, aPred := p })

/-! ### The whole machine -/

/-- The invariant holds after reset. -/
def Obligations.ResetMeetsInvariant : Prop := State.reset.Inv

/-- Every step keeps the invariant: canonical memories inside their spaces, the step index 0..88 (R260), `0 <= vd <=
NBLK` (R205), a legal geometry when configured (R123), a working copy that differs from the codebook only in produced
bytes (R163). -/
def Obligations.StepKeepsInvariant : Prop :=
  ∀ s t : State, s.Inv → step s = .next t → t.Inv

/-- Every rule is total (R19): from a state that meets the invariant a step always answers a next state; it never stops
with a fault or a refusal. -/
def Obligations.StepNeverStops : Prop :=
  ∀ s : State, s.Inv → s.Goes
end

