-- ==== Sys2Proof/Laws/Memory.lean ====
section
/-!
SUPPORT. Laws/Memory.lean: what reading, writing and copying do to a memory, and that every operation keeps the
canonical form.
-/

namespace Sys2Proof.Machine

variable {w : Nat}

/-! ### One write -/

theorem Memory.get?_set (m : Memory w) (a b : Nat) (v : BitVec w) :
    Memory.get? (Memory.set m a v) b = if b = a then some v else Memory.get? m b := by
  induction m with
  | nil => simp [Memory.set, Memory.get?]
  | cons p m ih =>
    obtain ⟨k, u⟩ := p
    unfold Memory.set
    split
    · simp [Memory.get?]
    · split
      · next h => subst h; by_cases hb : b = a <;> simp [Memory.get?, hb]
      · next h =>
        simp only [Memory.get?, ih]
        by_cases hb : b = k
        · subst hb; simp [Ne.symm h]
        · simp [hb]

@[simp] theorem Memory.get?_set_self (m : Memory w) (a : Nat) (v : BitVec w) :
    Memory.get? (Memory.set m a v) a = some v := by simp [Memory.get?_set]

theorem Memory.get?_set_ne (m : Memory w) {a b : Nat} (v : BitVec w) (h : b ≠ a) :
    Memory.get? (Memory.set m a v) b = Memory.get? m b := by simp [Memory.get?_set, h]

theorem Memory.mem_set {m : Memory w} {a : Nat} {v : BitVec w} {p : Nat × BitVec w}
    (h : p ∈ Memory.set m a v) : p = (a, v) ∨ p ∈ m := by
  induction m with
  | nil => simpa [Memory.set] using h
  | cons q m ih =>
    obtain ⟨k, u⟩ := q
    unfold Memory.set at h
    split at h
    · simpa using h
    · split at h
      · rcases List.mem_cons.1 h with h | h
        · exact .inl h
        · exact .inr (List.mem_cons_of_mem _ h)
      · rcases List.mem_cons.1 h with h | h
        · exact .inr (by simp [h])
        · exact (ih h).imp id (List.mem_cons_of_mem _)

/-- A write keeps the addresses strictly rising. -/
theorem Memory.wf_set {m : Memory w} (h : Memory.wf m) (a : Nat) (v : BitVec w) : Memory.wf (Memory.set m a v) := by
  induction m with
  | nil => simp [Memory.set, Memory.wf]
  | cons p m ih =>
    obtain ⟨k, u⟩ := p
    simp only [Memory.wf, List.map_cons, List.pairwise_cons] at h
    obtain ⟨hk, hm⟩ := h
    unfold Memory.set
    split
    · next hlt =>
      simp only [Memory.wf, List.map_cons, List.pairwise_cons, List.mem_cons]
      refine ⟨fun b hb => ?_, hk, hm⟩
      rcases hb with rfl | hb
      · exact hlt
      · exact lt_trans hlt (hk b hb)
    · split
      · next heq =>
        subst heq
        simp only [Memory.wf, List.map_cons, List.pairwise_cons]
        exact ⟨hk, hm⟩
      · next hge hne =>
        simp only [Memory.wf, List.map_cons, List.pairwise_cons]
        refine ⟨fun b hb => ?_, ih hm⟩
        obtain ⟨q, hq, rfl⟩ := List.mem_map.1 hb
        rcases Memory.mem_set hq with rfl | hq
        · simp only; omega
        · exact hk _ (List.mem_map_of_mem hq)

theorem Memory.get?_eq_none {m : Memory w} {a : Nat} (h : ∀ p ∈ m, p.1 ≠ a) : Memory.get? m a = none := by
  induction m with
  | nil => rfl
  | cons p m ih =>
    have h0 := h p (by simp)
    simp only [Memory.get?, if_neg (Ne.symm h0)]
    exact ih fun q hq => h q (List.mem_cons_of_mem _ hq)

theorem Memory.mem_of_get? {m : Memory w} {a : Nat} {v : BitVec w} (h : Memory.get? m a = some v) : (a, v) ∈ m := by
  induction m with
  | nil => simp [Memory.get?] at h
  | cons p m ih =>
    obtain ⟨k, u⟩ := p
    simp only [Memory.get?] at h
    split at h
    · next hk => cases h; simp [hk]
    · exact List.mem_cons_of_mem _ (ih h)

/-- Equal memories are equal data: two canonical memories that hold the same at every address are the same list. -/
theorem Memory.ext {m n : Memory w} (hm : Memory.wf m) (hn : Memory.wf n)
    (h : ∀ a, Memory.get? m a = Memory.get? n a) : m = n := by
  induction m generalizing n with
  | nil =>
    cases n with
    | nil => rfl
    | cons q n => have := h q.1; simp [Memory.get?] at this
  | cons p m ih =>
    cases n with
    | nil => have := h p.1; simp [Memory.get?] at this
    | cons q n =>
      simp only [Memory.wf, List.map_cons, List.pairwise_cons] at hm hn
      have hm_none : ∀ a, a ≤ p.1 → Memory.get? m a = none := fun a ha =>
        Memory.get?_eq_none fun r hr => by have := hm.1 r.1 (List.mem_map_of_mem hr); omega
      have hn_none : ∀ a, a ≤ q.1 → Memory.get? n a = none := fun a ha =>
        Memory.get?_eq_none fun r hr => by have := hn.1 r.1 (List.mem_map_of_mem hr); omega
      have hkey : p.1 = q.1 := by
        rcases lt_trichotomy p.1 q.1 with hlt | heq | hgt
        · have := h p.1; simp [Memory.get?, Nat.ne_of_lt hlt, hn_none p.1 (le_of_lt hlt)] at this
        · exact heq
        · have := h q.1; simp [Memory.get?, Nat.ne_of_lt hgt, hm_none q.1 (le_of_lt hgt)] at this
      have hval : p.2 = q.2 := by
        have := h p.1; simpa [Memory.get?, hkey] using this
      have hpq : p = q := Prod.ext hkey hval
      subst hpq
      rw [ih hm.2 hn.2 fun a => ?_]
      have := h a
      simp only [Memory.get?] at this
      split at this
      · next ha => rw [hm_none a (le_of_eq ha), hn_none a (le_of_eq ha)]
      · exact this

/-! ### Reads of the three memories -/

theorem readCb_congr {ep : Nat} {m n : Memory 8} {a : Nat} (h : Memory.get? m a = Memory.get? n a) :
    readCb ep m a = readCb ep n a := by simp [readCb, h]

theorem readCb_set (ep : Nat) (m : Memory 8) (a b : Nat) (v : Byte) :
    readCb ep (Memory.set m a v) b = if b = a then v else readCb ep m b := by
  unfold readCb; rw [Memory.get?_set]; split <;> rfl

theorem readRas_set (ep : Nat) (m : Memory 16) (a b : Nat) (v : Pixel) :
    readRas ep (Memory.set m a v) b = if b = a then v else readRas ep m b := by
  unfold readRas; rw [Memory.get?_set]; split <;> rfl

theorem readPcmAt_set (ep : Nat) (m : Memory 16) (a b : Nat) (v : Pixel) :
    readPcmAt ep (Memory.set m a v) b = if b = a then v else readPcmAt ep m b := by
  unfold readPcmAt; rw [Memory.get?_set]; split <;> rfl

/-! ### Writing a list of bytes -/

theorem get?_writeBytes (bs : List Byte) (m : Memory 8) (a b : Nat) :
    Memory.get? (writeBytes m a bs) b =
      if a ≤ b ∧ b < a + bs.length then bs[b - a]? else Memory.get? m b := by
  induction bs generalizing m a with
  | nil => simp only [writeBytes, List.length_nil]; rw [if_neg (by omega)]
  | cons c bs ih =>
    simp only [writeBytes, ih, List.length_cons, Memory.get?_set]
    rcases Nat.lt_trichotomy b a with h | h | h
    · rw [if_neg (by omega), if_neg (by omega), if_neg (by omega)]
    · subst h; rw [if_neg (by omega), if_pos rfl, if_pos (by omega)]; simp
    · by_cases h2 : b < a + 1 + bs.length
      · rw [if_pos (by omega), if_pos (by omega)]
        obtain ⟨d, rfl⟩ : ∃ d, b = a + 1 + d := ⟨b - (a + 1), by omega⟩
        rw [show a + 1 + d - (a + 1) = d by omega, show a + 1 + d - a = d + 1 by omega]
        simp
      · rw [if_neg (by omega), if_neg (by omega), if_neg (by omega)]

theorem readCb_writeBytes_outside (ep : Nat) (bs : List Byte) (m : Memory 8) {a b : Nat}
    (h : b < a ∨ a + bs.length ≤ b) : readCb ep (writeBytes m a bs) b = readCb ep m b := by
  apply readCb_congr; rw [get?_writeBytes, if_neg (by omega)]

theorem readCb_writeBytes_inside (ep : Nat) (bs : List Byte) (m : Memory 8) (a i : Nat) (h : i < bs.length) :
    readCb ep (writeBytes m a bs) (a + i) = bs[i] := by
  unfold readCb; rw [get?_writeBytes, if_pos (by omega), Nat.add_sub_cancel_left]; simp [h]

theorem wf_writeBytes (bs : List Byte) {m : Memory 8} (h : Memory.wf m) (a : Nat) :
    Memory.wf (writeBytes m a bs) := by
  induction bs generalizing m a with
  | nil => exact h
  | cons c bs ih => exact ih (Memory.wf_set h a c) (a + 1)

theorem mem_writeBytes (bs : List Byte) {m : Memory 8} {a : Nat} {p : Nat × Byte}
    (h : p ∈ writeBytes m a bs) : (a ≤ p.1 ∧ p.1 < a + bs.length) ∨ p ∈ m := by
  induction bs generalizing m a with
  | nil => exact .inr h
  | cons c bs ih =>
    rw [List.length_cons]
    rcases ih h with h | h
    · left; omega
    · rcases Memory.mem_set h with rfl | h
      · left; simp only; omega
      · exact .inr h

/-! ### The byte-serial copy -/

theorem get?_copyBytes_outside (ep n : Nat) (m : Memory 8) (src dst : Nat) {b : Nat}
    (h : b < dst ∨ dst + n ≤ b) : Memory.get? (copyBytes ep n m src dst) b = Memory.get? m b := by
  induction n generalizing m src dst with
  | zero => rfl
  | succ n ih =>
    simp only [copyBytes]
    rw [ih _ _ _ (by omega), Memory.get?_set_ne _ _ (by omega)]

theorem isSome_copyBytes_inside (ep n : Nat) (m : Memory 8) (src dst : Nat) {i : Nat} (h : i < n) :
    (Memory.get? (copyBytes ep n m src dst) (dst + i)).isSome = true := by
  induction n generalizing m src dst i with
  | zero => omega
  | succ n ih =>
    simp only [copyBytes]
    cases i with
    | zero => rw [get?_copyBytes_outside _ _ _ _ _ (by omega)]; simp
    | succ i => rw [show dst + (i + 1) = dst + 1 + i by omega]; exact ih _ _ _ (by omega)

/-- A serial copy from a lower address repeats the bytes between source and destination (R62, R348). -/
theorem readCb_copyBytes_inside (ep n : Nat) (m : Memory 8) (src dst i : Nat) (hlt : src < dst) (hi : i < n) :
    readCb ep (copyBytes ep n m src dst) (dst + i) = readCb ep m (src + i % (dst - src)) := by
  induction n generalizing m src dst i with
  | zero => omega
  | succ n ih =>
    simp only [copyBytes]
    cases i with
    | zero =>
      rw [readCb_congr (get?_copyBytes_outside _ _ _ _ _ (by omega)), readCb_set]
      simp
    | succ i =>
      rw [show dst + (i + 1) = dst + 1 + i by omega, ih _ _ _ _ (by omega) (by omega), readCb_set,
        show dst + 1 - (src + 1) = dst - src by omega]
      have hp : i % (dst - src) < dst - src := Nat.mod_lt _ (by omega)
      by_cases hq : i % (dst - src) + 1 = dst - src
      · have h0 : (i + 1) % (dst - src) = 0 := by rw [← Nat.mod_add_mod, hq, Nat.mod_self]
        rw [if_pos (by omega), h0]; rfl
      · have h1 : (i + 1) % (dst - src) = i % (dst - src) + 1 := by
          rw [← Nat.mod_add_mod, Nat.mod_eq_of_lt (by omega)]
        rw [if_neg (by omega), h1]; congr 1; omega

theorem wf_copyBytes (ep n : Nat) {m : Memory 8} (h : Memory.wf m) (src dst : Nat) :
    Memory.wf (copyBytes ep n m src dst) := by
  induction n generalizing m src dst with
  | zero => exact h
  | succ n ih => exact ih (Memory.wf_set h _ _) _ _

theorem mem_copyBytes (ep n : Nat) {m : Memory 8} {src dst : Nat} {p : Nat × Byte}
    (h : p ∈ copyBytes ep n m src dst) : (dst ≤ p.1 ∧ p.1 < dst + n) ∨ p ∈ m := by
  induction n generalizing m src dst with
  | zero => exact .inr h
  | succ n ih =>
    rcases ih h with h | h
    · left; omega
    · rcases Memory.mem_set h with rfl | h
      · left; simp only; omega
      · exact .inr h

end Sys2Proof.Machine
end

