-- ==== Sys2Proof/Laws/State.lean ====
section
/-!
SUPPORT. Laws/State.lean: one lemma per field per update of the state, true by unfolding, so that no later proof unfolds a
record update.
-/

namespace Sys2Proof.Machine

/-! ### `raiseError` -/

@[simp] theorem raiseError_status (c : Cause) (n : Nat) (s : State) : (raiseError c n s).status = c.status := rfl
@[simp] theorem raiseError_info (c : Cause) (n : Nat) (s : State) : (raiseError c n s).info = BitVec.ofNat 32 n := rfl
@[simp] theorem raiseError_configured (c : Cause) (n : Nat) (s : State) : (raiseError c n s).configured = s.configured := rfl
@[simp] theorem raiseError_aIndex (c : Cause) (n : Nat) (s : State) : (raiseError c n s).aIndex = s.aIndex := rfl
@[simp] theorem raiseError_aPred (c : Cause) (n : Nat) (s : State) : (raiseError c n s).aPred = s.aPred := rfl
@[simp] theorem raiseError_cfg (c : Cause) (n : Nat) (s : State) : (raiseError c n s).cfg = s.cfg := rfl
@[simp] theorem raiseError_cb (c : Cause) (n : Nat) (s : State) : (raiseError c n s).cb = s.cb := rfl
@[simp] theorem raiseError_ras (c : Cause) (n : Nat) (s : State) : (raiseError c n s).ras = s.ras := rfl
@[simp] theorem raiseError_pcm (c : Cause) (n : Nat) (s : State) : (raiseError c n s).pcm = s.pcm := rfl
@[simp] theorem raiseError_engine (c : Cause) (n : Nat) (s : State) : (raiseError c n s).engine = .idle := rfl
@[simp] theorem raiseError_config (c : Cause) (n : Nat) (s : State) : (raiseError c n s).config = s.config := rfl
@[simp] theorem raiseError_epoch (c : Cause) (n : Nat) (s : State) : (raiseError c n s).epoch = s.epoch := rfl
@[simp] theorem raiseError_pending (c : Cause) (n : Nat) (s : State) : (raiseError c n s).pending = s.pending := rfl
@[simp] theorem raiseError_resp (c : Cause) (n : Nat) (s : State) : (raiseError c n s).resp = some ⟨c.status, 0⟩ := rfl

/-! ### `failRead` -/

@[simp] theorem failRead_status (c : Cause) (s : State) : (failRead c s).status = s.status := rfl
@[simp] theorem failRead_info (c : Cause) (s : State) : (failRead c s).info = s.info := rfl
@[simp] theorem failRead_configured (c : Cause) (s : State) : (failRead c s).configured = s.configured := rfl
@[simp] theorem failRead_aIndex (c : Cause) (s : State) : (failRead c s).aIndex = s.aIndex := rfl
@[simp] theorem failRead_aPred (c : Cause) (s : State) : (failRead c s).aPred = s.aPred := rfl
@[simp] theorem failRead_cfg (c : Cause) (s : State) : (failRead c s).cfg = s.cfg := rfl
@[simp] theorem failRead_cb (c : Cause) (s : State) : (failRead c s).cb = s.cb := rfl
@[simp] theorem failRead_ras (c : Cause) (s : State) : (failRead c s).ras = s.ras := rfl
@[simp] theorem failRead_pcm (c : Cause) (s : State) : (failRead c s).pcm = s.pcm := rfl
@[simp] theorem failRead_engine (c : Cause) (s : State) : (failRead c s).engine = s.engine := rfl
@[simp] theorem failRead_config (c : Cause) (s : State) : (failRead c s).config = s.config := rfl
@[simp] theorem failRead_epoch (c : Cause) (s : State) : (failRead c s).epoch = s.epoch := rfl
@[simp] theorem failRead_pending (c : Cause) (s : State) : (failRead c s).pending = s.pending := rfl
@[simp] theorem failRead_resp (c : Cause) (s : State) : (failRead c s).resp = some ⟨c.status, 0⟩ := rfl

/-! ### `answerRead` -/

@[simp] theorem answerRead_status (v : Int) (s : State) : (answerRead v s).status = s.status := rfl
@[simp] theorem answerRead_info (v : Int) (s : State) : (answerRead v s).info = s.info := rfl
@[simp] theorem answerRead_configured (v : Int) (s : State) : (answerRead v s).configured = s.configured := rfl
@[simp] theorem answerRead_aIndex (v : Int) (s : State) : (answerRead v s).aIndex = s.aIndex := rfl
@[simp] theorem answerRead_aPred (v : Int) (s : State) : (answerRead v s).aPred = s.aPred := rfl
@[simp] theorem answerRead_cfg (v : Int) (s : State) : (answerRead v s).cfg = s.cfg := rfl
@[simp] theorem answerRead_cb (v : Int) (s : State) : (answerRead v s).cb = s.cb := rfl
@[simp] theorem answerRead_ras (v : Int) (s : State) : (answerRead v s).ras = s.ras := rfl
@[simp] theorem answerRead_pcm (v : Int) (s : State) : (answerRead v s).pcm = s.pcm := rfl
@[simp] theorem answerRead_engine (v : Int) (s : State) : (answerRead v s).engine = s.engine := rfl
@[simp] theorem answerRead_config (v : Int) (s : State) : (answerRead v s).config = s.config := rfl
@[simp] theorem answerRead_epoch (v : Int) (s : State) : (answerRead v s).epoch = s.epoch := rfl
@[simp] theorem answerRead_pending (v : Int) (s : State) : (answerRead v s).pending = s.pending := rfl
@[simp] theorem answerRead_resp (v : Int) (s : State) : (answerRead v s).resp = some ⟨statusOk, v⟩ := rfl

/-! ### `finishOk` -/

@[simp] theorem finishOk_status (s : State) : (finishOk s).status = statusOk := rfl
@[simp] theorem finishOk_info (s : State) : (finishOk s).info = 0 := rfl
@[simp] theorem finishOk_configured (s : State) : (finishOk s).configured = s.configured := rfl
@[simp] theorem finishOk_aIndex (s : State) : (finishOk s).aIndex = s.aIndex := rfl
@[simp] theorem finishOk_aPred (s : State) : (finishOk s).aPred = s.aPred := rfl
@[simp] theorem finishOk_cfg (s : State) : (finishOk s).cfg = s.cfg := rfl
@[simp] theorem finishOk_cb (s : State) : (finishOk s).cb = s.cb := rfl
@[simp] theorem finishOk_ras (s : State) : (finishOk s).ras = s.ras := rfl
@[simp] theorem finishOk_pcm (s : State) : (finishOk s).pcm = s.pcm := rfl
@[simp] theorem finishOk_engine (s : State) : (finishOk s).engine = .idle := rfl
@[simp] theorem finishOk_config (s : State) : (finishOk s).config = s.config := rfl
@[simp] theorem finishOk_epoch (s : State) : (finishOk s).epoch = s.epoch := rfl
@[simp] theorem finishOk_pending (s : State) : (finishOk s).pending = s.pending := rfl
@[simp] theorem finishOk_resp (s : State) : (finishOk s).resp = some ⟨statusOk, 0⟩ := rfl

/-! ### `freshMemories` -/

@[simp] theorem freshMemories_status (s : State) : (freshMemories s).status = s.status := rfl
@[simp] theorem freshMemories_info (s : State) : (freshMemories s).info = s.info := rfl
@[simp] theorem freshMemories_configured (s : State) : (freshMemories s).configured = s.configured := rfl
@[simp] theorem freshMemories_aIndex (s : State) : (freshMemories s).aIndex = s.aIndex := rfl
@[simp] theorem freshMemories_aPred (s : State) : (freshMemories s).aPred = s.aPred := rfl
@[simp] theorem freshMemories_cfg (s : State) : (freshMemories s).cfg = s.cfg := rfl
@[simp] theorem freshMemories_cb (s : State) : (freshMemories s).cb = [] := rfl
@[simp] theorem freshMemories_ras (s : State) : (freshMemories s).ras = [] := rfl
@[simp] theorem freshMemories_pcm (s : State) : (freshMemories s).pcm = [] := rfl
@[simp] theorem freshMemories_engine (s : State) : (freshMemories s).engine = s.engine := rfl
@[simp] theorem freshMemories_config (s : State) : (freshMemories s).config = s.config := rfl
@[simp] theorem freshMemories_epoch (s : State) : (freshMemories s).epoch = s.epoch + 1 := rfl
@[simp] theorem freshMemories_pending (s : State) : (freshMemories s).pending = s.pending := rfl
@[simp] theorem freshMemories_resp (s : State) : (freshMemories s).resp = s.resp := rfl

/-! ### `commitLcw` -/

@[simp] theorem commitLcw_status (e : LcwEngine) (s : State) : (commitLcw e s).status = statusOk := rfl
@[simp] theorem commitLcw_info (e : LcwEngine) (s : State) : (commitLcw e s).info = 0 := rfl
@[simp] theorem commitLcw_configured (e : LcwEngine) (s : State) : (commitLcw e s).configured = s.configured := rfl
@[simp] theorem commitLcw_aIndex (e : LcwEngine) (s : State) : (commitLcw e s).aIndex = s.aIndex := rfl
@[simp] theorem commitLcw_aPred (e : LcwEngine) (s : State) : (commitLcw e s).aPred = s.aPred := rfl
@[simp] theorem commitLcw_cfg (e : LcwEngine) (s : State) : (commitLcw e s).cfg = s.cfg := rfl
@[simp] theorem commitLcw_cb (e : LcwEngine) (s : State) : (commitLcw e s).cb = e.work := rfl
@[simp] theorem commitLcw_ras (e : LcwEngine) (s : State) : (commitLcw e s).ras = s.ras := rfl
@[simp] theorem commitLcw_pcm (e : LcwEngine) (s : State) : (commitLcw e s).pcm = s.pcm := rfl
@[simp] theorem commitLcw_engine (e : LcwEngine) (s : State) : (commitLcw e s).engine = .idle := rfl
@[simp] theorem commitLcw_config (e : LcwEngine) (s : State) : (commitLcw e s).config = s.config := rfl
@[simp] theorem commitLcw_epoch (e : LcwEngine) (s : State) : (commitLcw e s).epoch = s.epoch := rfl
@[simp] theorem commitLcw_pending (e : LcwEngine) (s : State) : (commitLcw e s).pending = s.pending := rfl
@[simp] theorem commitLcw_resp (e : LcwEngine) (s : State) : (commitLcw e s).resp = some ⟨statusOk, 0⟩ := rfl

/-! ### `commitBlock` -/

@[simp] theorem commitBlock_status (e : BlockEngine) (s : State) : (commitBlock e s).status = statusOk := rfl
@[simp] theorem commitBlock_info (e : BlockEngine) (s : State) : (commitBlock e s).info = 0 := rfl
@[simp] theorem commitBlock_configured (e : BlockEngine) (s : State) : (commitBlock e s).configured = s.configured := rfl
@[simp] theorem commitBlock_aIndex (e : BlockEngine) (s : State) : (commitBlock e s).aIndex = s.aIndex := rfl
@[simp] theorem commitBlock_aPred (e : BlockEngine) (s : State) : (commitBlock e s).aPred = s.aPred := rfl
@[simp] theorem commitBlock_cfg (e : BlockEngine) (s : State) : (commitBlock e s).cfg = s.cfg := rfl
@[simp] theorem commitBlock_cb (e : BlockEngine) (s : State) : (commitBlock e s).cb = s.cb := rfl
@[simp] theorem commitBlock_ras (e : BlockEngine) (s : State) : (commitBlock e s).ras = e.work := rfl
@[simp] theorem commitBlock_pcm (e : BlockEngine) (s : State) : (commitBlock e s).pcm = s.pcm := rfl
@[simp] theorem commitBlock_engine (e : BlockEngine) (s : State) : (commitBlock e s).engine = .idle := rfl
@[simp] theorem commitBlock_config (e : BlockEngine) (s : State) : (commitBlock e s).config = s.config := rfl
@[simp] theorem commitBlock_epoch (e : BlockEngine) (s : State) : (commitBlock e s).epoch = s.epoch := rfl
@[simp] theorem commitBlock_pending (e : BlockEngine) (s : State) : (commitBlock e s).pending = s.pending := rfl
@[simp] theorem commitBlock_resp (e : BlockEngine) (s : State) : (commitBlock e s).resp = some ⟨statusOk, 0⟩ := rfl

/-! ### `commitAdpcm` -/

@[simp] theorem commitAdpcm_status (e : AdpcmEngine) (s : State) : (commitAdpcm e s).status = statusOk := rfl
@[simp] theorem commitAdpcm_info (e : AdpcmEngine) (s : State) : (commitAdpcm e s).info = 0 := rfl
@[simp] theorem commitAdpcm_configured (e : AdpcmEngine) (s : State) : (commitAdpcm e s).configured = s.configured := rfl
@[simp] theorem commitAdpcm_aIndex (e : AdpcmEngine) (s : State) : (commitAdpcm e s).aIndex = e.index := rfl
@[simp] theorem commitAdpcm_aPred (e : AdpcmEngine) (s : State) : (commitAdpcm e s).aPred = e.pred := rfl
@[simp] theorem commitAdpcm_cfg (e : AdpcmEngine) (s : State) : (commitAdpcm e s).cfg = s.cfg := rfl
@[simp] theorem commitAdpcm_cb (e : AdpcmEngine) (s : State) : (commitAdpcm e s).cb = s.cb := rfl
@[simp] theorem commitAdpcm_ras (e : AdpcmEngine) (s : State) : (commitAdpcm e s).ras = s.ras := rfl
@[simp] theorem commitAdpcm_pcm (e : AdpcmEngine) (s : State) : (commitAdpcm e s).pcm = e.work := rfl
@[simp] theorem commitAdpcm_engine (e : AdpcmEngine) (s : State) : (commitAdpcm e s).engine = .idle := rfl
@[simp] theorem commitAdpcm_config (e : AdpcmEngine) (s : State) : (commitAdpcm e s).config = s.config := rfl
@[simp] theorem commitAdpcm_epoch (e : AdpcmEngine) (s : State) : (commitAdpcm e s).epoch = s.epoch := rfl
@[simp] theorem commitAdpcm_pending (e : AdpcmEngine) (s : State) : (commitAdpcm e s).pending = s.pending := rfl
@[simp] theorem commitAdpcm_resp (e : AdpcmEngine) (s : State) : (commitAdpcm e s).resp = some ⟨statusOk, 0⟩ := rfl

/-! ### `beginLcw` -/

@[simp] theorem beginLcw_status (d o : BitVec 32) (p : List Byte) (s : State) : (beginLcw d o p s).status = s.status := rfl
@[simp] theorem beginLcw_info (d o : BitVec 32) (p : List Byte) (s : State) : (beginLcw d o p s).info = s.info := rfl
@[simp] theorem beginLcw_configured (d o : BitVec 32) (p : List Byte) (s : State) : (beginLcw d o p s).configured = s.configured := rfl
@[simp] theorem beginLcw_aIndex (d o : BitVec 32) (p : List Byte) (s : State) : (beginLcw d o p s).aIndex = s.aIndex := rfl
@[simp] theorem beginLcw_aPred (d o : BitVec 32) (p : List Byte) (s : State) : (beginLcw d o p s).aPred = s.aPred := rfl
@[simp] theorem beginLcw_cfg (d o : BitVec 32) (p : List Byte) (s : State) : (beginLcw d o p s).cfg = s.cfg := rfl
@[simp] theorem beginLcw_cb (d o : BitVec 32) (p : List Byte) (s : State) : (beginLcw d o p s).cb = s.cb := rfl
@[simp] theorem beginLcw_ras (d o : BitVec 32) (p : List Byte) (s : State) : (beginLcw d o p s).ras = s.ras := rfl
@[simp] theorem beginLcw_pcm (d o : BitVec 32) (p : List Byte) (s : State) : (beginLcw d o p s).pcm = s.pcm := rfl
@[simp] theorem beginLcw_engine (d o : BitVec 32) (p : List Byte) (s : State) : (beginLcw d o p s).engine = .lcw ⟨p, d.toNat, o.toNat, 0, 0, false, s.cb⟩ := rfl
@[simp] theorem beginLcw_config (d o : BitVec 32) (p : List Byte) (s : State) : (beginLcw d o p s).config = s.config := rfl
@[simp] theorem beginLcw_epoch (d o : BitVec 32) (p : List Byte) (s : State) : (beginLcw d o p s).epoch = s.epoch := rfl
@[simp] theorem beginLcw_pending (d o : BitVec 32) (p : List Byte) (s : State) : (beginLcw d o p s).pending = s.pending := rfl
@[simp] theorem beginLcw_resp (d o : BitVec 32) (p : List Byte) (s : State) : (beginLcw d o p s).resp = s.resp := rfl

/-! ### `beginBlock` -/

@[simp] theorem beginBlock_status (p : List Byte) (s : State) : (beginBlock p s).status = s.status := rfl
@[simp] theorem beginBlock_info (p : List Byte) (s : State) : (beginBlock p s).info = s.info := rfl
@[simp] theorem beginBlock_configured (p : List Byte) (s : State) : (beginBlock p s).configured = s.configured := rfl
@[simp] theorem beginBlock_aIndex (p : List Byte) (s : State) : (beginBlock p s).aIndex = s.aIndex := rfl
@[simp] theorem beginBlock_aPred (p : List Byte) (s : State) : (beginBlock p s).aPred = s.aPred := rfl
@[simp] theorem beginBlock_cfg (p : List Byte) (s : State) : (beginBlock p s).cfg = s.cfg := rfl
@[simp] theorem beginBlock_cb (p : List Byte) (s : State) : (beginBlock p s).cb = s.cb := rfl
@[simp] theorem beginBlock_ras (p : List Byte) (s : State) : (beginBlock p s).ras = s.ras := rfl
@[simp] theorem beginBlock_pcm (p : List Byte) (s : State) : (beginBlock p s).pcm = s.pcm := rfl
@[simp] theorem beginBlock_engine (p : List Byte) (s : State) : (beginBlock p s).engine = .block ⟨p, 0, 0, s.ras⟩ := rfl
@[simp] theorem beginBlock_config (p : List Byte) (s : State) : (beginBlock p s).config = s.config := rfl
@[simp] theorem beginBlock_epoch (p : List Byte) (s : State) : (beginBlock p s).epoch = s.epoch := rfl
@[simp] theorem beginBlock_pending (p : List Byte) (s : State) : (beginBlock p s).pending = s.pending := rfl
@[simp] theorem beginBlock_resp (p : List Byte) (s : State) : (beginBlock p s).resp = s.resp := rfl

/-! ### `beginAdpcm` -/

@[simp] theorem beginAdpcm_status (p : List Byte) (s : State) : (beginAdpcm p s).status = s.status := rfl
@[simp] theorem beginAdpcm_info (p : List Byte) (s : State) : (beginAdpcm p s).info = s.info := rfl
@[simp] theorem beginAdpcm_configured (p : List Byte) (s : State) : (beginAdpcm p s).configured = s.configured := rfl
@[simp] theorem beginAdpcm_aIndex (p : List Byte) (s : State) : (beginAdpcm p s).aIndex = s.aIndex := rfl
@[simp] theorem beginAdpcm_aPred (p : List Byte) (s : State) : (beginAdpcm p s).aPred = s.aPred := rfl
@[simp] theorem beginAdpcm_cfg (p : List Byte) (s : State) : (beginAdpcm p s).cfg = s.cfg := rfl
@[simp] theorem beginAdpcm_cb (p : List Byte) (s : State) : (beginAdpcm p s).cb = s.cb := rfl
@[simp] theorem beginAdpcm_ras (p : List Byte) (s : State) : (beginAdpcm p s).ras = s.ras := rfl
@[simp] theorem beginAdpcm_pcm (p : List Byte) (s : State) : (beginAdpcm p s).pcm = s.pcm := rfl
@[simp] theorem beginAdpcm_engine (p : List Byte) (s : State) : (beginAdpcm p s).engine = .adpcm ⟨p, 0, 0, s.aIndex, s.aPred, s.pcm⟩ := rfl
@[simp] theorem beginAdpcm_config (p : List Byte) (s : State) : (beginAdpcm p s).config = s.config := rfl
@[simp] theorem beginAdpcm_epoch (p : List Byte) (s : State) : (beginAdpcm p s).epoch = s.epoch := rfl
@[simp] theorem beginAdpcm_pending (p : List Byte) (s : State) : (beginAdpcm p s).pending = s.pending := rfl
@[simp] theorem beginAdpcm_resp (p : List Byte) (s : State) : (beginAdpcm p s).resp = s.resp := rfl

end Sys2Proof.Machine
end

