-- ==== Sys2Proof/Laws/Adpcm.lean ====
section
/-!
SUPPORT. Laws/Adpcm.lean: the arithmetic of a code never leaves its ranges (43_adpcm.md R255, R260), and what a round of
the unit loop can do.
-/

namespace Sys2Proof.Machine

theorem withAdpcm_eq {s : State} {e : AdpcmEngine} (h : s.engine = .adpcm e) (f : AdpcmEngine → Result) :
    withAdpcm s f = f e := by simp [withAdpcm, h]

theorem clamp_bounds {v lo hi : Int} (h : lo ≤ hi) : lo ≤ clamp v lo hi ∧ clamp v lo hi ≤ hi := by
  unfold clamp; split
  · omega
  · split <;> omega

theorem clamp_of_mem {v lo hi : Int} (h1 : lo ≤ v) (h2 : v ≤ hi) : clamp v lo hi = v := by
  unfold clamp; rw [if_neg (by omega), if_neg (by omega)]

variable (c : Config) (index : BitVec 7) (pred : BitVec 16) (sgn : BitVec 1) (m : BitVec 3)

theorem adpcmIndex_bounds : 0 ≤ adpcmIndex c index m ∧ adpcmIndex c index m ≤ 88 :=
  clamp_bounds (by omega)

theorem adpcmPred_bounds : -32768 ≤ adpcmPred c index pred sgn m ∧ adpcmPred c index pred sgn m ≤ 32767 :=
  clamp_bounds (by omega)

/-- The stored step index is the clamped integer. -/
theorem adpcmNext_index : ((adpcmNext c index pred sgn m).1.toNat : Int) = adpcmIndex c index m := by
  have := adpcmIndex_bounds c index m
  simp only [adpcmNext, BitVec.toNat_ofInt]
  omega

/-- The stored predictor is the clamped integer. -/
theorem adpcmNext_pred : (adpcmNext c index pred sgn m).2.toInt = adpcmPred c index pred sgn m := by
  have := adpcmPred_bounds c index pred sgn m
  simp only [adpcmNext, BitVec.toInt_ofInt]
  rw [Int.bmod_eq_of_le] <;> omega

theorem adpcmNext_index_le : (adpcmNext c index pred sgn m).1.toNat ≤ 88 := by
  have := adpcmIndex_bounds c index m
  have := adpcmNext_index c index pred sgn m
  omega

/-- A unit of `UNIT_BYTES` bytes holds every code of the unit. -/
theorem codeAt_isSome {c : Config} {input : List Byte} {ak : Nat} (hl : input.length = unitBytes c)
    (hk : ak < c.unitSamples.toNat) : ∃ code, codeAt c input ak = some code := by
  have hlt : ak / 2 < input.length := by rw [hl, unitBytes]; omega
  unfold codeAt
  rw [List.getElem?_eq_getElem hlt]
  simp only
  split <;> exact ⟨_, rfl⟩

/-- The operation goes on: only the engine changed, its unit did not, one more sample is there, and it is sound. -/
def AdpcmGoesOn (s : State) (e : AdpcmEngine) (t : State) : Prop :=
  ∃ e', t = { s with engine := .adpcm e' } ∧ e'.input = e.input ∧ e'.ak = e.ak + 1 ∧ AdpcmEngine.Ok s e'

/-- The two ends of a round of the unit loop. -/
def AdpcmRound (s : State) (e : AdpcmEngine) (r : Result) : Prop :=
  ∃ t, r = .next t ∧
    (AdpcmGoesOn s e t ∨ (t = commitAdpcm e s ∧ e.ak = s.config.unitSamples.toNat))

theorem execAdCode_round {s : State} {e : AdpcmEngine} (h : s.engine = .adpcm e) (ok : AdpcmEngine.Ok s e)
    (hk : e.ak < s.config.unitSamples.toNat) (sgn : BitVec 1) (m : BitVec 3) :
    AdpcmRound s e (execAdCode sgn m s) := by
  rw [execAdCode, withAdpcm_eq h, if_neg (by omega)]
  refine ⟨_, rfl, .inl ⟨_, rfl, rfl, rfl, ok.unit, by simp only; omega, rfl,
    adpcmNext_index_le s.config e.index e.pred sgn m, Memory.wf_set ok.canonical _ _, fun p hp => ?_⟩⟩
  rcases Memory.mem_set hp with rfl | hp
  · exact hk
  · exact ok.inside p hp

end Sys2Proof.Machine
end

