-- ==== Sys2Proof/Laws/Block.lean ====
section
/-!
SUPPORT. Laws/Block.lean: the grid (20_memory.md R59, R60), and what the shared operations of the block-pointer
commands can do, said once.
-/

namespace Sys2Proof.Machine

theorem withBlock_eq {s : State} {e : BlockEngine} (h : s.engine = .block e) (f : BlockEngine → Result) :
    withBlock s f = f e := by simp [withBlock, h]

/-! ### The grid -/

theorem CfgRegs.geometryOk_iff (c : CfgRegs) : c.geometryOk = true ↔
    1 ≤ c.w.toNat ∧ 1 ≤ c.h.toNat ∧ 1 ≤ c.bw.toNat ∧ 1 ≤ c.bh.toNat ∧ 1 ≤ c.maxBlocks.toNat ∧
    c.bw.toNat ≤ c.w.toNat ∧ c.bh.toNat ≤ c.h.toNat ∧
    c.xoff.toNat + c.gw * c.bw.toNat ≤ c.rw.toNat ∧ c.yoff.toNat + c.gh * c.bh.toNat ≤ c.rh.toNat := by
  simp [CfgRegs.geometryOk, and_assoc]

/-- The key of a pixel determines its coordinates. -/
theorem rasKey_inj {x y x' y' : Nat} (hx : x < 65536) (hx' : x' < 65536) (h : rasKey x y = rasKey x' y') :
    x = x' ∧ y = y' := by
  unfold rasKey at h; omega

theorem rasKey_mod {x y : Nat} (hx : x < 65536) : rasKey x y % 65536 = x := by unfold rasKey; omega

theorem rasKey_div {x y : Nat} (hx : x < 65536) : rasKey x y / 65536 = y := by unfold rasKey; omega

/-- A cell of a row of `n` cells of width `w` ends inside the row. -/
theorem cell_end_le {i n w : Nat} (h : i < n) : i * w + w ≤ n * w := by
  calc i * w + w = (i + 1) * w := by rw [Nat.add_mul, Nat.one_mul]
    _ ≤ n * w := Nat.mul_le_mul_right _ h

variable {c : CfgRegs}

/-- "so a block write never leaves the raster" (R59), columns. -/
theorem CfgRegs.x0_end_le (hg : c.geometryOk = true) {d : Nat} (hd : d < c.nblk) :
    c.x0 d + c.bw.toNat ≤ c.rw.toNat := by
  have hgw : 0 < c.gw := Nat.pos_of_mul_pos_right (Nat.zero_lt_of_lt hd)
  obtain ⟨_, _, _, _, _, _, _, hx, _⟩ := c.geometryOk_iff.1 hg
  have := cell_end_le (w := c.bw.toNat) (Nat.mod_lt d hgw)
  unfold CfgRegs.x0; omega

/-- "so a block write never leaves the raster" (R59), rows. -/
theorem CfgRegs.y0_end_le (hg : c.geometryOk = true) {d : Nat} (hd : d < c.nblk) :
    c.y0 d + c.bh.toNat ≤ c.rh.toNat := by
  obtain ⟨_, _, _, _, _, _, _, _, hy⟩ := c.geometryOk_iff.1 hg
  have hdiv : d / c.gw < c.gh := Nat.div_lt_of_lt_mul hd
  have := cell_end_le (w := c.bh.toNat) hdiv
  unfold CfgRegs.y0; omega

theorem CfgRegs.rw_lt (c : CfgRegs) : c.rw.toNat < 65536 := c.rw.isLt

theorem CfgRegs.inBlock_inRaster (hg : c.geometryOk = true) {d key : Nat} (hd : d < c.nblk) (h : c.inBlock d key) :
    c.inRaster key := by
  obtain ⟨x, y, hx, hy, rfl⟩ := h
  have h1 := c.x0_end_le hg hd
  have h2 := c.y0_end_le hg hd
  have h3 := c.rw_lt
  unfold CfgRegs.inRaster
  rw [rasKey_mod (by omega), rasKey_div (by omega)]; omega

theorem cell_eq_of_overlap {i j w x x' : Nat} (hx : x < w) (hx' : x' < w) (h : i * w + x = j * w + x') : i = j := by
  have hw : 0 < w := by omega
  have h1 : (i * w + x) / w = i := by
    rw [Nat.add_comm, Nat.add_mul_div_right _ _ hw, Nat.div_eq_of_lt hx, Nat.zero_add]
  have h2 : (j * w + x') / w = j := by
    rw [Nat.add_comm, Nat.add_mul_div_right _ _ hw, Nat.div_eq_of_lt hx', Nat.zero_add]
  rw [← h1, h, h2]

/-- Different destination blocks share no pixel. -/
theorem CfgRegs.inBlock_unique (hg : c.geometryOk = true) {d d' key : Nat} (hd : d < c.nblk) (hd' : d' < c.nblk)
    (h : c.inBlock d key) (h' : c.inBlock d' key) : d = d' := by
  obtain ⟨x, y, hx, hy, rfl⟩ := h
  obtain ⟨x', y', hx', hy', he⟩ := h'
  have h1 := c.x0_end_le hg hd
  have h1' := c.x0_end_le hg hd'
  have h3 := c.rw_lt
  obtain ⟨hxx, hyy⟩ := rasKey_inj (by omega) (by omega) he
  unfold CfgRegs.x0 at hxx
  unfold CfgRegs.y0 at hyy
  have hm : d % c.gw = d' % c.gw := cell_eq_of_overlap hx hx' (by omega)
  have hq : d / c.gw = d' / c.gw := cell_eq_of_overlap hy hy' (by omega)
  rw [← Nat.div_add_mod d c.gw, ← Nat.div_add_mod d' c.gw, hm, hq]

/-! ### The pixel moves of a block -/

theorem get?_putPixel (s : State) (keyed : Bool) (b d x y : Nat) (m : Memory 16) (key : Nat) :
    Memory.get? (putPixel s keyed b d x y m) key =
      if key = rasKey (s.cfg.x0 d + x) (s.cfg.y0 d + y) ∧ ¬(keyed = true ∧ keyBit (cbPixel s b x y) = true)
      then some (cbPixel s b x y) else Memory.get? m key := by
  unfold putPixel
  by_cases hk : keyed = true ∧ keyBit (cbPixel s b x y) = true
  · rw [if_pos hk, if_neg (by tauto)]
  · rw [if_neg hk, Memory.get?_set]
    by_cases he : key = rasKey (s.cfg.x0 d + x) (s.cfg.y0 d + y)
    · rw [if_pos he, if_pos ⟨he, hk⟩]
    · rw [if_neg he, if_neg (by tauto)]

theorem wf_putPixels (s : State) (keyed : Bool) (b d n : Nat) {m : Memory 16} (h : Memory.wf m) :
    Memory.wf (putPixels s keyed b d n m) := by
  induction n with
  | zero => exact h
  | succ n ih =>
    simp only [putPixels, putPixel]
    split
    · exact ih
    · exact Memory.wf_set ih _ _

theorem pixel_lt {bw bh i : Nat} (h : i < bw * bh) : i % bw < bw ∧ i / bw < bh := by
  have hpos : 0 < bw := Nat.pos_of_mul_pos_right (Nat.zero_lt_of_lt h)
  exact ⟨Nat.mod_lt _ hpos, Nat.div_lt_of_lt_mul h⟩

theorem mem_putPixels (s : State) (keyed : Bool) (b d n : Nat) {m : Memory 16} (hn : n ≤ s.cfg.blkPix)
    {p : Nat × Pixel} (h : p ∈ putPixels s keyed b d n m) : s.cfg.inBlock d p.1 ∨ p ∈ m := by
  induction n with
  | zero => exact .inr h
  | succ n ih =>
    simp only [putPixels, putPixel] at h
    split at h
    · exact ih (by omega) h
    · rcases Memory.mem_set h with rfl | h
      · obtain ⟨hx, hy⟩ := pixel_lt (bw := s.cfg.bw.toNat) (bh := s.cfg.bh.toNat) (i := n) hn
        exact .inl ⟨_, _, hx, hy, rfl⟩
      · exact ih (by omega) h

theorem get?_putPixels_outside (s : State) (keyed : Bool) (b d n : Nat) (m : Memory 16) (hn : n ≤ s.cfg.blkPix)
    {key : Nat} (h : ¬ s.cfg.inBlock d key) :
    Memory.get? (putPixels s keyed b d n m) key = Memory.get? m key := by
  induction n with
  | zero => rfl
  | succ n ih =>
    obtain ⟨hx, hy⟩ := pixel_lt (bw := s.cfg.bw.toNat) (bh := s.cfg.bh.toNat) (i := n) hn
    rw [putPixels, get?_putPixel, if_neg, ih (by omega)]
    rintro ⟨rfl, -⟩
    exact h ⟨_, _, hx, hy, rfl⟩

theorem get?_putPixels_inside (s : State) (keyed : Bool) (b d n : Nat) (m : Memory 16) (hn : n ≤ s.cfg.blkPix)
    (hw : s.cfg.x0 d + s.cfg.bw.toNat ≤ 65536) {i : Nat} (hi : i < s.cfg.blkPix) :
    Memory.get? (putPixels s keyed b d n m)
      (rasKey (s.cfg.x0 d + i % s.cfg.bw.toNat) (s.cfg.y0 d + i / s.cfg.bw.toNat)) =
      if i < n ∧ ¬(keyed = true ∧ keyBit (cbPixel s b (i % s.cfg.bw.toNat) (i / s.cfg.bw.toNat)) = true)
      then some (cbPixel s b (i % s.cfg.bw.toNat) (i / s.cfg.bw.toNat))
      else Memory.get? m (rasKey (s.cfg.x0 d + i % s.cfg.bw.toNat) (s.cfg.y0 d + i / s.cfg.bw.toNat)) := by
  obtain ⟨hxi, hyi⟩ := pixel_lt (bw := s.cfg.bw.toNat) (bh := s.cfg.bh.toNat) (i := i) hi
  induction n with
  | zero => rw [if_neg (by omega)]; rfl
  | succ n ih =>
    obtain ⟨hxn, hyn⟩ := pixel_lt (bw := s.cfg.bw.toNat) (bh := s.cfg.bh.toNat) (i := n) hn
    rw [putPixels, get?_putPixel, ih (by omega)]
    by_cases hin : i = n
    · subst hin
      simp
    · have hkey : ¬ rasKey (s.cfg.x0 d + i % s.cfg.bw.toNat) (s.cfg.y0 d + i / s.cfg.bw.toNat) =
          rasKey (s.cfg.x0 d + n % s.cfg.bw.toNat) (s.cfg.y0 d + n / s.cfg.bw.toNat) := by
        intro he
        have hbi : s.cfg.x0 d + i % s.cfg.bw.toNat < 65536 := by omega
        have hbn : s.cfg.x0 d + n % s.cfg.bw.toNat < 65536 := by omega
        obtain ⟨h1, h2⟩ := rasKey_inj hbi hbn he
        have hm : i % s.cfg.bw.toNat = n % s.cfg.bw.toNat := by omega
        have hq : i / s.cfg.bw.toNat = n / s.cfg.bw.toNat := by omega
        exact hin ((Nat.div_add_mod i _).symm.trans ((by rw [hm, hq] : _ = _).trans (Nat.div_add_mod n _)))
      rw [if_neg fun hh => hkey hh.1]
      have hlt : (i < n + 1) ↔ (i < n) := by omega
      simp only [hlt]

/-- All the pixel moves of a block: every pixel of the destination block holds its source pixel, or what it held if the
write is keyed and the source pixel's bit 15 is set (R202, R203). -/
theorem readRas_putPixels (s : State) (keyed : Bool) (b d : Nat) (m : Memory 16) (ep : Nat)
    (hw : s.cfg.x0 d + s.cfg.bw.toNat ≤ 65536) {x y : Nat} (hx : x < s.cfg.bw.toNat) (hy : y < s.cfg.bh.toNat) :
    readRas ep (putPixels s keyed b d s.cfg.blkPix m) (rasKey (s.cfg.x0 d + x) (s.cfg.y0 d + y)) =
      if keyed = true ∧ keyBit (cbPixel s b x y) = true
      then readRas ep m (rasKey (s.cfg.x0 d + x) (s.cfg.y0 d + y)) else cbPixel s b x y := by
  have hi : y * s.cfg.bw.toNat + x < s.cfg.blkPix := by
    have := cell_end_le (w := s.cfg.bw.toNat) hy
    unfold CfgRegs.blkPix; rw [Nat.mul_comm s.cfg.bw.toNat]; omega
  have hm : (y * s.cfg.bw.toNat + x) % s.cfg.bw.toNat = x := by
    rw [Nat.add_comm, Nat.add_mul_mod_self_right, Nat.mod_eq_of_lt hx]
  have hq : (y * s.cfg.bw.toNat + x) / s.cfg.bw.toNat = y := by
    rw [Nat.add_comm, Nat.add_mul_div_right _ _ (by omega), Nat.div_eq_of_lt hx, Nat.zero_add]
  have h := get?_putPixels_inside s keyed b d s.cfg.blkPix m (Nat.le_refl _) hw hi
  rw [hm, hq] at h
  unfold readRas
  rw [h]
  by_cases hk : keyed = true ∧ keyBit (cbPixel s b x y) = true
  · rw [if_neg fun hh => hh.2 hk, if_pos hk]
  · rw [if_pos ⟨hi, hk⟩, if_neg hk]; rfl

theorem readRas_putPixels_outside (s : State) (keyed : Bool) (b d : Nat) (m : Memory 16) (ep : Nat) {key : Nat}
    (h : ¬ s.cfg.inBlock d key) : readRas ep (putPixels s keyed b d s.cfg.blkPix m) key = readRas ep m key := by
  unfold readRas; rw [get?_putPixels_outside s keyed b d _ m (Nat.le_refl _) h]

/-! ### `put` and runs of `put`s -/

/-- `put` in a configured core: a block index error, a destination error, or the block written. -/
theorem put_eq {s : State} (hg : s.cfg.geometryOk = true) (keyed : Bool) (b : Nat) (e : BlockEngine) :
    put s keyed b e =
      if s.cfg.maxBlocks.toNat ≤ b then .error (.cause .vptrBadBlock)
      else if s.cfg.nblk ≤ e.vd then .error (.cause .vptrDestOverrun)
      else .ok { e with vd := e.vd + 1, work := putPixels s keyed b e.vd s.cfg.blkPix e.work } := by
  unfold put
  split
  · rfl
  · split
    · rfl
    · next hd =>
      have h1 := s.cfg.x0_end_le hg (d := e.vd) (by omega)
      have h2 := s.cfg.y0_end_le hg (d := e.vd) (by omega)
      rw [if_neg (by omega)]

/-- What a run of `put`s that succeeds has done to the engine. -/
structure PutsDone (s : State) (keyed : Bool) (bs : List Nat) (e e' : BlockEngine) : Prop where
  input : e'.input = e.input
  vs : e'.vs = e.vs
  vd : e'.vd = e.vd + bs.length
  dest : bs ≠ [] → e'.vd ≤ s.cfg.nblk
  canonical : Memory.wf e.work → Memory.wf e'.work
  inside : (∀ p ∈ e.work, s.cfg.inRaster p.1) → ∀ p ∈ e'.work, s.cfg.inRaster p.1
  written : ∀ ep j (hj : j < bs.length) x y, x < s.cfg.bw.toNat → y < s.cfg.bh.toNat →
    readRas ep e'.work (rasKey (s.cfg.x0 (e.vd + j) + x) (s.cfg.y0 (e.vd + j) + y)) =
      if keyed = true ∧ keyBit (cbPixel s bs[j] x y) = true
      then readRas ep e.work (rasKey (s.cfg.x0 (e.vd + j) + x) (s.cfg.y0 (e.vd + j) + y)) else cbPixel s bs[j] x y
  kept : ∀ ep key, (∀ j, j < bs.length → ¬ s.cfg.inBlock (e.vd + j) key) →
    readRas ep e'.work key = readRas ep e.work key

theorem putAll_done {s : State} (hg : s.cfg.geometryOk = true) {keyed : Bool} {bs : List Nat} {e e' : BlockEngine}
    (h : putAll s keyed bs e = .ok e') : PutsDone s keyed bs e e' := by
  induction bs generalizing e with
  | nil =>
    cases h
    exact ⟨rfl, rfl, rfl, fun h => absurd rfl h, id, id, fun _ j hj => by simp at hj, fun _ _ _ => rfl⟩
  | cons b bs ih =>
    simp only [putAll, put_eq hg] at h
    split at h
    · next e1 hp =>
      split at hp
      · cases hp
      · split at hp
        · cases hp
        · next hd =>
          cases hp
          have hd : e.vd < s.cfg.nblk := by omega
          have d := ih h
          have hw : s.cfg.x0 e.vd + s.cfg.bw.toNat ≤ 65536 := by
            have := s.cfg.x0_end_le hg hd; have := s.cfg.rw_lt; omega
          have hlen : e'.vd = e.vd + 1 + bs.length := d.vd
          have hle : e'.vd ≤ s.cfg.nblk := by
            cases bs with
            | nil => simp only [List.length_nil] at hlen; omega
            | cons _ _ => exact d.dest (by simp)
          refine ⟨d.input, d.vs, ?_, fun _ => hle, fun hc => d.canonical (wf_putPixels _ _ _ _ _ hc), fun hi => ?_, ?_, ?_⟩
          · simp only [List.length_cons]; omega
          · refine d.inside fun p hp => ?_
            rcases mem_putPixels _ _ _ _ _ (Nat.le_refl _) hp with h1 | h1
            · exact CfgRegs.inBlock_inRaster hg hd h1
            · exact hi p h1
          · intro ep j hj x y hx hy
            cases j with
            | zero =>
              simp only [Nat.add_zero, List.getElem_cons_zero]
              rw [d.kept ep _ fun j hj hb => ?_, readRas_putPixels s keyed b e.vd e.work ep hw hx hy]
              simp only at hb
              have := CfgRegs.inBlock_unique hg (by omega) hd hb ⟨x, y, hx, hy, rfl⟩
              omega
            | succ j =>
              simp only [List.length_cons] at hj
              have := d.written ep j (by omega) x y hx hy
              simp only [show e.vd + 1 + j = e.vd + (j + 1) by omega] at this
              rw [this, List.getElem_cons_succ, readRas_putPixels_outside]
              intro hb
              have := CfgRegs.inBlock_unique hg hd (by omega) hb ⟨x, y, hx, hy, rfl⟩
              omega
          · intro ep key hk
            rw [d.kept ep key fun j hj => ?_, readRas_putPixels_outside]
            · simpa using hk 0 (by simp)
            · have := hk (j + 1) (by simp; omega)
              rwa [show e.vd + (j + 1) = e.vd + 1 + j by omega] at this
    · cases h

/-- A run of `put`s whose blocks exist and whose destinations are in the grid succeeds. -/
theorem putAll_ok {s : State} (hg : s.cfg.geometryOk = true) {keyed : Bool} {bs : List Nat} {e : BlockEngine}
    (hb : ∀ b ∈ bs, b < s.cfg.maxBlocks.toNat) (hd : e.vd + bs.length ≤ s.cfg.nblk) :
    ∃ e', putAll s keyed bs e = .ok e' := by
  induction bs generalizing e with
  | nil => exact ⟨e, rfl⟩
  | cons b bs ih =>
    simp only [List.length_cons] at hd
    have hbb := hb b (by simp)
    simp only [putAll, put_eq hg]
    rw [if_neg (by omega), if_neg (by omega)]
    exact ih (fun b' h' => hb b' (List.mem_cons_of_mem _ h')) (by simp only; omega)

/-- In a configured core a run of `put`s fails only with one of the two causes of R202. -/
theorem putAll_error {s : State} (hg : s.cfg.geometryOk = true) {keyed : Bool} {bs : List Nat} {e : BlockEngine}
    {stop : PutStop} (h : putAll s keyed bs e = .error stop) :
    stop = .cause .vptrBadBlock ∨ stop = .cause .vptrDestOverrun := by
  induction bs generalizing e with
  | nil => cases h
  | cons b bs ih =>
    simp only [putAll, put_eq hg] at h
    split at h
    · exact ih h
    · next hp =>
      cases h
      split at hp
      · cases hp; exact .inl rfl
      · split at hp
        · cases hp; exact .inr rfl
        · cases hp

/-- The index loop of `VP.LIST` with all its index bytes is a run of opaque `put`s. -/
theorem putListed_eq_putAll (s : State) (n : Nat) (idx : List Byte) (e : BlockEngine) (h : n ≤ idx.length) :
    putListed s n idx e = putAll s false ((idx.take n).map BitVec.toNat) e := by
  induction n generalizing idx e with
  | zero => rfl
  | succ n ih =>
    cases idx with
    | nil => simp at h
    | cons b bs =>
      simp only [putListed, List.take_succ_cons, List.map_cons, putAll]
      split
      · exact ih _ _ (by simpa using h)
      · rfl

/-- The index loop of `VP.LIST` with an index byte missing fails (R201). -/
theorem putListed_short {s : State} (hg : s.cfg.geometryOk = true) (n : Nat) (idx : List Byte) (e : BlockEngine)
    (h : idx.length < n) : ∃ c, putListed s n idx e = .error (.cause c) ∧
      (c = .vptrBadBlock ∨ c = .vptrDestOverrun ∨ c = .vptrSrcUnderrun) := by
  induction n generalizing idx e with
  | zero => omega
  | succ n ih =>
    cases idx with
    | nil => exact ⟨_, rfl, .inr (.inr rfl)⟩
    | cons b bs =>
      simp only [putListed, put_eq hg]
      split
      · exact ih _ _ (by simpa using h)
      · next hp =>
        split at hp
        · cases hp; exact ⟨_, rfl, .inl rfl⟩
        · split at hp
          · cases hp; exact ⟨_, rfl, .inr (.inl rfl)⟩
          · cases hp

/-! ### One round of the block loop -/

/-- The operation goes on: only the engine changed, its payload did not, `vs` moved forward, and it is sound. -/
def BlockGoesOn (s : State) (e : BlockEngine) (t : State) : Prop :=
  ∃ e', t = { s with engine := .block e' } ∧ e'.input = e.input ∧ e.vs < e'.vs ∧ BlockEngine.Ok s e'

/-- The three ends of a round of the block loop. -/
def BlockRound (s : State) (e : BlockEngine) (r : Result) : Prop :=
  ∃ t, r = .next t ∧
    ((∃ c, isBlockCause c ∧ t = raiseError c e.vs s) ∨ BlockGoesOn s e t ∨
      (t = commitBlock e s ∧ e.vs = e.input.length))

variable {s : State} {e : BlockEngine}

theorem blockRound_error {c : Cause} (h : isBlockCause c) : BlockRound s e (.next (raiseError c e.vs s)) :=
  ⟨_, rfl, .inl ⟨c, h, rfl⟩⟩

theorem blockResult_round (hg : s.cfg.geometryOk = true) (ok : BlockEngine.Ok s e) {len : Nat} (hlen : 0 < len)
    (hsrc : e.vs + len ≤ e.input.length) (keyed : Bool) (bs : List Nat) :
    BlockRound s e (blockResult len e s (putAll s keyed bs e)) := by
  cases hp : putAll s keyed bs e with
  | error stop =>
    rcases putAll_error hg hp with rfl | rfl
    · exact blockRound_error (.inr (.inr (.inl rfl)))
    · exact blockRound_error (.inr (.inr (.inr rfl)))
  | ok e' =>
    have d := putAll_done hg hp
    refine ⟨_, rfl, .inr (.inl ⟨_, rfl, d.input, by simp only; omega, ?_⟩)⟩
    refine ⟨?_, ?_, ?_, d.canonical ok.canonical, d.inside ok.inside⟩
    · simp only [d.input]; exact hsrc
    · simp only [d.input]; exact ok.limit
    · simp only
      cases bs with
      | nil => have := d.vd; have := ok.dest; simp only [List.length_nil] at *; omega
      | cons _ _ => exact d.dest (by simp)

theorem vpListOp_eq (s : State) (k : BitVec 5) (b : BitVec 8) (idx : List Byte) (e : BlockEngine)
    (h : s.config.extraOf k ≤ idx.length) :
    vpListOp k b idx e s = blockResult (2 + s.config.extraOf k) e s
      (putAll s false (b.toNat :: (idx.take (s.config.extraOf k)).map BitVec.toNat) e) := by
  unfold vpListOp
  simp only [putAll]
  congr 1
  split
  · exact putListed_eq_putAll _ _ _ _ h
  · rfl

theorem vpListOp_short (hg : s.cfg.geometryOk = true) (k : BitVec 5) (b : BitVec 8) (idx : List Byte)
    (h : idx.length < s.config.extraOf k) : BlockRound s e (vpListOp k b idx e s) := by
  unfold vpListOp
  rw [put_eq hg]
  by_cases hb : s.cfg.maxBlocks.toNat ≤ b.toNat
  · rw [if_pos hb]; exact blockRound_error (.inr (.inr (.inl rfl)))
  · rw [if_neg hb]
    by_cases hd : s.cfg.nblk ≤ e.vd
    · rw [if_pos hd]; exact blockRound_error (.inr (.inr (.inr rfl)))
    · rw [if_neg hd]
      obtain ⟨c, hc, hcause⟩ := putListed_short hg _ idx
        { e with vd := e.vd + 1, work := putPixels s false b.toNat e.vd s.cfg.blkPix e.work } h
      simp only [hc]
      refine blockRound_error ?_
      rcases hcause with rfl | rfl | rfl
      · exact .inr (.inr (.inl rfl))
      · exact .inr (.inr (.inr rfl))
      · exact .inl rfl

variable (h : s.engine = .block e) (ok : BlockEngine.Ok s e)
include h

theorem execVpIllegal_round (x : BitVec 13) : BlockRound s e (execVpIllegal x s) := by
  rw [execVpIllegal, withBlock_eq h]; exact blockRound_error (.inr (.inl rfl))

include ok

theorem execVpSkip_round (hsrc : e.vs + 2 ≤ e.input.length) (n : BitVec 13) : BlockRound s e (execVpSkip n s) := by
  rw [execVpSkip, withBlock_eq h]
  split
  · exact blockRound_error (.inr (.inr (.inr rfl)))
  · exact ⟨_, rfl, .inr (.inl ⟨_, rfl, rfl, by simp only; omega,
      ⟨hsrc, ok.limit, by simp only; omega, ok.canonical, ok.inside⟩⟩)⟩

variable (hg : s.cfg.geometryOk = true)
include hg

theorem execVpRepeat_round (hsrc : e.vs + 2 ≤ e.input.length) (k : BitVec 5) (b : BitVec 8) :
    BlockRound s e (execVpRepeat k b s) := by
  rw [execVpRepeat, withBlock_eq h]; exact blockResult_round hg ok (by omega) hsrc _ _

theorem execVpPut_round (hsrc : e.vs + 2 ≤ e.input.length) (b : BitVec 13) : BlockRound s e (execVpPut b s) := by
  rw [execVpPut, withBlock_eq h]; exact blockResult_round hg ok (by omega) hsrc _ _

theorem execVpPutk_round (hsrc : e.vs + 2 ≤ e.input.length) (b : BitVec 13) : BlockRound s e (execVpPutk b s) := by
  rw [execVpPutk, withBlock_eq h]; exact blockResult_round hg ok (by omega) hsrc _ _

omit h in
theorem vpRunOp_round (keyed : Bool) (b : BitVec 13) (m : Byte) : BlockRound s e (vpRunOp keyed b m e s) := by
  unfold vpRunOp
  split
  · exact blockRound_error (.inl rfl)
  · exact blockResult_round hg ok (by omega) (by omega) _ _

theorem execVpRun_round (b : BitVec 13) (m : Byte) : BlockRound s e (execVpRun b m s) := by
  rw [execVpRun, withBlock_eq h]; exact vpRunOp_round ok hg _ _ _

theorem execVpRunk_round (b : BitVec 13) (m : Byte) : BlockRound s e (execVpRunk b m s) := by
  rw [execVpRunk, withBlock_eq h]; exact vpRunOp_round ok hg _ _ _

theorem execVpList_round (k : BitVec 5) (b : BitVec 8) (idx : List Byte)
    (hsrc : e.vs + 2 + s.config.extraOf k ≤ e.input.length) : BlockRound s e (execVpList k b idx s) := by
  rw [execVpList, withBlock_eq h]
  by_cases hl : s.config.extraOf k ≤ idx.length
  · rw [vpListOp_eq _ _ _ _ _ hl]; exact blockResult_round hg ok (by omega) (by omega) _ _
  · exact vpListOp_short hg _ _ _ (by omega)

end Sys2Proof.Machine
end

