-- ==== Sys2Proof/Laws/Lcw.lean ====
section
/-!
SUPPORT. Laws/Lcw.lean: what the shared operations of the LCW commands can do, said once.
-/

namespace Sys2Proof.Machine

theorem withLcw_eq {s : State} {e : LcwEngine} (h : s.engine = .lcw e) (f : LcwEngine → Result) :
    withLcw s f = f e := by simp [withLcw, h]

/-! ### Copy sources -/

theorem backref_eq_some {lc dist src : Nat} :
    backref lc dist = some src ↔ dist ≠ 0 ∧ dist ≤ lc ∧ src = lc - dist := by
  unfold backref; split <;> simp <;> omega

theorem absref_eq_some {lc off src : Nat} : absref lc off = some src ↔ off < lc ∧ src = off := by
  unfold absref; split <;> simp <;> omega

theorem backref_lt {lc dist src : Nat} (h : backref lc dist = some src) : src < lc := by
  rw [backref_eq_some] at h; omega

theorem runSource_lt {e : LcwEngine} {off src : Nat} (h : runSource e off = some src) : src < e.lc := by
  unfold runSource at h
  split at h
  · exact backref_lt h
  · rw [absref_eq_some] at h; omega

/-! ### One round of the LCW loop, and its shared operations -/

/-- The operation goes on: only the engine changed, its window and payload did not, `ls` moved forward, and it is
sound. -/
def LcwGoesOn (s : State) (e : LcwEngine) (t : State) : Prop :=
  ∃ e', t = { s with engine := .lcw e' } ∧ e'.input = e.input ∧ e'.dstOff = e.dstOff ∧ e'.outLen = e.outLen ∧
    e.ls < e'.ls ∧ LcwEngine.Ok s e'

/-- The three ends of a round of the LCW loop: an error at the cursor, the next command, the end of the operation. -/
def LcwRound (s : State) (e : LcwEngine) (r : Result) : Prop :=
  ∃ t, r = .next t ∧
    ((∃ c, isLcwCause c ∧ t = raiseError c e.ls s) ∨ LcwGoesOn s e t ∨ (t = commitLcw e s ∧ e.lc = e.outLen))

theorem lcwRound_error {s : State} {e : LcwEngine} {c : Cause} (h : isLcwCause c) :
    LcwRound s e (.next (raiseError c e.ls s)) := ⟨_, rfl, .inl ⟨c, h, rfl⟩⟩

/-- A write into the free part of the window keeps the operation sound. -/
theorem lcwAdvance_round {s : State} {e : LcwEngine} {len count : Nat} {work : Memory 8} (ok : LcwEngine.Ok s e)
    (hlen : 0 < len) (hsrc : e.ls + len ≤ e.input.length) (hroom : e.lc + count ≤ e.outLen)
    (hwf : Memory.wf work)
    (hmem : ∀ p ∈ work, (e.dstOff + e.lc ≤ p.1 ∧ p.1 < e.dstOff + e.lc + count) ∨ p ∈ e.work)
    (hnew : ∀ i, i < count → (Memory.get? work (e.dstOff + e.lc + i)).isSome = true)
    (hold : ∀ a, a < e.dstOff + e.lc ∨ e.dstOff + e.lc + count ≤ a → Memory.get? work a = Memory.get? e.work a) :
    LcwRound s e (lcwAdvance len count work e s) := by
  have hw := ok.window
  unfold lcwAdvance
  rw [if_neg (by omega)]
  refine ⟨_, rfl, .inr (.inl ⟨_, rfl, rfl, rfl, rfl, by simp only; omega, ?_⟩)⟩
  refine ⟨hsrc, ok.limit, ok.window, ok.width, hroom, hwf, fun p hp => ?_, fun i hi => ?_, fun a ha => ?_⟩
  · rcases hmem p hp with h | h
    · omega
    · exact ok.inside p h
  · simp only at hi ⊢
    by_cases hlt : i < e.lc
    · rw [hold _ (by omega)]; exact ok.written i hlt
    · have := hnew (i - e.lc) (by omega)
      rwa [show e.dstOff + e.lc + (i - e.lc) = e.dstOff + i by omega] at this
  · simp only at ha ⊢
    rw [hold a (by omega)]; exact ok.kept a (by omega)

theorem lcwProduce_round {s : State} {e : LcwEngine} {len : Nat} (bytes : List Byte) (ok : LcwEngine.Ok s e)
    (hlen : 0 < len) :
    LcwRound s e (lcwProduce len bytes.length (writeBytes e.work (e.dstOff + e.lc) bytes) e s) := by
  unfold lcwProduce
  split
  · exact lcwRound_error (.inl rfl)
  · split
    · exact lcwRound_error (.inr (.inr (.inl rfl)))
    · refine lcwAdvance_round ok hlen (by omega) (by omega) (wf_writeBytes _ ok.canonical _)
        (fun p hp => mem_writeBytes _ hp) (fun i hi => ?_) (fun a ha => ?_)
      · rw [get?_writeBytes, if_pos (by omega), Nat.add_sub_cancel_left]; simp [hi]
      · rw [get?_writeBytes, if_neg (by omega)]

theorem lcwCopy_round {s : State} {e : LcwEngine} {len count : Nat} {source : Option Nat} (ok : LcwEngine.Ok s e)
    (hlen : 0 < len) : LcwRound s e (lcwCopy len count source e s) := by
  unfold lcwCopy
  split
  · exact lcwRound_error (.inl rfl)
  · cases source with
    | none => exact lcwRound_error (.inr (.inl rfl))
    | some src =>
      simp only
      split
      · exact lcwRound_error (.inr (.inr (.inl rfl)))
      · refine lcwAdvance_round ok hlen (by omega) (by omega) (wf_copyBytes _ _ ok.canonical _ _)
          (fun p hp => mem_copyBytes _ _ hp) (fun i hi => isSome_copyBytes_inside _ _ _ _ _ hi)
          (fun a ha => get?_copyBytes_outside _ _ _ _ _ ha)

/-! ### The commands -/

variable {s : State} {e : LcwEngine}

theorem execLcwScopy_round (h : s.engine = .lcw e) (ok : LcwEngine.Ok s e) (n : BitVec 3) (dist : BitVec 12) :
    LcwRound s e (execLcwScopy n dist s) := by
  rw [execLcwScopy, withLcw_eq h]; exact lcwCopy_round ok (by omega)

theorem execLcwRcopy_round (h : s.engine = .lcw e) (ok : LcwEngine.Ok s e) (n : BitVec 6) (off : BitVec 16) :
    LcwRound s e (execLcwRcopy n off s) := by
  rw [execLcwRcopy, withLcw_eq h]; exact lcwCopy_round ok (by omega)

theorem execLcwLcopy_round (h : s.engine = .lcw e) (ok : LcwEngine.Ok s e) (cnt off : BitVec 16) :
    LcwRound s e (execLcwLcopy cnt off s) := by
  rw [execLcwLcopy, withLcw_eq h]
  split
  · exact lcwRound_error (.inr (.inr (.inr (.inr rfl))))
  · split
    · split
      · exact lcwRound_error (.inl rfl)
      · have hp := ok.produced
        exact lcwAdvance_round ok (by omega) (by omega) (by omega) ok.canonical (fun p hp => .inr hp)
          (fun i hi => by omega) (fun a _ => rfl)
    · exact lcwCopy_round ok (by omega)

theorem execLcwLit_round (h : s.engine = .lcw e) (ok : LcwEngine.Ok s e) (bytes : List Byte) :
    LcwRound s e (execLcwLit bytes s) := by
  rw [execLcwLit, withLcw_eq h]; exact lcwProduce_round bytes ok (by omega)

theorem execLcwFill_round (h : s.engine = .lcw e) (ok : LcwEngine.Ok s e) (cnt : BitVec 16) (val : Byte) :
    LcwRound s e (execLcwFill cnt val s) := by
  rw [execLcwFill, withLcw_eq h]
  split
  · exact lcwRound_error (.inr (.inr (.inr (.inr rfl))))
  · have := lcwProduce_round (s := s) (len := 4) (List.replicate cnt.toNat val) ok (by omega)
    rwa [List.length_replicate] at this

theorem execLcwEnd_round (h : s.engine = .lcw e) : LcwRound s e (execLcwEnd s) := by
  rw [execLcwEnd, withLcw_eq h]
  split
  · exact lcwRound_error (.inr (.inr (.inr (.inl rfl))))
  · next hl => exact ⟨_, rfl, .inr (.inr ⟨rfl, not_not.1 hl⟩)⟩

/-- The mode prefix, where it is decoded: at payload offset 0 of a payload that is not empty. -/
theorem execLcwMode_round (h : s.engine = .lcw e) (ok : LcwEngine.Ok s e) (h0 : e.ls = 0) (hne : e.input ≠ []) :
    LcwRound s e (execLcwMode s) := by
  rw [execLcwMode, withLcw_eq h]
  have hpos := List.length_pos_of_ne_nil hne
  exact ⟨_, rfl, .inr (.inl ⟨_, rfl, rfl, rfl, rfl, by simp only; omega,
    ⟨hpos, ok.limit, ok.window, ok.width, ok.produced, ok.canonical, ok.inside, ok.written, ok.kept⟩⟩)⟩

end Sys2Proof.Machine
end

