-- ==== Sys2Proof/Laws/Engine.lean ====
section
/-!
SUPPORT. Laws/Engine.lean: the main loops. What a decoder can answer, what one round of each loop does, and that an
operation ends within the bound of R353.
-/

namespace Sys2Proof.Machine

/-! ### The command at the cursor is run by its arm of `exec` -/

theorem runCommand_eq_exec {i : Instr} (h : isCommand i = true) (s : State) : runCommand i s = exec i s := by
  cases i <;> first | rfl | simp [isCommand] at h

/-! ### What the decoders can answer -/

/-- What `decodeLcw` can answer with: an LCW command, the mode prefix only at the start of a payload. -/
theorem decodeLcw_ok {cfg : Config} {start : Bool} {bytes : List Byte} {i : Instr}
    (h : decodeLcw cfg start bytes = .ok i) :
    (i = .lcwMode ∧ start = true ∧ bytes ≠ []) ∨ (∃ n d, i = .lcwScopy n d) ∨ i = .lcwEnd ∨ (∃ bs, i = .lcwLit bs) ∨
      (∃ c v, i = .lcwFill c v) ∨ (∃ c o, i = .lcwLcopy c o) ∨ (∃ n o, i = .lcwRcopy n o) := by
  unfold decodeLcw at h
  split at h
  · cases h
  · split at h
    · next hs => cases h; exact .inl ⟨rfl, hs.1, by simp⟩
    · split at h
      · unfold decodeLcwScopy at h
        split at h <;> cases h
        exact .inr (.inl ⟨_, _, rfl⟩)
      · split at h
        · cases h; exact .inr (.inr (.inl rfl))
        · split at h
          · unfold decodeLcwLit at h
            split at h <;> cases h
            exact .inr (.inr (.inr (.inl ⟨_, rfl⟩)))
          · split at h
            · unfold decodeLcwRcopy at h
              split at h <;> cases h
              exact .inr (.inr (.inr (.inr (.inr (.inr ⟨_, _, rfl⟩)))))
            · split at h
              · cases h
              · split at h
                · unfold decodeLcwFill at h
                  split at h <;> cases h
                  exact .inr (.inr (.inr (.inr (.inl ⟨_, _, rfl⟩))))
                · unfold decodeLcwLcopy at h
                  split at h <;> cases h
                  exact .inr (.inr (.inr (.inr (.inr (.inl ⟨_, _, rfl⟩)))))

/-- Why `decodeLcw` can reject. -/
theorem decodeLcw_error {cfg : Config} {start : Bool} {bytes : List Byte} {r : Reject}
    (h : decodeLcw cfg start bytes = .error r) : r = .lcwUnderrun ∨ r = .lcwReserved := by
  unfold decodeLcw decodeLcwScopy decodeLcwLit decodeLcwRcopy decodeLcwFill decodeLcwLcopy at h
  repeat' split at h
  all_goals first
    | cases h; done
    | (cases h; exact .inl rfl)
    | (cases h; exact .inr rfl)

/-- What `decodeVp` can answer with, and that the whole command lies in the bytes. -/
theorem decodeVp_ok {cfg : Config} {bytes : List Byte} {i : Instr} (h : decodeVp cfg bytes = .ok i) :
    2 ≤ bytes.length ∧ ((∃ n, i = .vpSkip n) ∨ (∃ k b, i = .vpRepeat k b) ∨
      (∃ k b idx, i = .vpList k b idx ∧ 2 + cfg.extraOf k ≤ bytes.length) ∨
      (∃ b, i = .vpPut b) ∨ (∃ b, i = .vpPutk b) ∨ (∃ b m, i = .vpRun b m) ∨ (∃ b m, i = .vpRunk b m) ∨
      (∃ x, i = .vpIllegal x)) := by
  unfold decodeVp at h
  split at h
  · refine ⟨by simp, ?_⟩
    unfold decodeVpWord at h
    split at h
    · cases h; exact .inl ⟨_, rfl⟩
    · cases h; exact .inr (.inl ⟨_, _, rfl⟩)
    · unfold decodeVpList at h
      split at h
      · cases h
      · cases h; exact .inr (.inr (.inl ⟨_, _, _, rfl, by simp only [List.length_cons]; omega⟩))
    · cases h; exact .inr (.inr (.inr (.inl ⟨_, rfl⟩)))
    · cases h; exact .inr (.inr (.inr (.inr (.inl ⟨_, rfl⟩))))
    · split at h <;> cases h
      exact .inr (.inr (.inr (.inr (.inr (.inl ⟨_, _, rfl⟩)))))
    · split at h <;> cases h
      exact .inr (.inr (.inr (.inr (.inr (.inr (.inl ⟨_, _, rfl⟩))))))
    · cases h; exact .inr (.inr (.inr (.inr (.inr (.inr (.inr ⟨_, rfl⟩))))))
  · cases h
  · cases h

/-- Why `decodeVp` can reject; a `VP.LIST` cut short keeps fewer index bytes than it needs. -/
theorem decodeVp_error {cfg : Config} {bytes : List Byte} {r : Reject} (h : decodeVp cfg bytes = .error r) :
    r = .vpUnderrun ∨ ∃ k b idx, r = .vpListCut k b idx ∧ idx.length < cfg.extraOf k := by
  unfold decodeVp at h
  split at h
  · unfold decodeVpWord at h
    split at h
    · cases h
    · cases h
    · unfold decodeVpList at h
      split at h <;> cases h
      exact .inr ⟨_, _, _, rfl, by assumption⟩
    · cases h
    · cases h
    · split at h <;> cases h
      exact .inl rfl
    · split at h <;> cases h
      exact .inl rfl
    · cases h
  · cases h; exact .inl rfl
  · cases h; exact .inl rfl

/-! ### One round of each loop -/

variable {s : State}

/-- One round of the LCW loop (R161): an error at `ls`, the next command, or the end of the operation. -/
theorem engineStep_lcw {e : LcwEngine} (h : s.engine = .lcw e) (ok : LcwEngine.Ok s e) :
    LcwRound s e (engineStep s) := by
  unfold engineStep fetch
  simp only [h]
  cases hd : decodeLcw s.config (e.ls == 0) (e.input.drop e.ls) with
  | error r =>
    rcases decodeLcw_error hd with rfl | rfl
    · simp only [Fetched.ofDecode, takeReject, withLcw_eq h]; exact lcwRound_error (.inl rfl)
    · simp only [Fetched.ofDecode, takeReject, withLcw_eq h]; exact lcwRound_error (.inr (.inr (.inr (.inr rfl))))
  | ok i =>
    simp only [Fetched.ofDecode]
    rcases decodeLcw_ok hd with ⟨rfl, hs, hne⟩ | ⟨n, d, rfl⟩ | rfl | ⟨bs, rfl⟩ | ⟨c, v, rfl⟩ | ⟨c, o, rfl⟩ | ⟨n, o, rfl⟩
    · have h0 : e.ls = 0 := by simpa using hs
      exact execLcwMode_round h ok h0 (by rintro hnil; simp [hnil] at hne)
    · exact execLcwScopy_round h ok n d
    · exact execLcwEnd_round h
    · exact execLcwLit_round h ok bs
    · exact execLcwFill_round h ok c v
    · exact execLcwLcopy_round h ok c o
    · exact execLcwRcopy_round h ok n o

/-- One round of the block loop (R200). -/
theorem engineStep_block {e : BlockEngine} (h : s.engine = .block e) (hg : s.cfg.geometryOk = true)
    (ok : BlockEngine.Ok s e) : BlockRound s e (engineStep s) := by
  have hsrc := ok.source
  unfold engineStep fetch
  simp only [h]
  by_cases hend : e.input.length ≤ e.vs
  · rw [if_pos hend]
    exact ⟨_, rfl, .inr (.inr ⟨by simp [closeStream, h], by omega⟩)⟩
  · rw [if_neg hend]
    cases hd : decodeVp s.config (e.input.drop e.vs) with
    | error r =>
      rcases decodeVp_error hd with rfl | ⟨k, b, idx, rfl, hl⟩
      · simp only [Fetched.ofDecode, takeReject, withBlock_eq h]; exact blockRound_error (.inl rfl)
      · simp only [Fetched.ofDecode, takeReject, withBlock_eq h]; exact vpListOp_short hg _ _ _ hl
    | ok i =>
      simp only [Fetched.ofDecode]
      obtain ⟨hlen, hi⟩ := decodeVp_ok hd
      rw [List.length_drop] at hlen
      have h2 : e.vs + 2 ≤ e.input.length := by omega
      rcases hi with ⟨n, rfl⟩ | ⟨k, b, rfl⟩ | ⟨k, b, idx, rfl, hl⟩ | ⟨b, rfl⟩ | ⟨b, rfl⟩ | ⟨b, m, rfl⟩ | ⟨b, m, rfl⟩ |
        ⟨x, rfl⟩
      · exact execVpSkip_round h ok h2 n
      · exact execVpRepeat_round h ok hg h2 k b
      · rw [List.length_drop] at hl
        exact execVpList_round h ok hg k b idx (by omega)
      · exact execVpPut_round h ok hg h2 b
      · exact execVpPutk_round h ok hg h2 b
      · exact execVpRun_round h ok hg b m
      · exact execVpRunk_round h ok hg b m
      · exact execVpIllegal_round h x

/-- One round of the unit loop (R257). -/
theorem engineStep_adpcm {e : AdpcmEngine} (h : s.engine = .adpcm e) (ok : AdpcmEngine.Ok s e) :
    AdpcmRound s e (engineStep s) := by
  have hcount := ok.count
  unfold engineStep fetch
  simp only [h]
  by_cases hend : s.config.unitSamples.toNat ≤ e.ak
  · rw [if_pos hend]
    exact ⟨_, rfl, .inr ⟨by simp [closeStream, h], by omega⟩⟩
  · rw [if_neg hend]
    obtain ⟨code, hc⟩ := codeAt_isSome ok.unit (by omega : e.ak < s.config.unitSamples.toNat)
    simp only [hc]
    exact execAdCode_round h ok (by omega) _ _

/-! ### Running an operation to its end -/

theorem runEngine_idle {s : State} (h : s.engine = .idle) (fuel : Nat) : runEngine fuel s = .next s := by
  cases fuel <;> simp [runEngine, h]

theorem runEngine_succ {s t : State} (h : s.engine ≠ .idle) (ht : engineStep s = .next t) (fuel : Nat) :
    runEngine (fuel + 1) s = runEngine fuel t := by
  cases he : s.engine with
  | idle => exact absurd he h
  | lcw e => simp [runEngine, he, ht]
  | block e => simp [runEngine, he, ht]
  | adpcm e => simp [runEngine, he, ht]

/-- An LCW operation ends (R353): with an error of its stream, or with the codebook replaced by a sound working copy
whose window is full (R121, R165). -/
theorem runEngine_lcw {s : State} {e : LcwEngine} (h : s.engine = .lcw e) (ok : LcwEngine.Ok s e) {fuel : Nat}
    (hf : e.input.length < fuel + e.ls) :
    ∃ t, runEngine fuel s = .next t ∧
      ((∃ c n, isLcwCause c ∧ n ≤ e.input.length ∧ t = raiseError c n s) ∨
       (∃ e', LcwEngine.Ok s e' ∧ e'.dstOff = e.dstOff ∧ e'.outLen = e.outLen ∧ e'.lc = e'.outLen ∧
          t = commitLcw e' s)) := by
  induction fuel generalizing s e with
  | zero => have := ok.source; omega
  | succ fuel ih =>
    obtain ⟨t, ht, hcase⟩ := engineStep_lcw h ok
    rw [runEngine_succ (by simp [h]) ht]
    rcases hcase with ⟨c, hc, rfl⟩ | ⟨e1, rfl, hin, hdst, hout, hls, ok1⟩ | ⟨rfl, hl⟩
    · exact ⟨_, runEngine_idle rfl _, .inl ⟨c, e.ls, hc, ok.source, rfl⟩⟩
    · have ok1' : LcwEngine.Ok { s with engine := .lcw e1 } e1 :=
        ⟨ok1.source, ok1.limit, ok1.window, ok1.width, ok1.produced, ok1.canonical, ok1.inside, ok1.written, ok1.kept⟩
      obtain ⟨t, ht, hc⟩ := ih (s := { s with engine := .lcw e1 }) (e := e1) rfl ok1' (by rw [hin]; omega)
      refine ⟨t, ht, ?_⟩
      rcases hc with ⟨c, n, hc, hn, rfl⟩ | ⟨e2, ok2, hd2, ho2, hl2, rfl⟩
      · exact .inl ⟨c, n, hc, by rw [← hin]; exact hn, rfl⟩
      · exact .inr ⟨e2, ⟨ok2.source, ok2.limit, ok2.window, ok2.width, ok2.produced, ok2.canonical, ok2.inside,
          ok2.written, ok2.kept⟩, hd2.trans hdst, ho2.trans hout, hl2, rfl⟩
    · exact ⟨_, runEngine_idle rfl _, .inr ⟨e, ok, rfl, rfl, hl, rfl⟩⟩

/-- A block operation ends: with an error of its stream, or with the raster replaced by a sound working copy. -/
theorem runEngine_block {s : State} {e : BlockEngine} (h : s.engine = .block e) (hg : s.cfg.geometryOk = true)
    (ok : BlockEngine.Ok s e) {fuel : Nat} (hf : e.input.length < fuel + e.vs) :
    ∃ t, runEngine fuel s = .next t ∧
      ((∃ c n, isBlockCause c ∧ n ≤ e.input.length ∧ t = raiseError c n s) ∨
       (∃ e', BlockEngine.Ok s e' ∧ t = commitBlock e' s)) := by
  induction fuel generalizing s e with
  | zero => have := ok.source; omega
  | succ fuel ih =>
    obtain ⟨t, ht, hcase⟩ := engineStep_block h hg ok
    rw [runEngine_succ (by simp [h]) ht]
    rcases hcase with ⟨c, hc, rfl⟩ | ⟨e1, rfl, hin, hvs, ok1⟩ | ⟨rfl, hl⟩
    · exact ⟨_, runEngine_idle rfl _, .inl ⟨c, e.vs, hc, ok.source, rfl⟩⟩
    · have ok1' : BlockEngine.Ok { s with engine := .block e1 } e1 :=
        ⟨ok1.source, ok1.limit, ok1.dest, ok1.canonical, ok1.inside⟩
      obtain ⟨t, ht, hc⟩ := ih (s := { s with engine := .block e1 }) (e := e1) rfl hg ok1' (by rw [hin]; omega)
      refine ⟨t, ht, ?_⟩
      rcases hc with ⟨c, n, hc, hn, rfl⟩ | ⟨e2, ok2, rfl⟩
      · exact .inl ⟨c, n, hc, by rw [← hin]; exact hn, rfl⟩
      · exact .inr ⟨e2, ⟨ok2.source, ok2.limit, ok2.dest, ok2.canonical, ok2.inside⟩, rfl⟩
    · exact ⟨_, runEngine_idle rfl _, .inr ⟨e, ok, rfl⟩⟩

/-- An ADPCM operation ends with the whole unit decoded. -/
theorem runEngine_adpcm {s : State} {e : AdpcmEngine} (h : s.engine = .adpcm e) (ok : AdpcmEngine.Ok s e) {fuel : Nat}
    (hf : s.config.unitSamples.toNat < fuel + e.ak) :
    ∃ t, runEngine fuel s = .next t ∧
      ∃ e', AdpcmEngine.Ok s e' ∧ e'.ak = s.config.unitSamples.toNat ∧ t = commitAdpcm e' s := by
  induction fuel generalizing s e with
  | zero => have := ok.count; omega
  | succ fuel ih =>
    obtain ⟨t, ht, hcase⟩ := engineStep_adpcm h ok
    rw [runEngine_succ (by simp [h]) ht]
    rcases hcase with ⟨e1, rfl, hin, hak, ok1⟩ | ⟨rfl, hl⟩
    · have ok1' : AdpcmEngine.Ok { s with engine := .adpcm e1 } e1 :=
        ⟨ok1.unit, ok1.count, ok1.offset, ok1.index, ok1.canonical, ok1.inside⟩
      obtain ⟨t, ht, e2, ok2, hk2, rfl⟩ := ih (s := { s with engine := .adpcm e1 }) (e := e1) rfl ok1' (by simp only; omega)
      exact ⟨_, ht, e2, ⟨ok2.unit, ok2.count, ok2.offset, ok2.index, ok2.canonical, ok2.inside⟩, hk2, rfl⟩
    · exact ⟨_, runEngine_idle rfl _, e, ok, hl, rfl⟩

end Sys2Proof.Machine
end

