-- ==== Sys2Proof/Laws/PerInstr.lean ====
section
/-!
SUPPORT. Laws/PerInstr.lean: statements made per instruction. `EncLength`: the encoding of a stream command has the
length the formats give it (30_encoding.md R81, R82); an ADPCM code and a host operation occupy no whole bytes of a
stream (R80, R85).
-/

namespace Sys2Proof.Laws.EncLength

open Sys2Proof

def Statement (i : Instr) : Prop := (encodeBytes i).length = i.length

theorem lcwMode : Statement .lcwMode := rfl
theorem lcwScopy (n : BitVec 3) (dist : BitVec 12) : Statement (.lcwScopy n dist) := rfl
theorem lcwEnd : Statement .lcwEnd := rfl
theorem lcwLit (bytes : List Byte) : Statement (.lcwLit bytes) := Nat.add_comm _ _
theorem lcwFill (cnt : BitVec 16) (val : Byte) : Statement (.lcwFill cnt val) := rfl
theorem lcwLcopy (cnt off : BitVec 16) : Statement (.lcwLcopy cnt off) := rfl
theorem lcwRcopy (n : BitVec 6) (off : BitVec 16) : Statement (.lcwRcopy n off) := rfl
theorem vpSkip (n : BitVec 13) : Statement (.vpSkip n) := rfl
theorem vpRepeat (k : BitVec 5) (b : BitVec 8) : Statement (.vpRepeat k b) := rfl
theorem vpList (k : BitVec 5) (b : BitVec 8) (idx : List Byte) : Statement (.vpList k b idx) := Nat.add_comm _ 2
theorem vpPut (b : BitVec 13) : Statement (.vpPut b) := rfl
theorem vpPutk (b : BitVec 13) : Statement (.vpPutk b) := rfl
theorem vpRun (b : BitVec 13) (m : Byte) : Statement (.vpRun b m) := rfl
theorem vpRunk (b : BitVec 13) (m : Byte) : Statement (.vpRunk b m) := rfl
theorem vpIllegal (x : BitVec 13) : Statement (.vpIllegal x) := rfl
theorem adCode (s : BitVec 1) (m : BitVec 3) : Statement (.adCode s m) := rfl
theorem reset : Statement .reset := rfl
theorem config (p : ConfigOperands) : Statement (.config p) := rfl
theorem cbUpdate (dstOff outLen : BitVec 32) (payload : List Byte) : Statement (.cbUpdate dstOff outLen payload) := rfl
theorem vptrExpand (payload : List Byte) : Statement (.vptrExpand payload) := rfl
theorem adpcmSetparam (idx : BitVec 16) (pred : BitVec 32) : Statement (.adpcmSetparam idx pred) := rfl
theorem adpcmDecode (payload : List Byte) : Statement (.adpcmDecode payload) := rfl
theorem readRaster (x y : BitVec 16) : Statement (.readRaster x y) := rfl
theorem readPcm (k : BitVec 16) : Statement (.readPcm k) := rfl
theorem readReg (n : BitVec 8) : Statement (.readReg n) := rfl

end Sys2Proof.Laws.EncLength
end

