-- ==== Sys2Proof/Tests/Slice0.lean ====
section
/-!
SUPPORT. Tests/Slice0.lean: tests of the model against words and vectors written out from the spec
(30_encoding.md R81 to R100, 95_test_vectors.md), and witnesses that the statements' hypotheses can be met together.
-/

namespace Sys2Proof.Tests

open Sys2Proof Sys2Proof.Machine

/-! ### Small states -/

/-- A small instance: eight samples in a unit (95_test_vectors.md P3). -/
def smallConfig : Config := { Config.default with unitSamples := 8 }

/-- The same without the long forms. -/
def shortForms : Config := { smallConfig with lcwLongForms := false }

/-- The operands `cfgS` of 95_test_vectors.md. -/
def opsS : ConfigOperands := ⟨8, 8, 4, 4, 2, 0, 0, 8, 8, 64, 64, 0, 1, 16⟩

/-- The operands `cfgV` of 95_test_vectors.md. -/
def opsV : ConfigOperands := ⟨8, 8, 2, 2, 300, 0, 0, 8, 8, 4096, 4096, 0, 1, 16⟩

/-- After reset, with the small instance. -/
def fresh : State := { State.reset with config := smallConfig }

/-- `cfgS` done; codebook as after frame 2 of vector S1: block 0 solid `001F`, block 1 alternating `83E0`, `7C00`. -/
def readyS : State := { fresh with
  configured := true
  cfg := CfgRegs.ofOperands opsS
  cb := writeBytes [] 0 ((List.replicate 16 [0x1F, 0x00]).flatten ++ (List.replicate 8 [0xE0, 0x83, 0x00, 0x7C]).flatten) }

/-- `cfgV` done; the blocks of the vectors' codebook that the tests use. -/
def readyV : State := { fresh with
  configured := true
  cfg := CfgRegs.ofOperands opsV
  cb := writeBytes (writeBytes (writeBytes (writeBytes [] 0 [0x00, 0, 0x01, 0, 0x02, 0, 0x03, 0,
    0x10, 0, 0x11, 0, 0x12, 0, 0x13, 0, 0x20, 0, 0x21, 0, 0x22, 0, 0x23, 0, 0x30, 0, 0x31, 0, 0x32, 0, 0x33, 0])
    40 [0x50, 0x00, 0x51, 0x80, 0x52, 0x80, 0x53, 0x00]) 56 [0x70, 0, 0x71, 0, 0x72, 0, 0x73, 0])
    2392 [0xB0, 0x12, 0xB1, 0x12, 0xB2, 0x12, 0xB3, 0x12] }

/-- A `CB_UPDATE` in progress on `readyS`: `out_len = outLen`, window at 0, `lc` bytes produced. -/
def lcwAt (input : List Byte) (outLen ls : Nat) (produced : List Byte) (lrel : Bool) : State :=
  { readyS with engine := .lcw ⟨input, 0, outLen, ls, produced.length, lrel, writeBytes [] 0 produced⟩ }

/-- A `VPTR_EXPAND` in progress on `readyV`. -/
def blockAt (input : List Byte) (vs vd : Nat) : State :=
  { readyV with engine := .block ⟨input, vs, vd, []⟩ }

/-- A `VPTR_EXPAND` in progress on `readyS`, at its first byte. -/
def blockOnS (input : List Byte) (vd : Nat) : State :=
  { readyS with engine := .block ⟨input, 0, vd, []⟩ }

/-- An `ADPCM_DECODE` in progress on `readyS`, from the given pair. -/
def adpcmAt (input : List Byte) (ak : Nat) (index : BitVec 7) (pred : BitVec 16) : State :=
  { readyS with engine := .adpcm ⟨input, ak / 2, ak, index, pred, []⟩ }

/-- What `f` sees in the next state, if there is one. -/
def seen {α : Type} (r : Result) (f : State → α) : Option α :=
  match r with
  | .next t => some (f t)
  | .fault _ | .refused _ => none

/-- The produced bytes of the LCW operation in progress, from window index 0, and its cursors. -/
def lcwView (n : Nat) (s : State) : Option (List (Option Byte) × Nat × Nat) :=
  match s.engine with
  | .lcw e => some ((List.range n).map (Memory.get? e.work), e.ls, e.lc)
  | .idle | .block _ | .adpcm _ => none

/-- Two pixels of the working raster and the cursors of the block operation in progress. -/
def blockView (x y x' y' : Nat) (s : State) : Option (Option Pixel × Option Pixel × Nat × Nat) :=
  match s.engine with
  | .block e => some (Memory.get? e.work (rasKey x y), Memory.get? e.work (rasKey x' y'), e.vs, e.vd)
  | .idle | .lcw _ | .adpcm _ => none

/-- The pair and the cursor of the ADPCM operation in progress. -/
def adpcmView (s : State) : Option (Nat × Int × Nat) :=
  match s.engine with
  | .adpcm e => some (e.index.toNat, e.pred.toInt, e.ak)
  | .idle | .lcw _ | .block _ => none

/-! ### Ill-formed terms are refused (R81, R92, R164, R208) -/

theorem test_wf_refuses_empty_literal : Instr.wf Config.default (.lcwLit []) = false := by decide
theorem test_wf_refuses_long_literal : Instr.wf Config.default (.lcwLit (List.replicate 64 0)) = false := by decide
theorem test_wf_refuses_rcopy_count : Instr.wf Config.default (.lcwRcopy 62 0) = false := by decide
theorem test_wf_refuses_reserved_fill : Instr.wf shortForms (.lcwFill 1 0) = false := by decide
theorem test_wf_refuses_reserved_lcopy : Instr.wf shortForms (.lcwLcopy 1 0) = false := by decide
theorem test_wf_refuses_short_list : Instr.wf Config.default (.vpList 2 0 [1]) = false := by decide
theorem test_wf_accepts_longest_literal : Instr.wf Config.default (.lcwLit (List.replicate 63 0)) = true := by decide

/-! ### Words written out from the formats of R81, R82, R85 and the record of R100, one per constructor -/

theorem test_decode_mode : decodeLcw Config.default true [0b00000000] = .ok .lcwMode := by decide
-- `0 nnn oooo`, `pppppppp`: n = 5, distance 0xA3C
theorem test_decode_scopy : decodeLcw Config.default true [0b01011010, 0b00111100] = .ok (.lcwScopy 5 0xA3C) := by decide
-- 0x00 away from the start of the payload is a short copy (R84)
theorem test_decode_scopy_zero : decodeLcw Config.default false [0b00000000, 0b00000001] = .ok (.lcwScopy 0 1) := by decide
theorem test_decode_end : decodeLcw Config.default true [0b10000000] = .ok .lcwEnd := by decide
-- `10 nnnnnn`: n = 2
theorem test_decode_lit : decodeLcw Config.default true [0b10000010, 0xAA, 0xBB] = .ok (.lcwLit [0xAA, 0xBB]) := by decide
theorem test_decode_fill : decodeLcw Config.default true [0b11111110, 0x34, 0x12, 0x77] = .ok (.lcwFill 0x1234 0x77) := by decide
theorem test_decode_lcopy :
    decodeLcw Config.default true [0b11111111, 0x34, 0x12, 0xCD, 0xAB] = .ok (.lcwLcopy 0x1234 0xABCD) := by decide
-- `11 nnnnnn`: n = 61, the last run copy
theorem test_decode_rcopy : decodeLcw Config.default true [0b11111101, 0xCD, 0xAB] = .ok (.lcwRcopy 61 0xABCD) := by decide
theorem test_decode_reserved : decodeLcw shortForms true [0b11111110, 0, 0, 0] = .error .lcwReserved := by decide
-- opcode in bits 15:13, low byte first
theorem test_decode_skip : decodeVp Config.default [0b11001101, 0b00010010] = .ok (.vpSkip 0x12CD) := by decide
-- opcode 1, K = 0b10010, B = 0xCD
theorem test_decode_repeat : decodeVp Config.default [0b11001101, 0b00110010] = .ok (.vpRepeat 0b10010 0xCD) := by decide
-- opcode 2, K = 2, B = 0xCD, two index bytes
theorem test_decode_list :
    decodeVp Config.default [0b11001101, 0b01000010, 7, 9, 5] = .ok (.vpList 2 0xCD [7, 9]) := by decide
theorem test_decode_put : decodeVp Config.default [0b11001101, 0b01110010] = .ok (.vpPut 0x12CD) := by decide
theorem test_decode_putk : decodeVp Config.default [0b11001101, 0b10010010] = .ok (.vpPutk 0x12CD) := by decide
theorem test_decode_run : decodeVp Config.default [0b11001101, 0b10110010, 6] = .ok (.vpRun 0x12CD 6) := by decide
theorem test_decode_runk : decodeVp Config.default [0b11001101, 0b11010010, 6] = .ok (.vpRunk 0x12CD 6) := by decide
theorem test_decode_illegal : decodeVp Config.default [0b11001101, 0b11110010] = .ok (.vpIllegal 0x12CD) := by decide
-- `s mmm`
theorem test_decode_code : decodeAd 0b1100 = .adCode 1 4 := by decide
-- low nibble first (R256)
theorem test_decode_nibbles : (codeAt Config.default [0x3C] 0, codeAt Config.default [0x3C] 1) = (some 0xC, some 0x3) := by
  decide

/-- Operand words that differ, for the record decoder. -/
def someArgs : HostOperands := ⟨opsS, 0x11, 0x22, 0x33, 0x44, 0x55, 0x66, 0x77, 0x08⟩

theorem test_decode_reset : decodeHost ⟨0, someArgs, []⟩ = .ok .reset := by decide
theorem test_decode_config : decodeHost ⟨1, someArgs, []⟩ = .ok (.config opsS) := by decide
theorem test_decode_cb_update : decodeHost ⟨2, someArgs, [9]⟩ = .ok (.cbUpdate 0x11 0x22 [9]) := by decide
theorem test_decode_vptr_expand : decodeHost ⟨3, someArgs, [9]⟩ = .ok (.vptrExpand [9]) := by decide
theorem test_decode_setparam : decodeHost ⟨4, someArgs, []⟩ = .ok (.adpcmSetparam 0x33 0x44) := by decide
theorem test_decode_adpcm_decode : decodeHost ⟨5, someArgs, [9]⟩ = .ok (.adpcmDecode [9]) := by decide
theorem test_decode_read_raster : decodeHost ⟨6, someArgs, []⟩ = .ok (.readRaster 0x55 0x66) := by decide
theorem test_decode_read_pcm : decodeHost ⟨7, someArgs, []⟩ = .ok (.readPcm 0x77) := by decide
theorem test_decode_read_reg : decodeHost ⟨8, someArgs, []⟩ = .ok (.readReg 0x08) := by decide
theorem test_decode_bad_operation : decodeHost ⟨9, someArgs, []⟩ = .error .badHostOp := by decide

/-! ### LCW commands (95_test_vectors.md 2.1) -/

-- Z2, L5: the mode byte
theorem test_mode : (seen (execLcwMode (lcwAt [0x00, 0x80] 0 0 [] false)) fun s =>
    match s.engine with | .lcw e => some (e.ls, e.lrel) | .idle | .block _ | .adpcm _ => none) = some (some (1, true)) := by
  decide
-- L2: an overlapping short copy
theorem test_scopy_overlap : seen (execLcwScopy 2 2 (lcwAt [0x82, 0xAA, 0xBB, 0x20, 0x02, 0x80] 7 3 [0xAA, 0xBB] false))
    (lcwView 7) = some (some ([some 0xAA, some 0xBB, some 0xAA, some 0xBB, some 0xAA, some 0xBB, some 0xAA], 5, 7)) := by
  decide
-- E5: a distance beyond the produced output
theorem test_scopy_bad_offset : seen (execLcwScopy 0 2 (lcwAt [0x81, 0x01, 0x00, 0x02, 0x80] 4 2 [0x01] false))
    (fun s => (s.status, s.info)) = some (0x0442, 2) := by decide
-- E2: the window is not full
theorem test_end_mismatch : seen (execLcwEnd (lcwAt [0x83, 1, 2, 3, 0x80] 4 4 [1, 2, 3] false))
    (fun s => (s.status, s.info)) = some (0x0444, 4) := by decide
-- L1: the literal
theorem test_lit : seen (execLcwLit [0x11, 0x22, 0x33] (lcwAt [0x83, 0x11, 0x22, 0x33, 0x80] 3 0 [] false)) (lcwView 3) =
    some (some ([some 0x11, some 0x22, some 0x33], 4, 3)) := by decide
-- E1: no room
theorem test_lit_overrun : seen (execLcwLit [1, 2, 3] (lcwAt [0x83, 1, 2, 3, 0x80] 2 0 [] false))
    (fun s => (s.status, s.info)) = some (0x0443, 0) := by decide
-- L3: the fill
theorem test_fill : seen (execLcwFill 5 0x77 (lcwAt [0x81, 0x5A, 0xFE, 5, 0, 0x77, 0x80] 6 2 [0x5A] false)) (lcwView 6) =
    some (some ([some 0x5A, some 0x77, some 0x77, some 0x77, some 0x77, some 0x77], 6, 6)) := by decide
-- R92: reserved without the long forms
theorem test_fill_reserved : seen (execLcwFill 5 0x77
    { lcwAt [0xFE, 5, 0, 0x77, 0x80] 6 0 [] false with config := shortForms }) (fun s => (s.status, s.info)) =
    some (0x0445, 0) := by decide
-- L7: a relative long copy
theorem test_lcopy_relative : seen (execLcwLcopy 5 2 (lcwAt [0, 0x82, 0x10, 0x20, 0xFF, 5, 0, 2, 0, 0x80] 7 4 [0x10, 0x20] true))
    (lcwView 7) = some (some ([some 0x10, some 0x20, some 0x10, some 0x20, some 0x10, some 0x20, some 0x10], 9, 7)) := by
  decide
-- Z4: a zero-count copy at lc = 0 does not check its offset
theorem test_lcopy_zero : seen (execLcwLcopy 0 0 (lcwAt [0xFF, 0, 0, 0, 0, 0x80] 0 0 [] false)) (lcwView 0) =
    some (some ([], 5, 0)) := by decide
-- L4: absolute run copy; the fourth byte read is the first one written
theorem test_rcopy_absolute : seen (execLcwRcopy 1 1 (lcwAt [0x84, 1, 2, 3, 4, 0xC1, 1, 0, 0x80] 8 5 [1, 2, 3, 4] false))
    (lcwView 8) = some (some ([some 1, some 2, some 3, some 4, some 2, some 3, some 4, some 2], 8, 8)) := by decide
-- L5: the same command in relative mode
theorem test_rcopy_relative : seen (execLcwRcopy 1 1 (lcwAt [0, 0x84, 1, 2, 3, 4, 0xC1, 1, 0, 0x80] 8 6 [1, 2, 3, 4] true))
    (lcwView 8) = some (some ([some 1, some 2, some 3, some 4, some 4, some 4, some 4, some 4], 9, 8)) := by decide

/-! ### Block-pointer commands (95_test_vectors.md 2.2) -/

-- V9 and V8: a skip of the whole grid, and one beyond it
theorem test_skip : seen (execVpSkip 16 (blockAt [0x10, 0x00] 0 0)) (blockView 0 0 7 7) = some (some (none, none, 2, 16)) := by
  decide
theorem test_skip_overrun : seen (execVpSkip 17 (blockAt [0x11, 0x00] 0 0)) (fun s => (s.status, s.info)) =
    some (0x044C, 0) := by decide
-- V1: two blocks
theorem test_repeat : seen (execVpRepeat 0 3 (blockAt [0x03, 0x20] 0 0)) (blockView 2 1 4 0) =
    some (some (some 0x0032, none, 2, 2)) := by decide
-- V12: a run past the grid
theorem test_repeat_overrun : seen (execVpRepeat 7 3 (blockAt [0x01, 0x00, 0x03, 0x27] 2 1)) (fun s => (s.status, s.info)) =
    some (0x044C, 2) := by decide
-- V4: the addressed block, then the index bytes
theorem test_list : seen (execVpList 2 1 [2, 7] (blockAt [0x01, 0x42, 0x02, 0x07] 0 0)) (blockView 2 0 5 1) =
    some (some (some 0x0020, some 0x0073, 4, 3)) := by decide
-- V3: block 299 at destination block 3; and V2: block 300 does not exist
theorem test_put : seen (execVpPut 299 (blockAt [3, 0, 0x2B, 0x61, 5, 0x80] 2 3)) (blockView 6 0 7 1) =
    some (some (some 0x12B0, some 0x12B3, 4, 4)) := by decide
theorem test_put_bad_block : seen (execVpPut 300 (blockAt [3, 0, 0x2C, 0x61] 2 3)) (fun s => (s.status, s.info)) =
    some (0x044B, 2) := by decide
-- V3: pixels 1 and 2 of block 5 are keyed
theorem test_putk : seen (execVpPutk 5 (blockAt [3, 0, 0x2B, 0x61, 5, 0x80] 4 4)) (blockView 0 2 1 2) =
    some (some (some 0x0050, none, 6, 5)) := by decide
-- V5: a run of none
theorem test_run_none : seen (execVpRun 9 0 (blockAt [0x09, 0xA0, 0x00] 0 0)) (blockView 0 0 7 7) =
    some (some (none, none, 3, 0)) := by decide
-- V6: a keyed run
theorem test_runk : seen (execVpRunk 5 2 (blockAt [2, 0, 5, 0xC0, 2, 1, 0x60] 2 2)) (blockView 7 1 6 1) =
    some (some (some 0x0053, none, 5, 4)) := by decide
-- V7: opcode 7
theorem test_illegal : seen (execVpIllegal 0 (blockAt [0x00, 0xE0] 0 0)) (fun s => (s.status, s.info)) =
    some (0x044A, 0) := by decide

/-! ### ADPCM codes (95_test_vectors.md 2.3) -/

-- A2, first code: code 15 at index 0
theorem test_code_subtract : seen (execAdCode 1 7 (adpcmAt [0x7F, 0, 0, 0] 0 0 0)) adpcmView = some (some (8, -11, 1)) := by
  decide +kernel
-- A4, first code: both clamps
theorem test_code_clamp : seen (execAdCode 0 7 (adpcmAt [0x07, 0, 0, 0] 0 88 32767)) adpcmView =
    some (some (88, 32767, 1)) := by decide +kernel

/-! ### Host operations (95_test_vectors.md 2.5, S1, P1, P3, P4) -/

theorem test_reset : seen (execReset readyS) (fun s => (s.configured, s.cfg, s.status, s.cb)) =
    some (false, CfgRegs.zero, 0, []) := by decide
-- H3: configured once only; H5: 1 + 2 * 4 > 8
theorem test_config_twice : seen (execConfig opsS readyS) (fun s => (s.status, s.cfg)) =
    some (0x0111, CfgRegs.ofOperands opsS) := by decide
theorem test_config_geometry : seen (execConfig { opsS with xoff := 1 } fresh) (fun s => (s.status, s.configured)) =
    some (0x0112, false) := by decide
-- P1: every LCW command, relative mode
theorem test_cb_update : seen (execCbUpdate 8 17 [0x00, 0x83, 1, 2, 3, 0x10, 3, 0xC0, 2, 0, 0xFE, 3, 0, 0xEE,
      0xFF, 4, 0, 0x0A, 0, 0x80] readyS)
    (fun s => ((List.range 17).map (fun i => Memory.get? s.cb (8 + i)), s.status)) =
    some ([1, 2, 3, 1, 2, 3, 1, 3, 1, 3, 0xEE, 0xEE, 0xEE, 1, 2, 3, 1].map some, 0) := by decide +kernel
-- E11: the window check comes first
theorem test_cb_update_window : seen (execCbUpdate 62 3 [0x83, 0x11, 0x22, 0x33, 0x80] readyS)
    (fun s => (s.status, s.info)) = some (0x0331, 0) := by decide
-- S1 frame 0: a uniform raster
theorem test_vptr_expand : seen (execVptrExpand [0, 0x60, 0, 0x60, 0, 0x60, 0, 0x60] readyS)
    (fun s => (s.ras.map Prod.snd, s.status)) = some (List.replicate 64 0x001F, 0) := by decide +kernel
-- P4.1: the error of the second command discards the first
theorem test_vptr_expand_error : seen (execVptrExpand [0x01, 0x60, 0x00, 0xE0] readyS)
    (fun s => (s.ras, s.status, s.info)) = some ([], 0x044A, 2) := by decide +kernel
-- H10 and H8
theorem test_setparam : seen (execAdpcmSetparam 88 0xFFFF8000 readyS) (fun s => (s.aIndex.toNat, s.aPred.toInt)) =
    some (88, -32768) := by decide
theorem test_setparam_bad : seen (execAdpcmSetparam 89 0 readyS) (fun s => (s.status, s.aIndex)) = some (0x0451, 0) := by
  decide
-- P3: a unit of eight samples; A17: a unit of the wrong length
theorem test_adpcm_decode : seen (execAdpcmDecode [0x7F, 0x17, 0x98, 0x04] readyS)
    (fun s => (s.pcm.map (fun p => p.2.toInt), s.aIndex.toNat, s.aPred.toInt)) =
    some ([-11, 19, 82, 109, 101, 79, 140, 148], 22, 148) := by decide +kernel
theorem test_adpcm_decode_length : seen (execAdpcmDecode [0x7F, 0x17, 0x98] readyS) (fun s => (s.status, s.pcm)) =
    some (0x0450, []) := by decide
-- H11: a failing read leaves STATUS alone
theorem test_read_raster_range : seen (execReadRaster 8 0 readyS) (fun s => (s.resp, s.status)) =
    some (some ⟨0x0332, 0⟩, 0) := by decide
theorem test_read_raster : seen (execReadRaster 3 2 { readyS with ras := [(rasKey 3 2, 0x83E0)] }) (fun s => s.resp) =
    some (some ⟨0, 0x83E0⟩) := by decide
-- a negative sample keeps its sign
theorem test_read_pcm : seen (execReadPcm 1 { readyS with pcm := [(0, 7), (1, 0xFFF5)] }) (fun s => s.resp) =
    some (some ⟨0, -11⟩) := by decide
-- H2; and A_PRED is sign-extended (H10)
theorem test_read_reg_unconfigured : seen (execReadReg 2 fresh) (fun s => s.resp) = some (some ⟨0, 0⟩) := by decide
theorem test_read_reg_signed : seen (execReadReg 4 { readyS with aPred := 0x8000 }) (fun s => s.resp) =
    some (some ⟨0, -32768⟩) := by decide

/-- A table word runs as the first instruction after reset: opcode 7, and `VP.RUN` with its byte `M`. -/
theorem test_table_words : decodeTableWord 16 0xE000 = some (.vpIllegal 0) ∧ decodeTableWord 24 0x04A009 = some (.vpRun 9 4) ∧
    decodeTableWord 8 0x80 = some .lcwEnd ∧ decodeTableWord 8 7 = some (.readPcm 0) ∧
    decodeTableWord 4 0x9 = some (.adCode 1 1) ∧
    seen (step (State.withFetchWord State.reset 16 0xE000)) (fun s => s.status) = some 0x044A := by decide +kernel

/-! ### Witnesses: every statement's hypotheses can be met together

`witness_<Name>` meets the hypotheses of `Obligations.<Name>`; a statement of several clauses has one part per clause, at
a boundary of its range. -/

/-- The configured test machine meets the invariant. -/
theorem readyS_inv : readyS.Inv := by
  refine ⟨by decide, by decide, by decide, by decide, ?_, ?_, by decide, by decide, by decide, trivial⟩ <;>
    intro p hp <;> exact absurd hp (List.not_mem_nil)

theorem readyS_idle : readyS.engine = .idle ∧ readyS.configured = true := ⟨rfl, rfl⟩

/-- 63 bytes follow the control bytes at the borders of every range of R87; a reserved byte ends a payload, at its start
and away from it. -/
theorem witness_LcwControlByteMap : 63 ≤ (List.replicate 63 (0 : Byte)).length ∧
    ([0x00, 0x7F, 0x80, 0x81, 0xBF, 0xC0, 0xFD, 0xFE, 0xFF].map fun c =>
      match decodeLcw Config.default false (c :: List.replicate 63 (0 : Byte)) with
      | .ok (.lcwScopy _ _) => 1 | .ok .lcwEnd => 2 | .ok (.lcwLit _) => 3 | .ok (.lcwRcopy _ _) => 4
      | .ok (.lcwFill _ _) => 5 | .ok (.lcwLcopy _ _) => 6 | .ok _ => 0 | .error _ => 0) = [1, 1, 2, 3, 3, 4, 4, 5, 6] ∧
    shortForms.lcwLongForms = false ∧ 0xFE ≤ (0xFE : Byte).toNat ∧
    (let s := { lcwAt [0xFE] 0 0 [] false with config := shortForms }
     s.engine = .lcw ⟨[0xFE], 0, 0, 0, 0, false, []⟩ ∧ s.config = shortForms ∧ ([0xFE] : List Byte).drop 0 = 0xFE :: []) ∧
    (let s := { lcwAt [0x81, 7, 0xFF] 1 2 [7] false with config := shortForms }
     s.engine = .lcw ⟨[0x81, 7, 0xFF], 0, 1, 2, 1, false, [(0, 7)]⟩ ∧ s.config = shortForms ∧
       ([0x81, 7, 0xFF] : List Byte).drop 2 = 0xFF :: []) := by decide +kernel

theorem witness_VpOpcodeMap : (∀ k : BitVec 5, Config.default.extraOf k ≤ (9 :: List.replicate 31 (0 : Byte)).length) ∧
    (List.range 8).map (fun op => (0xCD + 256 * (32 * op + 0x1F)) / 8192) = List.range 8 := by decide

theorem witness_AdpcmPacking : ([0x11, 0x7F] : List Byte)[1]? = some 0x7F ∧ Config.default.lowNibbleFirst = true ∧
    ({ Config.default with lowNibbleFirst := false } : Config).lowNibbleFirst = false := by decide

theorem witness_HostOperationNumbers : (⟨8, someArgs, []⟩ : HostRequest).op = 8 ∧
    9 ≤ (⟨9, someArgs, []⟩ : HostRequest).op.toNat := by decide

/-- One well-formed instruction of each kind, the two 0x00 forms among them. -/
theorem witness_DecodeOfEncode : Instr.wf Config.default .lcwMode = true ∧ Instr.wf Config.default (.lcwScopy 0 1) = true ∧
    encode (.lcwScopy 0 1) = .lcw [0x00, 0x01] ∧ Instr.wf Config.default (.vpList 31 0 (List.replicate 31 1)) = true ∧
    Instr.wf Config.default (.adCode 1 7) = true ∧ Instr.wf Config.default (.config opsS) = true := by decide

theorem witness_EncodeOfDecode : decodeLcw Config.default false [0xC0, 1, 0, 9] = .ok (.lcwRcopy 0 1) ∧
    decodeVp Config.default [0x01, 0x42, 2, 7, 9] = .ok (.vpList 2 1 [2, 7]) ∧
    decodeHost ⟨8, someArgs, []⟩ = .ok (.readReg 8) := by decide

/-- A fetch of each of the four kinds. -/
theorem witness_StepRunsFetched :
    (let s := { readyS with pending := [⟨8, someArgs, []⟩] }
     s.engine = .idle ∧ s.pending = [⟨8, someArgs, []⟩] ∧ decodeHost ⟨8, someArgs, []⟩ = .ok (.readReg 8)) ∧
    ((lcwAt [0x80] 0 0 [] false).engine = .lcw ⟨[0x80], 0, 0, 0, 0, false, []⟩ ∧
      decodeLcw smallConfig true [0x80] = .ok .lcwEnd) ∧
    ((blockAt [0x04, 0x00] 0 0).engine = .block ⟨[0x04, 0x00], 0, 0, []⟩ ∧ decodeVp smallConfig [0x04, 0x00] = .ok (.vpSkip 4)) ∧
    ((adpcmAt [0x7F] 1 0 0).engine = .adpcm ⟨[0x7F], 0, 1, 0, 0, []⟩ ∧ codeAt smallConfig [0x7F] 1 = some 7) := by decide

theorem witness_BadOperationNumber : 9 ≤ (⟨9, someArgs, [1]⟩ : HostRequest).op.toNat ∧
    (let s := { readyS with pending := [⟨9, someArgs, [1]⟩] }
     s.engine = .idle ∧ s.pending = [⟨9, someArgs, [1]⟩]) := by decide

theorem witness_IdleCoreWaits : State.reset.engine = .idle ∧ State.reset.pending = [] := by decide

/-- E9, V10, V11 of 95_test_vectors.md, and each LCW format one byte short, at the ends of its control byte's range. -/
theorem witness_StreamUnderruns :
    ((lcwAt [] 0 0 [] false).engine = .lcw ⟨[], 0, 0, 0, 0, false, []⟩ ∧ ([] : List Byte).length ≤ 0) ∧
    ((lcwAt [0x80, 0x00] 0 1 [] false).engine = .lcw ⟨[0x80, 0x00], 0, 0, 1, 0, false, []⟩ ∧
      ([0x80, 0x00] : List Byte).drop 1 = [0x00] ∧ ¬((1 : Nat) = 0 ∧ (0x00 : Byte).toNat = 0)) ∧
    ((0x7F : Byte).toNat ≤ 0x7F ∧ ([] : List Byte).length < 1) ∧
    (0x81 ≤ (0xBF : Byte).toNat ∧ (0xBF : Byte).toNat ≤ 0xBF ∧
      (List.replicate 62 (0 : Byte)).length < (0xBF : Byte).toNat - 0x80) ∧
    (0xC0 ≤ (0xC0 : Byte).toNat ∧ (0xFD : Byte).toNat ≤ 0xFD ∧ ([0] : List Byte).length < 2) ∧
    (smallConfig.lcwLongForms = true ∧ (0xFE : Byte).toNat = 0xFE ∧ ([0, 0] : List Byte).length < 3) ∧
    (smallConfig.lcwLongForms = true ∧ (0xFF : Byte).toNat = 0xFF ∧ ([0, 0, 0] : List Byte).length < 4) ∧
    ((blockAt [0x10, 0x00, 0x00] 2 16).engine = .block ⟨[0x10, 0, 0], 2, 16, []⟩ ∧ ([0x10, 0, 0] : List Byte).length = 2 + 1) ∧
    ([0x09, 0xA0] : List Byte) = vpBytes 5 9 ∧ ([0x09, 0xC0] : List Byte) = vpBytes 6 9 := by decide

/-- Commands one byte short are no commands, whole ones are; 0x00 is whole at payload offset 0 only (R81, R84). -/
theorem test_lcwCut :
    decodeLcw smallConfig false [0x00] = .error .lcwUnderrun ∧ decodeLcw smallConfig true [0x00] = .ok .lcwMode ∧
    decodeLcw smallConfig true [0x81] = .error .lcwUnderrun ∧ decodeLcw smallConfig true [0xC0, 1] = .error .lcwUnderrun ∧
    decodeLcw smallConfig true [0xFE, 1, 2] = .error .lcwUnderrun ∧
    decodeLcw smallConfig true [0xFF, 1, 2, 3] = .error .lcwUnderrun ∧
    decodeLcw shortForms true [0xFF] = .error .lcwReserved := by decide

theorem witness_BlockStreamEnds : (blockAt [] 0 0).engine = .block ⟨[], 0, 0, []⟩ ∧ 0 = ([] : List Byte).length := by decide

theorem witness_UnitEnds : (adpcmAt [1, 2, 3, 4] 8 5 (-3)).engine = .adpcm ⟨[1, 2, 3, 4], 4, 8, 5, -3, []⟩ ∧
    8 = smallConfig.unitSamples.toNat := by decide

/-- A failing read and a failing operation (R134, R121). -/
theorem witness_AllOrNothing : readyS.Inv ∧ readyS.engine = .idle ∧ isCommand (.readRaster 8 0) = false ∧
    (seen (exec (.readRaster 8 0) readyS) fun t => t.resp) = some (some ⟨0x0332, 0⟩) ∧
    (seen (exec (.vptrExpand [0, 0xE0]) readyS) fun t => t.resp) = some (some ⟨0x044A, 0⟩) :=
  ⟨readyS_inv, rfl, by decide, by decide, by decide⟩

theorem witness_EveryOperationAnswers : readyS.Inv ∧ readyS.engine = .idle ∧ isCommand .reset = false :=
  ⟨readyS_inv, rfl, rfl⟩

theorem witness_ResetEffect : readyS.engine = .idle := rfl

theorem witness_FreshMemoriesAreFree :
    (∃ t, exec .reset readyS = .next t) ∧ (∃ p t, exec (.config p) fresh = .next t ∧ t.status = statusOk) :=
  ⟨⟨_, rfl⟩, opsS, _, rfl, rfl⟩

/-- The four outcomes: configured already, `XOFF` one too large, two channels, and `cfgS` whose grid fills the raster. -/
theorem witness_ConfigOutcome : readyS.configured = true ∧ fresh.configured = false ∧ fresh.engine = .idle ∧
    (CfgRegs.ofOperands { opsS with xoff := 1 }).geometryOk = false ∧ (CfgRegs.ofOperands opsS).geometryOk = true ∧
    audioBad smallConfig { opsS with aCh := 2 } = true ∧ audioBad smallConfig opsS = false := by decide

theorem witness_NotConfiguredComesFirst : fresh.engine = .idle ∧ fresh.configured = false := by decide

theorem witness_ConfigurationIsImmutable : readyS.configured = true ∧ (∃ t, exec (.config opsV) readyS = .next t) ∧
    (∃ t, exec (.vpSkip 4) (blockAt [4, 0] 0 0) = .next t) := ⟨rfl, ⟨_, rfl⟩, ⟨_, rfl⟩⟩

theorem witness_ParametersNeverChange : ∃ t, exec (.readReg 0) readyS = .next t := ⟨_, rfl⟩

/-- The last pixel and the first coordinates outside. -/
theorem witness_ReadRasterOutcome : fresh.configured = false ∧ readyS.configured = true ∧
    readyS.cfg.rw.toNat ≤ (8 : BitVec 16).toNat ∧ readyS.cfg.rh.toNat ≤ (8 : BitVec 16).toNat ∧
    (7 : BitVec 16).toNat < readyS.cfg.rw.toNat ∧ (7 : BitVec 16).toNat < readyS.cfg.rh.toNat := by decide

theorem witness_ReadPcmOutcome : fresh.configured = false ∧ readyS.configured = true ∧
    readyS.config.unitSamples.toNat ≤ (8 : BitVec 16).toNat ∧ (7 : BitVec 16).toNat < readyS.config.unitSamples.toNat := by
  decide

theorem witness_ReadRegOutcome : readyS.engine = .idle ∧ 17 ≤ (17 : BitVec 8).toNat := by decide

/-- One byte past the codebook, exactly at its end; one byte over each limit, exactly at it. -/
theorem witness_PayloadChecks : readyS.engine = .idle ∧ readyS.configured = true ∧
    readyS.cfg.cbBytes < (62 : BitVec 32).toNat + (3 : BitVec 32).toNat ∧
    (62 : BitVec 32).toNat + (2 : BitVec 32).toNat ≤ readyS.cfg.cbBytes ∧
    readyS.cfg.maxCbf.toNat < (List.replicate 65 (0 : Byte)).length ∧
    (List.replicate 64 (0 : Byte)).length ≤ readyS.cfg.maxCbf.toNat ∧
    readyS.cfg.maxVptr.toNat < (List.replicate 65 (0 : Byte)).length ∧
    (List.replicate 64 (0 : Byte)).length ≤ readyS.cfg.maxVptr.toNat := by decide

theorem witness_OperationIsItsCommands : readyS.Inv ∧ readyS.engine = .idle ∧ readyS.configured = true ∧
    (0 : BitVec 32).toNat + (64 : BitVec 32).toNat ≤ readyS.cfg.cbBytes ∧
    ([0x80] : List Byte).length ≤ readyS.cfg.maxCbf.toNat ∧ ([0x04, 0x00] : List Byte).length ≤ readyS.cfg.maxVptr.toNat ∧
    ([1, 2, 3, 4] : List Byte).length = (readyS.config.unitSamples.toNat + 1) / 2 :=
  ⟨readyS_inv, rfl, rfl, by decide, by decide, by decide, by decide⟩

theorem witness_CbUpdateOutcome : readyS.Inv ∧ readyS.engine = .idle ∧ readyS.configured = true ∧
    (62 : BitVec 32).toNat + (2 : BitVec 32).toNat ≤ readyS.cfg.cbBytes ∧
    ([0x82, 1, 2, 0x80] : List Byte).length ≤ readyS.cfg.maxCbf.toNat :=
  ⟨readyS_inv, rfl, rfl, by decide, by decide⟩

/-- No byte, and the 62 bytes whose stream just fits the limit of 64. -/
theorem witness_LiteralStreamRoundTrip : readyS.Inv ∧ readyS.engine = .idle ∧ readyS.configured = true ∧
    ((0 : BitVec 32).toNat = ([] : List Byte).length ∧ (literalStream []).length ≤ readyS.cfg.maxCbf.toNat) ∧
    ((62 : BitVec 32).toNat = (List.replicate 62 (7 : Byte)).length ∧
      (2 : BitVec 32).toNat + (List.replicate 62 (7 : Byte)).length ≤ readyS.cfg.cbBytes ∧
      (literalStream (List.replicate 62 7)).length ≤ readyS.cfg.maxCbf.toNat) :=
  ⟨readyS_inv, rfl, rfl, by decide, by decide⟩

theorem witness_LcwModePrefix : (lcwAt [0, 0x80] 0 0 [] false).engine = .lcw ⟨[0, 0x80], 0, 0, 0, 0, false, []⟩ ∧
    (0x80 : Byte) ≠ 0 ∧ decodeLcw smallConfig true [0x80] = .ok .lcwEnd := by decide

/-- A source one byte short, a room one byte short, and both exactly enough, in a window inside the codebook. -/
theorem witness_LcwLitRule : (lcwAt [0x82, 1, 2] 2 0 [] false).engine = .lcw ⟨[0x82, 1, 2], 0, 2, 0, 0, false, []⟩ ∧
    (lcwAt [0x82, 1, 2] 1 0 [] false).engine = .lcw ⟨[0x82, 1, 2], 0, 1, 0, 0, false, []⟩ ∧
    (lcwAt [0x82, 1] 2 0 [] false).engine = .lcw ⟨[0x82, 1], 0, 2, 0, 0, false, []⟩ ∧
    ([0x82, 1] : List Byte).length < 0 + (1 + ([1, 2] : List Byte).length) ∧
    0 + (1 + ([1, 2] : List Byte).length) ≤ ([0x82, 1, 2] : List Byte).length ∧
    1 < 0 + ([1, 2] : List Byte).length ∧ 0 + ([1, 2] : List Byte).length ≤ 2 ∧ 0 + 2 ≤ readyS.cfg.cbBytes := by decide

theorem witness_LcwFillRule : (lcwAt [0xFE, 2, 0, 9] 2 0 [] false).engine = .lcw ⟨[0xFE, 2, 0, 9], 0, 2, 0, 0, false, []⟩ ∧
    (lcwAt [0xFE, 2, 0, 9] 1 0 [] false).engine = .lcw ⟨[0xFE, 2, 0, 9], 0, 1, 0, 0, false, []⟩ ∧
    (lcwAt [0xFE, 2, 0] 2 0 [] false).engine = .lcw ⟨[0xFE, 2, 0], 0, 2, 0, 0, false, []⟩ ∧
    shortForms.lcwLongForms = false ∧ smallConfig.lcwLongForms = true ∧ ([0xFE, 2, 0] : List Byte).length < 0 + 4 ∧
    0 + 4 ≤ ([0xFE, 2, 0, 9] : List Byte).length ∧ 1 < 0 + (2 : BitVec 16).toNat ∧ 0 + (2 : BitVec 16).toNat ≤ 2 ∧
    0 + 2 ≤ readyS.cfg.cbBytes := by decide

/-- Distances 0, `lc + 1` (bad) and `lc` (good), at `lc = 2`; a room one byte short and exactly enough. -/
theorem witness_LcwScopyRule :
    (lcwAt [0x82, 1, 2, 0x00, 0x02] 5 3 [1, 2] false).engine =
      .lcw ⟨[0x82, 1, 2, 0x00, 0x02], 0, 5, 3, 2, false, [(0, 1), (1, 2)]⟩ ∧
    ([0x82, 1, 2, 0x00] : List Byte).length < 3 + 2 ∧ 3 + 2 ≤ ([0x82, 1, 2, 0x00, 0x02] : List Byte).length ∧
    ((0 : BitVec 12).toNat = 0 ∨ 2 < (0 : BitVec 12).toNat) ∧ ((3 : BitVec 12).toNat = 0 ∨ 2 < (3 : BitVec 12).toNat) ∧
    ¬((2 : BitVec 12).toNat = 0 ∨ 2 < (2 : BitVec 12).toNat) ∧ 4 < 2 + ((0 : BitVec 3).toNat + 3) ∧
    2 + ((0 : BitVec 3).toNat + 3) ≤ 5 ∧ 0 + 5 ≤ readyS.cfg.cbBytes := by decide

/-- At `lc = 2`: relative offsets 0 and 3 are bad, 2 is good; absolute offset 2 is bad, 1 is good. -/
theorem witness_LcwRcopyRule :
    (lcwAt [0x82, 1, 2, 0xC0, 1, 0] 5 3 [1, 2] false).engine =
      .lcw ⟨[0x82, 1, 2, 0xC0, 1, 0], 0, 5, 3, 2, false, [(0, 1), (1, 2)]⟩ ∧
    (lcwAt [0x82, 1, 2, 0xC0, 1, 0] 5 3 [1, 2] true).engine =
      .lcw ⟨[0x82, 1, 2, 0xC0, 1, 0], 0, 5, 3, 2, true, [(0, 1), (1, 2)]⟩ ∧
    ([0x82, 1, 2, 0xC0, 1] : List Byte).length < 3 + 3 ∧ 3 + 3 ≤ ([0x82, 1, 2, 0xC0, 1, 0] : List Byte).length ∧
    ((0 : BitVec 16).toNat = 0 ∨ 2 < (0 : BitVec 16).toNat) ∧ ((3 : BitVec 16).toNat = 0 ∨ 2 < (3 : BitVec 16).toNat) ∧
    ¬((2 : BitVec 16).toNat = 0 ∨ 2 < (2 : BitVec 16).toNat) ∧ 2 ≤ (2 : BitVec 16).toNat ∧ ¬ 2 ≤ (1 : BitVec 16).toNat ∧
    4 < 2 + ((0 : BitVec 6).toNat + 3) ∧ 2 + ((0 : BitVec 6).toNat + 3) ≤ 5 ∧ 0 + 5 ≤ readyS.cfg.cbBytes := by decide

/-- As for the run copy, with a count of one; and a count of zero at a full window. -/
theorem witness_LcwLcopyRule :
    (lcwAt [0x82, 1, 2, 0xFF, 1, 0, 1, 0] 3 3 [1, 2] false).engine =
      .lcw ⟨[0x82, 1, 2, 0xFF, 1, 0, 1, 0], 0, 3, 3, 2, false, [(0, 1), (1, 2)]⟩ ∧
    shortForms.lcwLongForms = false ∧ smallConfig.lcwLongForms = true ∧
    ([0x82, 1, 2, 0xFF, 1, 0, 1] : List Byte).length < 3 + 5 ∧ 3 + 5 ≤ ([0x82, 1, 2, 0xFF, 1, 0, 1, 0] : List Byte).length ∧
    (0 : BitVec 16) = 0 ∧ 2 ≤ 2 ∧ (1 : BitVec 16) ≠ 0 ∧ 2 ≤ (2 : BitVec 16).toNat ∧ ¬ 2 ≤ (1 : BitVec 16).toNat ∧
    2 < 2 + (1 : BitVec 16).toNat ∧ 2 + (1 : BitVec 16).toNat ≤ 3 ∧ 0 + 3 ≤ readyS.cfg.cbBytes := by decide

theorem witness_LcwEndOutcome :
    (lcwAt [0x80] 0 0 [] false).engine = .lcw ⟨[0x80], 0, 0, 0, 0, false, []⟩ ∧ (0 : Nat) = 0 ∧
    (lcwAt [0x80] 1 0 [] false).engine = .lcw ⟨[0x80], 0, 1, 0, 0, false, []⟩ ∧ (0 : Nat) ≠ 1 := by decide

/-- The last block of the grid, and the one next to it. -/
theorem witness_GridLiesInRaster : readyS.cfg.geometryOk = true ∧ 3 < readyS.cfg.nblk ∧ 2 < readyS.cfg.nblk ∧
    readyS.cfg.inBlock 3 (rasKey 7 7) :=
  ⟨by decide, by decide, by decide, 3, 3, by decide, by decide, by decide⟩

theorem witness_VptrExpandOutcome : readyS.Inv ∧ readyS.engine = .idle ∧ readyS.configured = true ∧
    (List.replicate 64 (0 : Byte)).length ≤ readyS.cfg.maxVptr.toNat := ⟨readyS_inv, rfl, rfl, by decide⟩

theorem witness_SkipWholeFrame : readyS.engine = .idle ∧ readyS.configured = true ∧ (4 : BitVec 13).toNat = readyS.cfg.nblk ∧
    2 ≤ readyS.cfg.maxVptr.toNat := by decide

theorem witness_SolidFrame : readyS.Inv ∧ readyS.engine = .idle ∧ readyS.configured = true ∧
    (0 : BitVec 13).toNat < readyS.cfg.maxBlocks.toNat ∧ 2 * readyS.cfg.nblk ≤ readyS.cfg.maxVptr.toNat ∧
    (∀ x y, x < readyS.cfg.bw.toNat → y < readyS.cfg.bh.toNat → cbPixel readyS (0 : BitVec 13).toNat x y = 0x001F) := by
  refine ⟨readyS_inv, rfl, rfl, by decide, by decide, ?_⟩
  have h : ∀ x, x < 4 → ∀ y, y < 4 → cbPixel readyS 0 x y = 0x001F := by decide +kernel
  exact fun x y hx hy => h x hx y hy

/-- Exactly to the end of the grid, and one beyond. -/
theorem witness_VpSkipOutcome : (blockAt [0x0F, 0] 0 1).engine = .block ⟨[0x0F, 0], 0, 1, []⟩ ∧
    1 + (15 : BitVec 13).toNat ≤ readyV.cfg.nblk ∧ readyV.cfg.nblk < 1 + (16 : BitVec 13).toNat := by decide

/-- The first block that does not exist, the last that does; the last destination, and none left. -/
theorem witness_VpPutRule : (blockAt [0x2B, 0x61] 0 15).engine = .block ⟨[0x2B, 0x61], 0, 15, []⟩ ∧
    (blockAt [0x2B, 0x61] 0 16).engine = .block ⟨[0x2B, 0x61], 0, 16, []⟩ ∧
    readyV.cfg.geometryOk = true ∧ readyV.cfg.maxBlocks.toNat ≤ (300 : BitVec 13).toNat ∧
    (299 : BitVec 13).toNat < readyV.cfg.maxBlocks.toNat ∧ readyV.cfg.nblk ≤ 16 ∧ 15 < readyV.cfg.nblk := by decide

theorem witness_VpRepeatRule : (blockOnS [0x01, 0x21] 0).engine = .block ⟨[0x01, 0x21], 0, 0, []⟩ ∧
    readyS.cfg.geometryOk = true ∧ readyS.cfg.maxBlocks.toNat ≤ (2 : BitVec 8).toNat ∧
    (1 : BitVec 8).toNat < readyS.cfg.maxBlocks.toNat ∧ readyS.cfg.nblk < 0 + 2 * ((2 : BitVec 5).toNat + 1) ∧
    0 + 2 * ((1 : BitVec 5).toNat + 1) ≤ readyS.cfg.nblk := by decide

theorem witness_VpListEffect : (blockAt [0x01, 0x42, 2, 7] 0 13).engine = .block ⟨[0x01, 0x42, 2, 7], 0, 13, []⟩ ∧
    readyV.cfg.geometryOk = true ∧ ([2, 7] : List Byte).length = smallConfig.extraOf 2 ∧
    (∀ v ∈ ([1, 2, 7] : List Byte), v.toNat < readyV.cfg.maxBlocks.toNat) ∧ 13 + (1 + 2) ≤ readyV.cfg.nblk := by decide

/-- `M` missing; a block that does not exist; one destination too many; `M = 0` with any block; exactly to the end. -/
theorem witness_VpRunRule : (blockAt [0x01, 0xA0, 4] 0 12).engine = .block ⟨[0x01, 0xA0, 4], 0, 12, []⟩ ∧
    readyV.cfg.geometryOk = true ∧ ([0x01, 0xA0] : List Byte).length < 0 + 3 ∧ 0 + 3 ≤ ([0x01, 0xA0, 4] : List Byte).length ∧
    (4 : Byte) ≠ 0 ∧ readyV.cfg.maxBlocks.toNat ≤ (300 : BitVec 13).toNat ∧
    (299 : BitVec 13).toNat < readyV.cfg.maxBlocks.toNat ∧ readyV.cfg.nblk < 12 + (5 : Byte).toNat ∧
    12 + (4 : Byte).toNat ≤ readyV.cfg.nblk := by decide

/-- The second block decides. Whole command (`K = 1`): it does not exist, or no destination is left for it. Cut short
(`K = 2` with one index byte): the same two, and the next index byte missing after it. -/
theorem witness_VpListErrors : readyS.cfg.geometryOk = true ∧ (1 : Byte).toNat < readyS.cfg.maxBlocks.toNat ∧
    readyS.cfg.maxBlocks.toNat ≤ (2 : Byte).toNat ∧ 1 < ([1, 2] : List Byte).length ∧
    (([2] : List Byte).length = readyS.config.extraOf 1 ∧ ([1] : List Byte).length = readyS.config.extraOf 1) ∧
    (0 + 1 ≤ readyS.cfg.nblk ∧ 3 + 1 = readyS.cfg.nblk ∧ 0 + 1 < readyS.cfg.nblk ∧ 1 = ([1] : List Byte).length) ∧
    (([2] : List Byte).length < readyS.config.extraOf 2 ∧
      (blockOnS [0x01, 0x42, 2] 0).engine = .block ⟨[0x01, 0x42, 2], 0, 0, []⟩ ∧
      ([0x01, 0x42, 2] : List Byte) = vpBytes 2 ((2 : BitVec 5) ++ (1 : BitVec 8)) ++ [2]) ∧
    (([1] : List Byte).length < readyS.config.extraOf 2 ∧
      (blockOnS [0x01, 0x42, 1] 3).engine = .block ⟨[0x01, 0x42, 1], 0, 3, []⟩ ∧
      (blockOnS [0x01, 0x42, 1] 0).engine = .block ⟨[0x01, 0x42, 1], 0, 0, []⟩ ∧
      ([0x01, 0x42, 1] : List Byte) = vpBytes 2 ((2 : BitVec 5) ++ (1 : BitVec 8)) ++ [1]) := by decide

theorem witness_VpIllegalOpcode : (blockAt [0, 0xE0] 0 0).engine = .block ⟨[0, 0xE0], 0, 0, []⟩ := rfl

theorem witness_CommandsWorkOnACopy : isCommand (.vpSkip 4) = true ∧
    ∃ t, exec (.vpSkip 4) (blockAt [4, 0] 0 0) = .next t ∧ t.engine ≠ .idle := ⟨rfl, _, rfl, by decide⟩

/-- The borders of both ranges. -/
theorem witness_SetparamOutcome : readyS.engine = .idle ∧ fresh.configured = false ∧ readyS.configured = true ∧
    ((88 : BitVec 16).toNat ≤ 88 ∧ -32768 ≤ (0xFFFF8000 : BitVec 32).toInt ∧ (0xFFFF8000 : BitVec 32).toInt ≤ 32767) ∧
    ((0 : BitVec 16).toNat ≤ 88 ∧ -32768 ≤ (32767 : BitVec 32).toInt ∧ (32767 : BitVec 32).toInt ≤ 32767) ∧
    88 < (89 : BitVec 16).toNat ∧ (0xFFFF7FFF : BitVec 32).toInt < -32768 ∧ 32767 < (32768 : BitVec 32).toInt := by decide

theorem witness_AdCodeEffect : (adpcmAt [1, 2, 3, 4] 7 0 0).engine = .adpcm ⟨[1, 2, 3, 4], 3, 7, 0, 0, []⟩ ∧
    7 < smallConfig.unitSamples.toNat := by decide

theorem witness_AdpcmDecodeOutcome : readyS.engine = .idle ∧ fresh.configured = false ∧ readyS.configured = true ∧
    ([1, 2, 3] : List Byte).length ≠ (readyS.config.unitSamples.toNat + 1) / 2 ∧
    ([1, 2, 3, 4] : List Byte).length = (readyS.config.unitSamples.toNat + 1) / 2 := by decide

/-- `UNIT_SAMPLES = 5`, both nibble orders (95_test_vectors.md P3: `98` or `08`). -/
theorem witness_SpareNibbleIsIgnored :
    ({ readyS with config := { smallConfig with unitSamples := 5 } } : State).configured = true ∧
    (5 : BitVec 16).toNat = 2 * ([0x7F, 0x17] : List Byte).length + 1 ∧
    (0x98 : Byte).extractLsb' 0 4 = (0x08 : Byte).extractLsb' 0 4 ∧
    (0x89 : Byte).extractLsb' 4 4 = (0x80 : Byte).extractLsb' 4 4 := by decide

theorem witness_AudioRestart : readyS.Inv ∧ readyS.engine = .idle ∧ readyS.configured = true ∧ fresh.engine = .idle ∧
    fresh.config = readyS.config ∧ CfgRegs.ofOperands opsS = readyS.cfg ∧ audioBad readyS.config opsS = false ∧
    ([1, 2, 3, 4] : List Byte).length = (readyS.config.unitSamples.toNat + 1) / 2 :=
  ⟨readyS_inv, rfl, rfl, rfl, rfl, rfl, by decide, by decide⟩

theorem witness_AudioVideoIndependent : (∃ t, exec (.adpcmSetparam 1 2) readyS = .next t) ∧
    (∃ t, exec (.readPcm 0) readyS = .next t) ∧ (∃ t, exec (.vptrExpand []) readyS = .next t) ∧
    (∃ t, exec (.readRaster 0 0) readyS = .next t) := ⟨⟨_, rfl⟩, ⟨_, rfl⟩, ⟨_, rfl⟩, ⟨_, rfl⟩⟩

theorem witness_StepKeepsInvariant : readyS.Inv ∧ ∃ t, step readyS = .next t := ⟨readyS_inv, _, rfl⟩

theorem witness_StepNeverStops : readyS.Inv := readyS_inv

end Sys2Proof.Tests
end

section
/-!
SUPPORT. Totality and frame of the instructions (00_scope.md R8, R19): no instruction writes the build parameters or the
request queue, a host operation runs to its end and answers, and from a state that meets the invariant a step never
stops.
-/

namespace Sys2Proof.Machine

variable {s : State}

/-! ### The parameters and the queue are written by nothing -/

/-- A result that goes on leaves the build parameters and the request queue of `s` alone. -/
def KeepsParams (s : State) (r : Result) : Prop :=
  ∀ t, r = .next t → t.config = s.config ∧ t.pending = s.pending

@[simp] theorem keepsParams_next {t : State} :
    KeepsParams s (.next t) ↔ t.config = s.config ∧ t.pending = s.pending := by
  simp [KeepsParams]

@[simp] theorem keepsParams_fault {f : Fault} : KeepsParams s (.fault f) := nofun

@[simp] theorem keepsParams_refused {f : Refusal} : KeepsParams s (.refused f) := nofun

theorem keepsParams_ite {c : Prop} [Decidable c] {a b : Result} (ha : KeepsParams s a) (hb : KeepsParams s b) :
    KeepsParams s (if c then a else b) := by
  split
  · exact ha
  · exact hb

theorem KeepsParams.trans {t : State} {r : Result} (h : KeepsParams s (.next t)) (hr : KeepsParams t r) :
    KeepsParams s r := by
  intro u hu
  obtain ⟨hc, hp⟩ := keepsParams_next.1 h
  obtain ⟨hc', hp'⟩ := hr u hu
  exact ⟨hc'.trans hc, hp'.trans hp⟩

theorem keepsParams_raiseError (c : Cause) (n : Nat) : KeepsParams s (.next (raiseError c n s)) := by simp

/-! The gates on the operation in progress. -/

theorem keepsParams_withLcw {f : LcwEngine → Result} (h : ∀ e, KeepsParams s (f e)) :
    KeepsParams s (withLcw s f) := by
  unfold withLcw
  split
  · exact h _
  all_goals exact keepsParams_refused

theorem keepsParams_withBlock {f : BlockEngine → Result} (h : ∀ e, KeepsParams s (f e)) :
    KeepsParams s (withBlock s f) := by
  unfold withBlock
  split
  · exact h _
  all_goals exact keepsParams_refused

theorem keepsParams_withAdpcm {f : AdpcmEngine → Result} (h : ∀ e, KeepsParams s (f e)) :
    KeepsParams s (withAdpcm s f) := by
  unfold withAdpcm
  split
  · exact h _
  all_goals exact keepsParams_refused

theorem keepsParams_whenIdle {r : Result} (h : KeepsParams s r) : KeepsParams s (whenIdle s r) := by
  unfold whenIdle
  split
  · exact h
  all_goals exact keepsParams_refused

theorem keepsParams_whenConfigured {r : Result} (h : KeepsParams s r) : KeepsParams s (whenConfigured s r) :=
  keepsParams_whenIdle (keepsParams_ite h (keepsParams_raiseError _ _))

theorem keepsParams_readWhenConfigured {r : Result} (h : KeepsParams s r) :
    KeepsParams s (readWhenConfigured s r) :=
  keepsParams_whenIdle (keepsParams_ite h (by simp))

/-! The shared operations of the stream commands. -/

theorem keepsParams_lcwAdvance (len count : Nat) (work : Memory 8) (e : LcwEngine) :
    KeepsParams s (lcwAdvance len count work e s) :=
  keepsParams_ite keepsParams_fault (by simp)

theorem keepsParams_lcwProduce (len count : Nat) (work : Memory 8) (e : LcwEngine) :
    KeepsParams s (lcwProduce len count work e s) :=
  keepsParams_ite (keepsParams_raiseError _ _)
    (keepsParams_ite (keepsParams_raiseError _ _) (keepsParams_lcwAdvance _ _ _ _))

theorem keepsParams_lcwCopy (len count : Nat) (source : Option Nat) (e : LcwEngine) :
    KeepsParams s (lcwCopy len count source e s) := by
  refine keepsParams_ite (keepsParams_raiseError _ _) ?_
  cases source with
  | none => exact keepsParams_raiseError _ _
  | some src => exact keepsParams_ite (keepsParams_raiseError _ _) (keepsParams_lcwAdvance _ _ _ _)

theorem keepsParams_blockResult (len : Nat) (e : BlockEngine) (r : Except PutStop BlockEngine) :
    KeepsParams s (blockResult len e s r) := by
  rcases r with (c | _) | e'
  · exact keepsParams_raiseError _ _
  · exact keepsParams_fault
  · simp [blockResult]

theorem keepsParams_vpRunOp (keyed : Bool) (b : BitVec 13) (m : Byte) (e : BlockEngine) :
    KeepsParams s (vpRunOp keyed b m e s) :=
  keepsParams_ite (keepsParams_raiseError _ _) (keepsParams_blockResult _ _ _)

/-! The main loop. -/

theorem keepsParams_runCommand (i : Instr) : KeepsParams s (runCommand i s) := by
  cases i with
  | lcwMode => exact keepsParams_withLcw fun e => by simp
  | lcwScopy n dist => exact keepsParams_withLcw fun e => keepsParams_lcwCopy _ _ _ e
  | lcwEnd => exact keepsParams_withLcw fun e => keepsParams_ite (keepsParams_raiseError _ _) (by simp)
  | lcwLit bytes => exact keepsParams_withLcw fun e => keepsParams_lcwProduce _ _ _ e
  | lcwFill cnt val =>
    exact keepsParams_withLcw fun e => keepsParams_ite (keepsParams_raiseError _ _) (keepsParams_lcwProduce _ _ _ e)
  | lcwLcopy cnt off =>
    exact keepsParams_withLcw fun e => keepsParams_ite (keepsParams_raiseError _ _)
      (keepsParams_ite (keepsParams_ite (keepsParams_raiseError _ _) (keepsParams_lcwAdvance _ _ _ e))
        (keepsParams_lcwCopy _ _ _ e))
  | lcwRcopy n off => exact keepsParams_withLcw fun e => keepsParams_lcwCopy _ _ _ e
  | vpSkip n => exact keepsParams_withBlock fun e => keepsParams_ite (keepsParams_raiseError _ _) (by simp)
  | vpRepeat k b => exact keepsParams_withBlock fun e => keepsParams_blockResult _ e _
  | vpList k b idx => exact keepsParams_withBlock fun e => keepsParams_blockResult _ e _
  | vpPut b => exact keepsParams_withBlock fun e => keepsParams_blockResult _ e _
  | vpPutk b => exact keepsParams_withBlock fun e => keepsParams_blockResult _ e _
  | vpRun b m => exact keepsParams_withBlock fun e => keepsParams_vpRunOp _ b m e
  | vpRunk b m => exact keepsParams_withBlock fun e => keepsParams_vpRunOp _ b m e
  | vpIllegal x => exact keepsParams_withBlock fun e => keepsParams_raiseError _ _
  | adCode sgn m => exact keepsParams_withAdpcm fun e => keepsParams_ite keepsParams_fault (by simp)
  | reset | config | cbUpdate | vptrExpand | adpcmSetparam | adpcmDecode | readRaster | readPcm | readReg =>
    exact keepsParams_refused

theorem keepsParams_takeReject (r : Reject) : KeepsParams s (takeReject r s) := by
  cases r with
  | lcwUnderrun | lcwReserved => exact keepsParams_withLcw fun e => keepsParams_raiseError _ _
  | vpUnderrun => exact keepsParams_withBlock fun e => keepsParams_raiseError _ _
  | vpListCut k b idx => exact keepsParams_withBlock fun e => keepsParams_blockResult _ e _
  | badHostOp => exact keepsParams_raiseError _ _

theorem keepsParams_closeStream : KeepsParams s (.next (closeStream s)) := by
  unfold closeStream
  split <;> simp

theorem keepsParams_engineStep : KeepsParams s (engineStep s) := by
  unfold engineStep
  split
  · simp
  · exact keepsParams_runCommand _
  · exact keepsParams_closeStream
  · exact keepsParams_takeReject _
  · exact keepsParams_fault

theorem keepsParams_runEngine (fuel : Nat) : KeepsParams s (runEngine fuel s) := by
  induction fuel generalizing s with
  | zero => simp [runEngine]
  | succ fuel ih =>
    have hround := keepsParams_engineStep (s := s)
    unfold runEngine
    split
    · exact keepsParams_next.2 ⟨rfl, rfl⟩
    all_goals
      split
      next t ht =>
        rw [ht] at hround
        exact hround.trans ih
      · exact keepsParams_fault
      · exact keepsParams_refused

/-- The start of an operation followed by its loop. -/
theorem keepsParams_runEngine_of {t : State} (h : KeepsParams s (.next t)) (fuel : Nat) :
    KeepsParams s (runEngine fuel t) :=
  h.trans (keepsParams_runEngine fuel)

theorem keepsParams_exec (i : Instr) : KeepsParams s (exec i s) := by
  by_cases hi : isCommand i = true
  · rw [← runCommand_eq_exec hi]
    exact keepsParams_runCommand i
  · cases i with
    | reset => exact keepsParams_whenIdle (by simp)
    | config p =>
      exact keepsParams_whenIdle (keepsParams_ite (keepsParams_raiseError _ _) (keepsParams_ite
        (keepsParams_raiseError _ _) (keepsParams_ite (keepsParams_raiseError _ _) (by simp))))
    | cbUpdate dstOff outLen payload =>
      exact keepsParams_whenConfigured (keepsParams_ite (keepsParams_raiseError _ _) (keepsParams_ite
        (keepsParams_raiseError _ _) (keepsParams_runEngine_of (by simp) _)))
    | vptrExpand payload =>
      exact keepsParams_whenConfigured (keepsParams_ite (keepsParams_raiseError _ _)
        (keepsParams_runEngine_of (by simp) _))
    | adpcmSetparam idx pred =>
      exact keepsParams_whenConfigured (keepsParams_ite (keepsParams_raiseError _ _) (by simp))
    | adpcmDecode payload =>
      exact keepsParams_whenConfigured (keepsParams_ite (keepsParams_raiseError _ _)
        (keepsParams_runEngine_of (by simp) _))
    | readRaster x y => exact keepsParams_readWhenConfigured (keepsParams_ite (by simp) (by simp))
    | readPcm k => exact keepsParams_readWhenConfigured (keepsParams_ite (by simp) (by simp))
    | readReg n =>
      refine keepsParams_whenIdle ?_
      split <;> simp
    | _ => exact absurd rfl hi

/-! ### A host operation runs to its end -/

theorem whenIdle_eq (h : s.engine = .idle) (r : Result) : whenIdle s r = r := by simp [whenIdle, h]

/-- A `CB_UPDATE` whose window and limit passed starts sound (R125, R126). -/
theorem beginLcw_ok (inv : s.Inv) {dstOff outLen : BitVec 32} {payload : List Byte}
    (hwin : dstOff.toNat + outLen.toNat ≤ s.cfg.cbBytes) (hlim : payload.length ≤ s.cfg.maxCbf.toNat) :
    LcwEngine.Ok (beginLcw dstOff outLen payload s) ⟨payload, dstOff.toNat, outLen.toNat, 0, 0, false, s.cb⟩ where
  source := Nat.zero_le _
  limit := hlim
  window := hwin
  width := outLen.isLt
  produced := Nat.zero_le _
  canonical := inv.cbCanonical
  inside := inv.cbInside
  written := nofun
  kept := fun _ _ => rfl

/-- A `VPTR_EXPAND` whose limit passed starts sound (R126, R200). -/
theorem beginBlock_ok (inv : s.Inv) {payload : List Byte} (hlim : payload.length ≤ s.cfg.maxVptr.toNat) :
    BlockEngine.Ok (beginBlock payload s) ⟨payload, 0, 0, s.ras⟩ where
  source := Nat.zero_le _
  limit := hlim
  dest := Nat.zero_le _
  canonical := inv.rasCanonical
  inside := inv.rasInside

/-- An `ADPCM_DECODE` whose length passed starts sound (R130, R257). -/
theorem beginAdpcm_ok (inv : s.Inv) {payload : List Byte} (hlen : payload.length = unitBytes s.config) :
    AdpcmEngine.Ok (beginAdpcm payload s) ⟨payload, 0, 0, s.aIndex, s.aPred, s.pcm⟩ where
  unit := hlen
  count := Nat.zero_le _
  offset := (Nat.zero_div 2).symm
  index := inv.indexRange
  canonical := inv.pcmCanonical
  inside := inv.pcmInside

/-- The result is a next state in which the core is idle and has answered (R119). -/
def Answers (r : Result) : Prop :=
  ∃ t x, r = .next t ∧ t.engine = .idle ∧ t.resp = some x

theorem answers_raiseError (c : Cause) (n : Nat) : Answers (.next (raiseError c n s)) := ⟨_, _, rfl, rfl, rfl⟩

theorem answers_finishOk : Answers (.next (finishOk s)) := ⟨_, _, rfl, rfl, rfl⟩

theorem answers_ite {c : Prop} [Decidable c] {a b : Result} (ha : c → Answers a) (hb : ¬c → Answers b) :
    Answers (if c then a else b) := by
  split
  · exact ha ‹_›
  · exact hb ‹_›

section
variable (idle : s.engine = .idle)
include idle

theorem answers_failRead (c : Cause) : Answers (.next (failRead c s)) := ⟨_, _, rfl, idle, rfl⟩

theorem answers_answerRead (v : Int) : Answers (.next (answerRead v s)) := ⟨_, _, rfl, idle, rfl⟩

theorem answers_whenConfigured {r : Result} (h : s.configured = true → Answers r) :
    Answers (whenConfigured s r) := by
  rw [whenConfigured, whenIdle_eq idle]
  exact answers_ite h fun _ => answers_raiseError _ _

theorem answers_readWhenConfigured {r : Result} (h : Answers r) : Answers (readWhenConfigured s r) := by
  rw [readWhenConfigured, whenIdle_eq idle]
  exact answers_ite (fun _ => h) fun _ => answers_failRead idle _

theorem execReset_answers : Answers (execReset s) := by
  rw [execReset, whenIdle_eq idle]
  exact answers_finishOk

theorem execConfig_answers (p : ConfigOperands) : Answers (execConfig p s) := by
  rw [execConfig, whenIdle_eq idle]
  exact answers_ite (fun _ => answers_raiseError _ _) fun _ => answers_ite (fun _ => answers_raiseError _ _) fun _ =>
    answers_ite (fun _ => answers_raiseError _ _) fun _ => answers_finishOk

theorem execAdpcmSetparam_answers (idx : BitVec 16) (pred : BitVec 32) : Answers (execAdpcmSetparam idx pred s) :=
  answers_whenConfigured idle fun _ => answers_ite (fun _ => answers_raiseError _ _) fun _ => answers_finishOk

theorem execReadRaster_answers (x y : BitVec 16) : Answers (execReadRaster x y s) :=
  answers_readWhenConfigured idle <|
    answers_ite (fun _ => answers_failRead idle _) fun _ => answers_answerRead idle _

theorem execReadPcm_answers (k : BitVec 16) : Answers (execReadPcm k s) :=
  answers_readWhenConfigured idle <|
    answers_ite (fun _ => answers_failRead idle _) fun _ => answers_answerRead idle _

theorem execReadReg_answers (n : BitVec 8) : Answers (execReadReg n s) := by
  rw [execReadReg, whenIdle_eq idle]
  split
  · exact answers_answerRead idle _
  · exact answers_failRead idle _

variable (inv : s.Inv)
include inv

theorem execCbUpdate_answers (dstOff outLen : BitVec 32) (payload : List Byte) :
    Answers (execCbUpdate dstOff outLen payload s) := by
  refine answers_whenConfigured idle fun _ => answers_ite (fun _ => answers_raiseError _ _) fun hwin =>
    answers_ite (fun _ => answers_raiseError _ _) fun hlim => ?_
  have ok := beginLcw_ok inv (Nat.le_of_not_lt hwin) (Nat.le_of_not_lt hlim)
  obtain ⟨t, ht, ⟨c, n, -, -, rfl⟩ | ⟨e', -, -, -, -, rfl⟩⟩ := runEngine_lcw rfl ok (Nat.lt_succ_self _)
  · exact ht ▸ answers_raiseError c n
  · exact ht ▸ answers_finishOk

theorem execVptrExpand_answers (payload : List Byte) : Answers (execVptrExpand payload s) := by
  refine answers_whenConfigured idle fun hconf => answers_ite (fun _ => answers_raiseError _ _) fun hlim => ?_
  have ok := beginBlock_ok inv (Nat.le_of_not_lt hlim)
  obtain ⟨t, ht, ⟨c, n, -, -, rfl⟩ | ⟨e', -, rfl⟩⟩ :=
    runEngine_block (s := beginBlock payload s) rfl (inv.geometry hconf) ok (Nat.lt_succ_self _)
  · exact ht ▸ answers_raiseError c n
  · exact ht ▸ answers_finishOk

theorem execAdpcmDecode_answers (payload : List Byte) : Answers (execAdpcmDecode payload s) := by
  refine answers_whenConfigured idle fun _ => answers_ite (fun _ => answers_raiseError _ _) fun hlen => ?_
  obtain ⟨t, ht, e', -, -, rfl⟩ :=
    runEngine_adpcm rfl (beginAdpcm_ok inv (not_not.1 hlen)) (Nat.lt_succ_self _)
  exact ht ▸ answers_finishOk

/-- Each of the nine host operations answers. -/
theorem exec_answers {i : Instr} (host : isCommand i = false) : Answers (exec i s) := by
  cases i with
  | reset => exact execReset_answers idle
  | config p => exact execConfig_answers idle p
  | cbUpdate dstOff outLen payload => exact execCbUpdate_answers idle inv dstOff outLen payload
  | vptrExpand payload => exact execVptrExpand_answers idle inv payload
  | adpcmSetparam idx pred => exact execAdpcmSetparam_answers idle idx pred
  | adpcmDecode payload => exact execAdpcmDecode_answers idle inv payload
  | readRaster x y => exact execReadRaster_answers idle x y
  | readPcm k => exact execReadPcm_answers idle k
  | readReg n => exact execReadReg_answers idle n
  | _ => exact absurd host (by simp [isCommand])

end

/-! ### A step goes on -/

/-- What `decodeHost` can answer: a host operation, or that the number is none (R91). -/
theorem decodeHost_cases (r : HostRequest) :
    (∃ i, decodeHost r = .ok i ∧ isCommand i = false) ∨ decodeHost r = .error .badHostOp := by
  unfold decodeHost
  split
  pick_goal -1
  · exact .inr rfl
  all_goals exact .inl ⟨_, rfl, rfl⟩

theorem ofDecode_eq_command {x : Except Reject Instr} {i : Instr} :
    Fetched.ofDecode x = .command i ↔ x = .ok i := by
  cases x <;> simp [Fetched.ofDecode]

theorem ofDecode_ne_idle (x : Except Reject Instr) : Fetched.ofDecode x ≠ .idle := by
  cases x <;> nofun

theorem fetch_eq_idle : fetch s = .idle ↔ s.engine = .idle := by
  unfold fetch
  split
  · simp_all
  · simp_all [ofDecode_ne_idle]
  · split <;> simp_all [ofDecode_ne_idle]
  · split
    · simp_all
    · split <;> simp_all

/-- The loop of an operation in progress fetches stream commands only. -/
theorem isCommand_of_fetch {i : Instr} (h : fetch s = .command i) : isCommand i = true := by
  unfold fetch at h
  split at h
  · cases h
  · rcases decodeLcw_ok (ofDecode_eq_command.1 h) with ⟨rfl, -⟩ | ⟨_, _, rfl⟩ | rfl | ⟨_, rfl⟩ | ⟨_, _, rfl⟩ |
      ⟨_, _, rfl⟩ | ⟨_, _, rfl⟩ <;> rfl
  · split at h
    · cases h
    · rcases (decodeVp_ok (ofDecode_eq_command.1 h)).2 with ⟨_, rfl⟩ | ⟨_, _, rfl⟩ | ⟨_, _, _, rfl, -⟩ | ⟨_, rfl⟩ |
        ⟨_, rfl⟩ | ⟨_, _, rfl⟩ | ⟨_, _, rfl⟩ | ⟨_, rfl⟩ <;> rfl
  · split at h
    · cases h
    · split at h <;> cases h
      rfl

/-- With an operation in progress a step is one round of its loop. -/
theorem step_eq_engineStep (h : s.engine ≠ .idle) : step s = engineStep s := by
  unfold step engineStep
  cases hf : fetch s with
  | idle => exact absurd (fetch_eq_idle.1 hf) h
  | command i => exact (runCommand_eq_exec (isCommand_of_fetch hf) s).symm
  | finished | rejected | hole => rfl

theorem goes_of_engineStep {t : State} (h : s.engine ≠ .idle) (ht : engineStep s = .next t) : s.Goes :=
  ⟨t, (step_eq_engineStep h).trans ht⟩

/-- Taking requests off the queue of an idle core keeps the invariant. -/
theorem inv_pending (inv : s.Inv) (idle : s.engine = .idle) (queue : List HostRequest) :
    State.Inv { s with pending := queue } :=
  ⟨inv.cbCanonical, inv.rasCanonical, inv.pcmCanonical, inv.cbInside, inv.rasInside, inv.pcmInside, inv.indexRange,
    inv.geometry, inv.unconfigured, by simp [State.EngineOk, idle]⟩

/-- An idle core waits, runs a host operation to its end, or raises `BAD_HOSTOP` (R20, R91, R340). -/
theorem goes_of_idle (inv : s.Inv) (idle : s.engine = .idle) : s.Goes := by
  unfold State.Goes step
  simp only [fetch_eq_idle.2 idle]
  cases s.pending with
  | nil => exact ⟨s, rfl⟩
  | cons r rest =>
    rcases decodeHost_cases r with ⟨i, hd, host⟩ | hd
    · obtain ⟨t, x, ht, -⟩ := exec_answers (s := { s with pending := rest }) idle (inv_pending inv idle rest) host
      simp only [hd]
      exact ⟨t, ht⟩
    · simp only [hd]
      exact ⟨_, rfl⟩

end Sys2Proof.Machine
end

section
/-!
CERTIFICATES. The obligations of the scope (00_scope.md): R8, R19, R21, R119, R353.
-/

namespace Sys2Proof.Proofs

open Sys2Proof.Machine

/-- Settles O24, from the frame lemmas of each arm of `exec`, by induction on the fuel of the stream loops. -/
theorem parametersNeverChange : Obligations.ParametersNeverChange :=
  fun _ t i => keepsParams_exec i t

/-- Settles O17: each operation with a stream starts sound and its loop ends within the bound of R353; the queue is as
before because no instruction writes it. -/
theorem everyOperationAnswers : Obligations.EveryOperationAnswers := by
  intro s i inv idle host
  obtain ⟨t, x, ht, hidle, hresp⟩ := exec_answers idle inv host
  exact ⟨t, x, ht, hidle, hresp, (parametersNeverChange s t i ht).2⟩

/-- Settles O59: idle, by the operation's totality; with an operation in progress, because a round of each sound loop
ends in a next state. -/
theorem stepNeverStops : Obligations.StepNeverStops := by
  intro s inv
  have sound := inv.engineOk
  unfold State.EngineOk at sound
  cases he : s.engine with
  | idle => exact goes_of_idle inv he
  | lcw e =>
    rw [he] at sound
    obtain ⟨t, ht, -⟩ := engineStep_lcw he sound.2
    exact goes_of_engineStep (by simp [he]) ht
  | block e =>
    rw [he] at sound
    obtain ⟨t, ht, -⟩ := engineStep_block he (inv.geometry sound.1) sound.2
    exact goes_of_engineStep (by simp [he]) ht
  | adpcm e =>
    rw [he] at sound
    obtain ⟨t, ht, -⟩ := engineStep_adpcm he sound.2
    exact goes_of_engineStep (by simp [he]) ht

end Sys2Proof.Proofs
end

section
/-!
SUPPORT. The step and its fetch (R27, R161, R200, R257), what a round of a stream and a `CONFIG` can do to the state, and
what a memory without entries reads as (R33).
-/

namespace Sys2Proof.Machine

variable {s t : State}

/-! ### What is fetched, and that the step runs it -/

theorem fetch_lcw {e : LcwEngine} (h : s.engine = .lcw e) :
    fetch s = Fetched.ofDecode (decodeLcw s.config (e.ls == 0) (e.input.drop e.ls)) := by
  simp [fetch, h]

theorem fetch_block {e : BlockEngine} (h : s.engine = .block e) (hvs : e.vs < e.input.length) :
    fetch s = Fetched.ofDecode (decodeVp s.config (e.input.drop e.vs)) := by
  simp [fetch, h, Nat.not_le.2 hvs]

theorem fetch_adpcm {e : AdpcmEngine} {code : BitVec 4} (h : s.engine = .adpcm e)
    (hak : e.ak < s.config.unitSamples.toNat) (hcode : codeAt s.config e.input e.ak = some code) :
    fetch s = .command (decodeAd code) := by
  simp [fetch, h, Nat.not_le.2 hak, hcode]

theorem step_of_fetch_command {i : Instr} (h : fetch s = .command i) : step s = exec i s := by
  simp [step, h]

theorem step_of_idle_request {r : HostRequest} {rest : List HostRequest} {i : Instr} (idle : s.engine = .idle)
    (hqueue : s.pending = r :: rest) (hdec : decodeHost r = .ok i) : step s = exec i { s with pending := rest } := by
  simp [step, fetch_eq_idle.2 idle, hqueue, hdec]

/-! ### What one round of a stream can do -/

/-- The ends of one command of a stream, in any state: the operation goes on, so that only the engine changed (log 2);
an error (R307); or the operation ends well and its working copy is committed (R121). -/
inductive StreamEffect (s : State) : State → Prop
  | goesOn (e : Engine) : StreamEffect s { s with engine := e }
  | error (c : Cause) (n : Nat) : StreamEffect s (raiseError c n s)
  | lcwEnds (e : LcwEngine) : StreamEffect s (commitLcw e s)
  | blockEnds (e : BlockEngine) : StreamEffect s (commitBlock e s)
  | adpcmEnds (e : AdpcmEngine) : StreamEffect s (commitAdpcm e s)

/-- A result that is a next state is an effect of a stream on `s`. -/
def HasStreamEffect (s : State) (r : Result) : Prop := ∀ t, r = .next t → StreamEffect s t

namespace HasStreamEffect

theorem next (h : StreamEffect s t) : HasStreamEffect s (.next t) := by
  rintro _ ⟨⟩
  exact h

theorem fault (f : Fault) : HasStreamEffect s (.fault f) := nofun

theorem refused (f : Refusal) : HasStreamEffect s (.refused f) := nofun

theorem error (c : Cause) (n : Nat) : HasStreamEffect s (.next (raiseError c n s)) := next (.error c n)

theorem goesOn (e : Engine) : HasStreamEffect s (.next { s with engine := e }) := next (.goesOn e)

theorem ite {c : Prop} [Decidable c] {a b : Result} (ha : HasStreamEffect s a) (hb : HasStreamEffect s b) :
    HasStreamEffect s (if c then a else b) := by
  split
  · exact ha
  · exact hb

theorem withLcw {f : LcwEngine → Result} (h : ∀ e, HasStreamEffect s (f e)) :
    HasStreamEffect s (withLcw s f) := by
  unfold Machine.withLcw
  split
  · exact h _
  all_goals exact refused _

theorem withBlock {f : BlockEngine → Result} (h : ∀ e, HasStreamEffect s (f e)) :
    HasStreamEffect s (withBlock s f) := by
  unfold Machine.withBlock
  split
  · exact h _
  all_goals exact refused _

theorem withAdpcm {f : AdpcmEngine → Result} (h : ∀ e, HasStreamEffect s (f e)) :
    HasStreamEffect s (withAdpcm s f) := by
  unfold Machine.withAdpcm
  split
  · exact h _
  all_goals exact refused _

theorem lcwAdvance (len count : Nat) (work : Memory 8) (e : LcwEngine) :
    HasStreamEffect s (lcwAdvance len count work e s) :=
  .ite (.fault _) (.goesOn _)

theorem lcwProduce (len count : Nat) (work : Memory 8) (e : LcwEngine) :
    HasStreamEffect s (lcwProduce len count work e s) :=
  .ite (.error _ _) (.ite (.error _ _) (.lcwAdvance _ _ _ e))

theorem lcwCopy (len count : Nat) (source : Option Nat) (e : LcwEngine) :
    HasStreamEffect s (lcwCopy len count source e s) := by
  refine .ite (.error _ _) ?_
  cases source with
  | none => exact .error _ _
  | some src => exact .ite (.error _ _) (.lcwAdvance _ _ _ e)

theorem blockResult (len : Nat) (e : BlockEngine) (r : Except PutStop BlockEngine) :
    HasStreamEffect s (blockResult len e s r) := by
  rcases r with (c | _) | e'
  · exact .error _ _
  · exact .fault _
  · exact .goesOn _

end HasStreamEffect

theorem runCommand_hasStreamEffect (i : Instr) : HasStreamEffect s (runCommand i s) := by
  cases i with
  | lcwMode => exact .withLcw fun e => .goesOn _
  | lcwScopy | lcwRcopy => exact .withLcw fun e => .lcwCopy _ _ _ e
  | lcwEnd => exact .withLcw fun e => .ite (.error _ _) (.next (.lcwEnds e))
  | lcwLit => exact .withLcw fun e => .lcwProduce _ _ _ e
  | lcwFill => exact .withLcw fun e => .ite (.error _ _) (.lcwProduce _ _ _ e)
  | lcwLcopy =>
    exact .withLcw fun e => .ite (.error _ _) (.ite (.ite (.error _ _) (.lcwAdvance _ _ _ e)) (.lcwCopy _ _ _ e))
  | vpSkip => exact .withBlock fun e => .ite (.error _ _) (.goesOn _)
  | vpRepeat | vpList | vpPut | vpPutk => exact .withBlock fun e => .blockResult _ e _
  | vpRun | vpRunk => exact .withBlock fun e => .ite (.error _ _) (.blockResult _ e _)
  | vpIllegal => exact .withBlock fun e => .error _ _
  | adCode => exact .withAdpcm fun e => .ite (.fault _) (.goesOn _)
  | reset | config | cbUpdate | vptrExpand | adpcmSetparam | adpcmDecode | readRaster | readPcm | readReg =>
    exact .refused _

theorem takeReject_hasStreamEffect (r : Reject) : HasStreamEffect s (takeReject r s) := by
  cases r with
  | lcwUnderrun | lcwReserved => exact .withLcw fun e => .error _ _
  | vpUnderrun => exact .withBlock fun e => .error _ _
  | vpListCut => exact .withBlock fun e => .blockResult _ e _
  | badHostOp => exact .error _ _

theorem closeStream_effect (s : State) : StreamEffect s (closeStream s) := by
  unfold closeStream
  split
  · exact .blockEnds _
  · exact .adpcmEnds _
  all_goals exact .goesOn s.engine

/-- Every next state of a round of a main loop is one of the five effects. -/
theorem engineStep_effect (h : engineStep s = .next t) : StreamEffect s t := by
  unfold engineStep at h
  split at h
  · cases h; exact .goesOn s.engine
  · exact runCommand_hasStreamEffect _ t h
  · cases h; exact closeStream_effect s
  · exact takeReject_hasStreamEffect _ t h
  · cases h

/-- What every round keeps, the whole operation keeps: the induction on the fuel, once. -/
theorem runEngine_induction {P : State → Prop} (round : ∀ a b, P a → engineStep a = .next b → P b) {fuel : Nat}
    (h0 : P s) (h : runEngine fuel s = .next t) : P t := by
  induction fuel generalizing s with
  | zero => cases h; exact h0
  | succ fuel ih =>
    by_cases idle : s.engine = .idle
    · rw [runEngine_idle idle] at h
      cases h; exact h0
    · cases hr : engineStep s with
      | next u =>
        rw [runEngine_succ idle hr] at h
        exact ih (round s u h0 hr) h
      | fault | refused => cases he : s.engine <;> simp_all [runEngine]

/-! ### The configuration registers and `CONFIGURED` -/

/-- The configuration registers and `CONFIGURED` of `t` are those of `s`. -/
def SameConfiguration (s t : State) : Prop := t.cfg = s.cfg ∧ t.configured = s.configured

theorem StreamEffect.sameConfiguration (h : StreamEffect s t) : SameConfiguration s t := by
  cases h <;> exact ⟨rfl, rfl⟩

theorem runEngine_sameConfiguration {u : State} {fuel : Nat} (h : runEngine fuel u = .next t)
    (start : SameConfiguration s u) : SameConfiguration s t := by
  refine runEngine_induction (P := SameConfiguration s) (fun a b ⟨acfg, aconf⟩ hround => ?_) start h
  obtain ⟨hcfg, hconf⟩ := (engineStep_effect hround).sameConfiguration
  exact ⟨hcfg.trans acfg, hconf.trans aconf⟩

/-- The last check of an operation with a stream, then its loop from a start `u` (R126, R130). -/
theorem checkedRun_sameConfiguration {u : State} {fuel n : Nat} {c : Cause} {bad : Prop} [Decidable bad]
    (h : (if bad then .next (raiseError c n s) else runEngine fuel u) = .next t) (start : SameConfiguration s u) :
    SameConfiguration s t := by
  split at h
  · cases h; exact ⟨rfl, rfl⟩
  · exact runEngine_sameConfiguration h start

/-! The gates of the host operations. -/

theorem whenIdle_eq_next {r : Result} : whenIdle s r = .next t ↔ s.engine = .idle ∧ r = .next t := by
  cases he : s.engine <;> simp [whenIdle, he]

theorem whenConfigured_eq_next (conf : s.configured = true) {r : Result} :
    whenConfigured s r = .next t ↔ s.engine = .idle ∧ r = .next t := by
  rw [whenConfigured, whenIdle_eq_next, if_pos conf]

theorem readWhenConfigured_eq_next (conf : s.configured = true) {r : Result} :
    readWhenConfigured s r = .next t ↔ s.engine = .idle ∧ r = .next t := by
  rw [readWhenConfigured, whenIdle_eq_next, if_pos conf]

end Sys2Proof.Machine
end

section
/-!
SUPPORT. The host operations that touch the configuration registers, `CONFIGURED` and the lifetime of the memories
(R24, R33, R120, R122), and the state after reset.
-/

namespace Sys2Proof.Machine

variable {s t : State}

/-- From a configured state every instruction but `RESET` keeps the configuration (R24): a command by the effects of a
stream, `CONFIG` by its first check, an operation with a stream by its loop, the others because they write elsewhere. -/
theorem exec_sameConfiguration {i : Instr} (conf : s.configured = true) (hi : i ≠ .reset) (h : exec i s = .next t) :
    SameConfiguration s t := by
  by_cases command : isCommand i = true
  · rw [← runCommand_eq_exec command] at h
    exact (runCommand_hasStreamEffect i t h).sameConfiguration
  cases i with
  | reset => exact absurd rfl hi
  | config p =>
    obtain ⟨-, h⟩ := whenIdle_eq_next.1 h
    rw [if_pos conf] at h
    cases h; exact ⟨rfl, rfl⟩
  | cbUpdate dstOff outLen payload =>
    obtain ⟨-, h⟩ := (whenConfigured_eq_next conf).1 h
    split at h
    · cases h; exact ⟨rfl, rfl⟩
    · exact checkedRun_sameConfiguration h ⟨rfl, rfl⟩
  | vptrExpand payload | adpcmDecode payload =>
    exact checkedRun_sameConfiguration ((whenConfigured_eq_next conf).1 h).2 ⟨rfl, rfl⟩
  | adpcmSetparam idx pred =>
    obtain ⟨-, h⟩ := (whenConfigured_eq_next conf).1 h
    split at h <;> (cases h; exact ⟨rfl, rfl⟩)
  | readRaster | readPcm =>
    obtain ⟨-, h⟩ := (readWhenConfigured_eq_next conf).1 h
    split at h <;> (cases h; exact ⟨rfl, rfl⟩)
  | readReg n =>
    obtain ⟨-, h⟩ := whenIdle_eq_next.1 h
    split at h <;> (cases h; exact ⟨rfl, rfl⟩)
  | _ => exact absurd rfl command

/-! ### Fresh memories -/

/-- `s` with fresh memories (R33), zero ADPCM pair, and the given `CONFIGURED` and configuration registers, answering
`OK`: the common effect of `RESET` (R120) and of an accepted `CONFIG` (R122). -/
def renewed (configured : Bool) (cfg : CfgRegs) (s : State) : State :=
  finishOk { freshMemories s with configured := configured, aIndex := 0, aPred := 0, cfg := cfg }

theorem execReset_eq_next : execReset s = .next t ↔ s.engine = .idle ∧ renewed false CfgRegs.zero s = t := by
  rw [execReset, whenIdle_eq_next, Host.Outcome.next.injEq]
  rfl

/-- What `CONFIG` can do (R122): one of the errors of its checks, or the load of its operands. -/
theorem execConfig_cases {p : ConfigOperands} (h : execConfig p s = .next t) :
    (∃ c, t = raiseError c 0 s) ∨ t = renewed true (CfgRegs.ofOperands p) s := by
  obtain ⟨-, h⟩ := whenIdle_eq_next.1 h
  split at h
  · cases h; exact .inl ⟨_, rfl⟩
  · split at h
    · cases h; exact .inl ⟨_, rfl⟩
    · split at h
      · cases h; exact .inl ⟨_, rfl⟩
      · cases h; exact .inr rfl

/-- No error has the status `OK` (R301). -/
theorem Cause.status_ne_ok (c : Cause) : c.status ≠ statusOk := by
  cases c <;> decide

/-- `RESET` and a `CONFIG` that answers `OK` renew the memories. -/
theorem exec_eq_renewed {i : Instr} (hi : i = .reset ∨ (∃ p, i = .config p) ∧ t.status = statusOk)
    (h : exec i s = .next t) : ∃ configured cfg, t = renewed configured cfg s := by
  rcases hi with rfl | ⟨⟨p, rfl⟩, hok⟩
  · exact ⟨_, _, (execReset_eq_next.1 h).2.symm⟩
  · rcases execConfig_cases h with ⟨c, rfl⟩ | rfl
    · exact absurd hok c.status_ne_ok
    · exact ⟨_, _, rfl⟩

/-! A place without an entry reads as its free value (log 8). -/

@[simp] theorem readCb_nil (epoch a : Nat) : readCb epoch [] a = Config.freeCb epoch a := rfl
@[simp] theorem readRas_nil (epoch key : Nat) : readRas epoch [] key = Config.freeRas epoch key := rfl
@[simp] theorem readPcmAt_nil (epoch k : Nat) : readPcmAt epoch [] k = Config.freePcm epoch k := rfl

@[simp] theorem renewed_cb (b : Bool) (cfg : CfgRegs) (s : State) : (renewed b cfg s).cb = [] := rfl
@[simp] theorem renewed_ras (b : Bool) (cfg : CfgRegs) (s : State) : (renewed b cfg s).ras = [] := rfl
@[simp] theorem renewed_pcm (b : Bool) (cfg : CfgRegs) (s : State) : (renewed b cfg s).pcm = [] := rfl
@[simp] theorem renewed_epoch (b : Bool) (cfg : CfgRegs) (s : State) : (renewed b cfg s).epoch = s.epoch + 1 := rfl

/-! ### The state after reset -/

/-- Reset meets the invariant: no memory has an entry, the configuration registers are zero, the core is idle. -/
theorem State.reset_inv : State.reset.Inv where
  cbCanonical := .nil
  rasCanonical := .nil
  pcmCanonical := .nil
  cbInside := nofun
  rasInside := nofun
  pcmInside := nofun
  indexRange := Nat.zero_le _
  geometry := nofun
  unconfigured := fun _ => rfl
  engineOk := trivial

end Sys2Proof.Machine
end

section
/-!
CERTIFICATES. The obligations of the state (10_state.md): R24, R27, R28, R33, R120, R122, R161, R200, R257, R340.
-/

namespace Sys2Proof.Proofs

open Sys2Proof.Machine

/-- Settles O20: both operations renew the memories, and a memory without entries reads as its free values. -/
theorem freshMemoriesAreFree : Obligations.FreshMemoriesAreFree := by
  intro s t i _ hi h
  obtain ⟨configured, cfg, rfl⟩ := exec_eq_renewed hi h
  simp

/-- Settles O23, from what a round of a stream can do and the first checks of the host operations. -/
theorem configurationIsImmutable : Obligations.ConfigurationIsImmutable := by
  intro s t i h conf hi
  obtain ⟨hcfg, hconf⟩ := exec_sameConfiguration conf hi h
  exact ⟨hcfg, hconf.trans conf⟩

/-- Settles O8: each of the four fetches, run by the step. -/
theorem stepRunsFetched : Obligations.StepRunsFetched := by
  refine ⟨fun s r rest i idle hqueue hdec => step_of_idle_request idle hqueue hdec, fun s e i he hdec => ?lcw,
    fun s e i he hvs hdec => ?block, fun s e code he hak hcode => step_of_fetch_command (fetch_adpcm he hak hcode)⟩
  case lcw => exact step_of_fetch_command ((fetch_lcw he).trans (ofDecode_eq_command.2 hdec))
  case block => exact step_of_fetch_command ((fetch_block he hvs).trans (ofDecode_eq_command.2 hdec))

/-- Settles O18: the reset state gives each register the value of R33. -/
theorem powerOnRegisters : Obligations.PowerOnRegisters :=
  ⟨rfl, rfl, rfl, rfl, rfl, rfl⟩

/-- Settles O57. -/
theorem resetMeetsInvariant : Obligations.ResetMeetsInvariant := State.reset_inv

end Sys2Proof.Proofs
end

section
/-!
CERTIFICATES. The obligation of the memories (20_memory.md): R59, R123.
-/

namespace Sys2Proof.Proofs

open Sys2Proof.Machine

/-- Settles O39: a block ends inside the raster in both directions, and a shared pixel determines the column and the
row of its block. -/
theorem gridLiesInRaster : Obligations.GridLiesInRaster := by
  intro c hg d hd
  exact ⟨c.x0_end_le hg hd, c.y0_end_le hg hd, fun _ _ hd' h h' => c.inBlock_unique hg hd hd' h h'⟩

end Sys2Proof.Proofs
end

section
/-!
SUPPORT. The codes as bits (30_encoding.md R81, R82, R85, R87, R88, R100): the fields of a byte and of a 16-bit word as
numbers, and one equation of the decoder per range of the LCW control byte and per block-pointer opcode.
-/

namespace Sys2Proof

variable {cfg : Config} {start : Bool} {c : Byte} {rest : List Byte}

/-! ### Fields as numbers -/

/-- A concatenation as a number. -/
theorem append_toNat {m n : Nat} (high : BitVec m) (low : BitVec n) :
    (high ++ low).toNat = 2 ^ n * high.toNat + low.toNat := by
  rw [BitVec.toNat_append, ← Nat.shiftLeft_add_eq_or_of_lt low.isLt, Nat.shiftLeft_eq, Nat.mul_comm]

/-- A field of `len` bits from bit `lsb` up, as a number. -/
theorem field_toNat {w : Nat} (lsb len : Nat) (v : BitVec w) :
    (v.extractLsb' lsb len).toNat = v.toNat / 2 ^ lsb % 2 ^ len := by
  rw [BitVec.extractLsb'_toNat, Nat.shiftRight_eq_div_pow]

theorem le16_toNat (lo hi : Byte) : (le16 lo hi).toNat = lo.toNat + 256 * hi.toNat := by
  exact (append_toNat hi lo).trans (Nat.add_comm _ _)

@[simp] theorem le16_lowByte_highByte (v : BitVec 16) : le16 (lowByte v) (highByte v) = v :=
  BitVec.extractLsb'_append_extractLsb'

@[simp] theorem lowByte_le16 (lo hi : Byte) : lowByte (le16 lo hi) = lo := BitVec.extractLsb'_append_eq_right

@[simp] theorem highByte_le16 (lo hi : Byte) : highByte (le16 lo hi) = hi := BitVec.extractLsb'_append_eq_left

/-! ### The LCW control bytes (R87): one equation of the decoder per range -/

/-- Every control byte lies in one of the ranges of R87. -/
theorem controlByte_cases (c : Byte) :
    c.toNat ≤ 0x7F ∨ c.toNat = 0x80 ∨ (0x81 ≤ c.toNat ∧ c.toNat ≤ 0xBF) ∨ (0xC0 ≤ c.toNat ∧ c.toNat ≤ 0xFD) ∨
      c.toNat = 0xFE ∨ c.toNat = 0xFF := by
  have := c.isLt
  omega

theorem decodeLcw_mode (h : start = true ∧ c.toNat = 0x00) : decodeLcw cfg start (c :: rest) = .ok .lcwMode :=
  if_pos h

theorem decodeLcw_scopy (h0 : ¬(start = true ∧ c.toNat = 0x00)) (h : c.toNat ≤ 0x7F) :
    decodeLcw cfg start (c :: rest) = decodeLcwScopy c rest := by
  rw [decodeLcw, if_neg h0, if_pos h]

theorem decodeLcw_end (h : c.toNat = 0x80) : decodeLcw cfg start (c :: rest) = .ok .lcwEnd := by
  simp [decodeLcw, h]

theorem decodeLcw_lit (h : 0x81 ≤ c.toNat) (h' : c.toNat ≤ 0xBF) :
    decodeLcw cfg start (c :: rest) = decodeLcwLit c rest := by
  rw [decodeLcw, if_neg (by omega), if_neg (by omega), if_neg (by omega), if_pos h']

theorem decodeLcw_rcopy (h : 0xC0 ≤ c.toNat) (h' : c.toNat ≤ 0xFD) :
    decodeLcw cfg start (c :: rest) = decodeLcwRcopy c rest := by
  rw [decodeLcw, if_neg (by omega), if_neg (by omega), if_neg (by omega), if_neg (by omega), if_pos h']

theorem decodeLcw_reserved (hlong : cfg.lcwLongForms = false) (h : 0xFE ≤ c.toNat) :
    decodeLcw cfg start (c :: rest) = .error .lcwReserved := by
  rw [decodeLcw, if_neg (by omega), if_neg (by omega), if_neg (by omega), if_neg (by omega), if_neg (by omega),
    if_pos hlong]

theorem decodeLcw_fill (hlong : cfg.lcwLongForms = true) (h : c.toNat = 0xFE) :
    decodeLcw cfg start (c :: rest) = decodeLcwFill rest := by
  simp [decodeLcw, hlong, h]

theorem decodeLcw_lcopy (hlong : cfg.lcwLongForms = true) (h : c.toNat = 0xFF) :
    decodeLcw cfg start (c :: rest) = decodeLcwLcopy rest := by
  simp [decodeLcw, hlong, h]

/-! ### The fields of the LCW control bytes (R81) -/

/-- The control byte of `LCW.SCOPY`: `0 nnn oooo`. -/
theorem scopyByte_toNat (n : BitVec 3) (o : BitVec 4) : (0#1 ++ n ++ o : BitVec 8).toNat = 16 * n.toNat + o.toNat := by
  have h : (0#1 ++ n).toNat = n.toNat := by rw [append_toNat]; simp
  rw [← h]
  exact append_toNat (0#1 ++ n) o

theorem scopyByte_fields (h : c.toNat ≤ 0x7F) : (0#1 ++ c.extractLsb' 4 3 ++ c.extractLsb' 0 4 : BitVec 8) = c := by
  apply BitVec.eq_of_toNat_eq
  rw [scopyByte_toNat, field_toNat, field_toNat]
  omega

/-- A control byte with a two-bit head and six bits `n`: `LCW.LIT`, `LCW.END` and `LCW.RCOPY`. -/
theorem headByte_toNat (op : BitVec 2) (n : BitVec 6) : (op ++ n : BitVec 8).toNat = 64 * op.toNat + n.toNat :=
  append_toNat op n

theorem headByte_fields {op : BitVec 2} (h : c.toNat / 64 = op.toNat) : (op ++ c.extractLsb' 0 6 : BitVec 8) = c := by
  apply BitVec.eq_of_toNat_eq
  rw [headByte_toNat, field_toNat]
  omega

/-- The length field of `LCW.LIT`. -/
theorem litCount_toNat (h : 0x80 ≤ c.toNat) (h' : c.toNat ≤ 0xBF) : (c.extractLsb' 0 6).toNat = c.toNat - 0x80 := by
  rw [field_toNat]
  omega

/-! ### The block-pointer words (R82, R88): one equation of the decoder per opcode -/

theorem vpWord_toNat (op : BitVec 3) (low : BitVec 13) : (vpWord op low).toNat = 8192 * op.toNat + low.toNat :=
  append_toNat op low

/-- Any two bytes are a block-pointer word: an opcode and thirteen bits. -/
theorem exists_vpBytes (lo hi : Byte) :
    ∃ op low, [lo, hi] = vpBytes op low ∧ lo.toNat + 256 * hi.toNat = 8192 * op.toNat + low.toNat := by
  refine ⟨(le16 lo hi).extractLsb' 13 3, (le16 lo hi).extractLsb' 0 13, ?_, ?_⟩
  · have hw : vpWord ((le16 lo hi).extractLsb' 13 3) ((le16 lo hi).extractLsb' 0 13) = le16 lo hi :=
      BitVec.extractLsb'_append_extractLsb'
    simp [vpBytes, hw]
  · have hw := (le16 lo hi).isLt
    rw [field_toNat, field_toNat, ← le16_toNat]
    omega

/-- The thirteen bits as the fields `K` and `B` of opcodes 1 and 2. -/
theorem exists_listFields (low : BitVec 13) : ∃ (k : BitVec 5) (b : BitVec 8), low = k ++ b :=
  ⟨low.extractLsb' 8 5, low.extractLsb' 0 8, (BitVec.extractLsb'_append_extractLsb' (w := 5) (len := 8)).symm⟩

theorem opcode_cases (op : BitVec 3) :
    op = 0 ∨ op = 1 ∨ op = 2 ∨ op = 3 ∨ op = 4 ∨ op = 5 ∨ op = 6 ∨ op = 7 := by
  revert op
  decide

theorem decodeVp_vpBytes (op : BitVec 3) (low : BitVec 13) (rest : List Byte) :
    decodeVp cfg (vpBytes op low ++ rest) = decodeVpWord cfg (vpWord op low) rest := by
  rw [← le16_lowByte_highByte (vpWord op low)]
  rfl

/-- The opcode of a word. -/
@[simp] theorem vpWord_opcode (op : BitVec 3) (low : BitVec 13) : (vpWord op low).extractLsb' 13 3 = op :=
  BitVec.extractLsb'_append_eq_left

@[simp] theorem vpWord_low (op : BitVec 3) (low : BitVec 13) : (vpWord op low).extractLsb' 0 13 = low :=
  BitVec.extractLsb'_append_eq_right

@[simp] theorem vpWord_k (op : BitVec 3) (k : BitVec 5) (b : BitVec 8) :
    (vpWord op (k ++ b)).extractLsb' 8 5 = k := by
  rw [vpWord, BitVec.extractLsb'_append_eq_of_add_le (by decide), BitVec.extractLsb'_append_eq_left]

@[simp] theorem vpWord_b (op : BitVec 3) (k : BitVec 5) (b : BitVec 8) :
    (vpWord op (k ++ b)).extractLsb' 0 8 = b := by
  rw [vpWord, BitVec.extractLsb'_append_eq_of_add_le (by decide), BitVec.extractLsb'_append_eq_right]

theorem decodeVp_skip (n : BitVec 13) (rest : List Byte) : decodeVp cfg (vpBytes 0 n ++ rest) = .ok (.vpSkip n) := by
  simp [decodeVp_vpBytes, decodeVpWord]

theorem decodeVp_repeat (k : BitVec 5) (b : BitVec 8) (rest : List Byte) :
    decodeVp cfg (vpBytes 1 (k ++ b) ++ rest) = .ok (.vpRepeat k b) := by
  simp [decodeVp_vpBytes, decodeVpWord]

theorem decodeVp_list (k : BitVec 5) (b : BitVec 8) (rest : List Byte) :
    decodeVp cfg (vpBytes 2 (k ++ b) ++ rest) = decodeVpList cfg k b rest := by
  simp [decodeVp_vpBytes, decodeVpWord]

theorem decodeVp_put (b : BitVec 13) (rest : List Byte) : decodeVp cfg (vpBytes 3 b ++ rest) = .ok (.vpPut b) := by
  simp [decodeVp_vpBytes, decodeVpWord]

theorem decodeVp_putk (b : BitVec 13) (rest : List Byte) : decodeVp cfg (vpBytes 4 b ++ rest) = .ok (.vpPutk b) := by
  simp [decodeVp_vpBytes, decodeVpWord]

theorem decodeVp_run (b : BitVec 13) (m : Byte) (rest : List Byte) :
    decodeVp cfg (vpBytes 5 b ++ m :: rest) = .ok (.vpRun b m) := by
  simp [decodeVp_vpBytes, decodeVpWord]

theorem decodeVp_runk (b : BitVec 13) (m : Byte) (rest : List Byte) :
    decodeVp cfg (vpBytes 6 b ++ m :: rest) = .ok (.vpRunk b m) := by
  simp [decodeVp_vpBytes, decodeVpWord]

theorem decodeVp_illegal (x : BitVec 13) (rest : List Byte) :
    decodeVp cfg (vpBytes 7 x ++ rest) = .ok (.vpIllegal x) := by
  simp [decodeVp_vpBytes, decodeVpWord]

/-- A run word without its byte `M` (R211, R212). -/
theorem decodeVp_run_cut {op : BitVec 3} (h : op = 5 ∨ op = 6) (b : BitVec 13) :
    decodeVp cfg (vpBytes op b) = .error .vpUnderrun := by
  rw [← List.append_nil (vpBytes op b), decodeVp_vpBytes]
  rcases h with rfl | rfl <;> simp [decodeVpWord]

theorem decodeVpList_eq_ok {k : BitVec 5} {b : BitVec 8} {i : Instr} :
    decodeVpList cfg k b rest = .ok i ↔
      cfg.extraOf k ≤ rest.length ∧ .vpList k b (rest.take (cfg.extraOf k)) = i := by
  unfold decodeVpList
  split <;> simp <;> omega

end Sys2Proof
end

section
/-!
SUPPORT. The round trip of the LCW commands (30_encoding.md R81, R84, R94): what the decoder reads from an encoded
command, and the bytes from which it read one.
-/

namespace Sys2Proof

variable {cfg : Config} {start : Bool} {c : Byte} {rest : List Byte}

/-! ### Decoding what was encoded -/

theorem decodeLcw_scopyCode (n : BitVec 3) (dist : BitVec 12) (rest : List Byte)
    (h0 : start = true → (0#1 ++ n ++ dist.extractLsb' 8 4 : BitVec 8) ≠ 0) :
    decodeLcw cfg start ((0#1 ++ n ++ dist.extractLsb' 8 4 : BitVec 8) :: dist.extractLsb' 0 8 :: rest) =
      .ok (.lcwScopy n dist) := by
  have hn : (0#1 ++ n ++ dist.extractLsb' 8 4 : BitVec 8).extractLsb' 4 3 = n := by
    rw [BitVec.extractLsb'_append_eq_of_le (by decide)]
    exact BitVec.extractLsb'_append_eq_right
  have ho : (0#1 ++ n ++ dist.extractLsb' 8 4 : BitVec 8).extractLsb' 0 4 = dist.extractLsb' 8 4 :=
    BitVec.extractLsb'_append_eq_right
  have hdist : dist.extractLsb' 8 4 ++ dist.extractLsb' 0 8 = dist :=
    BitVec.extractLsb'_append_extractLsb' (w := 4) (len := 8)
  rw [decodeLcw_scopy, decodeLcwScopy, hn, ho, hdist]
  · rintro ⟨hs, hc⟩
    exact h0 hs (BitVec.eq_of_toNat_eq hc)
  · rw [scopyByte_toNat]
    omega

theorem decodeLcw_litCode {bytes : List Byte} (h1 : 1 ≤ bytes.length) (h63 : bytes.length ≤ 63) (rest : List Byte) :
    decodeLcw cfg start ((2#2 ++ BitVec.ofNat 6 bytes.length : BitVec 8) :: (bytes ++ rest)) = .ok (.lcwLit bytes) := by
  have hn : (BitVec.ofNat 6 bytes.length).toNat = bytes.length := by simp; omega
  have hc := headByte_toNat 2#2 (BitVec.ofNat 6 bytes.length)
  rw [hn] at hc
  have hcount : ((2#2 ++ BitVec.ofNat 6 bytes.length : BitVec 8).extractLsb' 0 6).toNat = bytes.length := by
    rw [BitVec.extractLsb'_append_eq_right, hn]
  rw [decodeLcw_lit (by simp [hc]; omega) (by simp [hc]; omega), decodeLcwLit, hcount]
  simp

theorem decodeLcw_rcopyCode {n : BitVec 6} (h61 : n.toNat ≤ 61) (off : BitVec 16) (rest : List Byte) :
    decodeLcw cfg start ((3#2 ++ n : BitVec 8) :: lowByte off :: highByte off :: rest) = .ok (.lcwRcopy n off) := by
  have hc := headByte_toNat 3#2 n
  rw [decodeLcw_rcopy (by simp [hc]) (by simp [hc]; omega), decodeLcwRcopy,
    BitVec.extractLsb'_append_eq_right, le16_lowByte_highByte]

theorem decodeLcw_fillCode (hlong : cfg.lcwLongForms = true) (cnt : BitVec 16) (val : Byte) (rest : List Byte) :
    decodeLcw cfg start (0xFE :: lowByte cnt :: highByte cnt :: val :: rest) = .ok (.lcwFill cnt val) := by
  simp [decodeLcw_fill hlong, decodeLcwFill]

theorem decodeLcw_lcopyCode (hlong : cfg.lcwLongForms = true) (cnt off : BitVec 16) (rest : List Byte) :
    decodeLcw cfg start (0xFF :: lowByte cnt :: highByte cnt :: lowByte off :: highByte off :: rest) =
      .ok (.lcwLcopy cnt off) := by
  simp [decodeLcw_lcopy hlong, decodeLcwLcopy]

/-! ### The bytes a decoded instruction was read from -/

/-- The instruction is well formed and the bytes begin with its code, of the kind `stream`. -/
def ReadFrom (cfg : Config) (stream : List Byte → Code) (i : Instr) (bytes : List Byte) : Prop :=
  i.wf cfg = true ∧ i.length ≤ bytes.length ∧ encode i = stream (bytes.take i.length)

theorem readFrom_append {stream : List Byte → Code} {i : Instr} {code : List Byte} (hwf : i.wf cfg = true)
    (henc : encode i = stream code) (hlen : i.length = code.length) (rest : List Byte) :
    ReadFrom cfg stream i (code ++ rest) := by
  refine ⟨hwf, ?_, ?_⟩ <;> simp [hlen, henc]

/-- What a decoder's equation answers is what it was read from. -/
theorem readFrom_of_equation {stream : List Byte → Code} {i j : Instr} {code : List Byte} {x : Except Reject Instr}
    (h : x = .ok i) (hdec : x = .ok j) (hwf : j.wf cfg = true) (henc : encode j = stream code)
    (hlen : j.length = code.length) : ReadFrom cfg stream i (code ++ rest) := by
  obtain rfl : i = j := Except.ok.inj (h.symm.trans hdec)
  exact readFrom_append hwf henc hlen rest

theorem decodeLcwScopy_readFrom {i : Instr} (hc : c.toNat ≤ 0x7F) (h : decodeLcwScopy c rest = .ok i) :
    ReadFrom cfg .lcw i (c :: rest) := by
  cases rest with
  | nil => cases h
  | cons p rest =>
    cases h
    have henc : encode (.lcwScopy (c.extractLsb' 4 3) (c.extractLsb' 0 4 ++ p)) = .lcw [c, p] := by
      rw [encode, BitVec.extractLsb'_append_eq_left, BitVec.extractLsb'_append_eq_right, scopyByte_fields hc]
    exact readFrom_append rfl henc rfl rest

theorem decodeLcwLit_readFrom {i : Instr} (hc : 0x81 ≤ c.toNat) (hc' : c.toNat ≤ 0xBF)
    (h : decodeLcwLit c rest = .ok i) : ReadFrom cfg .lcw i (c :: rest) := by
  have hn := litCount_toNat (by omega) hc'
  unfold decodeLcwLit at h
  split at h
  case isTrue => cases h
  case isFalse hlen =>
    cases h
    have hl : (rest.take (c.extractLsb' 0 6).toNat).length = (c.extractLsb' 0 6).toNat := by simp; omega
    have henc : encode (.lcwLit (rest.take (c.extractLsb' 0 6).toNat)) =
        .lcw (c :: rest.take (c.extractLsb' 0 6).toNat) := by
      rw [encode, hl, BitVec.ofNat_toNat, BitVec.setWidth_eq, headByte_fields (by simp; omega)]
    have hwf : Instr.wf cfg (.lcwLit (rest.take (c.extractLsb' 0 6).toNat)) = true := by
      rw [Instr.wf, hl, hn, Bool.and_eq_true, decide_eq_true_eq, decide_eq_true_eq]
      omega
    simpa using readFrom_append hwf henc (Nat.add_comm _ _) (rest.drop (c.extractLsb' 0 6).toNat)

theorem decodeLcwRcopy_readFrom {i : Instr} (hc : 0xC0 ≤ c.toNat) (hc' : c.toNat ≤ 0xFD)
    (h : decodeLcwRcopy c rest = .ok i) : ReadFrom cfg .lcw i (c :: rest) := by
  unfold decodeLcwRcopy at h
  split at h <;> cases h
  next lo hi rest =>
    have henc : encode (.lcwRcopy (c.extractLsb' 0 6) (le16 lo hi)) = .lcw [c, lo, hi] := by
      rw [encode, lowByte_le16, highByte_le16, headByte_fields (by simp; omega)]
    have hwf : Instr.wf cfg (.lcwRcopy (c.extractLsb' 0 6) (le16 lo hi)) = true := by
      simp only [Instr.wf, decide_eq_true_eq, field_toNat]
      omega
    exact readFrom_append hwf henc rfl rest

theorem decodeLcwFill_readFrom {i : Instr} (hlong : cfg.lcwLongForms = true) (hc : c.toNat = 0xFE)
    (h : decodeLcwFill rest = .ok i) : ReadFrom cfg .lcw i (c :: rest) := by
  unfold decodeLcwFill at h
  split at h <;> cases h
  next lo hi val rest =>
    obtain rfl : c = 0xFE := BitVec.eq_of_toNat_eq hc
    have henc : encode (.lcwFill (le16 lo hi) val) = .lcw [0xFE, lo, hi, val] := by simp [encode]
    exact readFrom_append (by simpa [Instr.wf] using hlong) henc rfl rest

theorem decodeLcwLcopy_readFrom {i : Instr} (hlong : cfg.lcwLongForms = true) (hc : c.toNat = 0xFF)
    (h : decodeLcwLcopy rest = .ok i) : ReadFrom cfg .lcw i (c :: rest) := by
  unfold decodeLcwLcopy at h
  split at h <;> cases h
  next lo hi olo ohi rest =>
    obtain rfl : c = 0xFF := BitVec.eq_of_toNat_eq hc
    have henc : encode (.lcwLcopy (le16 lo hi) (le16 olo ohi)) = .lcw [0xFF, lo, hi, olo, ohi] := by simp [encode]
    exact readFrom_append (by simpa [Instr.wf] using hlong) henc rfl rest

/-- An LCW command is read from its own code: the range of the control byte selects the format (R87). -/
theorem decodeLcw_readFrom {bytes : List Byte} {i : Instr} (h : decodeLcw cfg start bytes = .ok i) :
    ReadFrom cfg .lcw i bytes := by
  cases bytes with
  | nil => cases h
  | cons c rest =>
    by_cases h0 : start = true ∧ c.toNat = 0x00
    · obtain rfl : c = 0x00 := BitVec.eq_of_toNat_eq h0.2
      exact readFrom_of_equation (code := [0x00]) h (decodeLcw_mode h0) rfl rfl rfl
    · have hlong : 0xFE ≤ c.toNat → cfg.lcwLongForms = true := fun hc => by
        by_contra hshort
        rw [decodeLcw_reserved (Bool.eq_false_iff.2 hshort) hc] at h
        cases h
      rcases controlByte_cases c with hc | hc | ⟨hc, hc'⟩ | ⟨hc, hc'⟩ | hc | hc
      · exact decodeLcwScopy_readFrom hc (decodeLcw_scopy h0 hc ▸ h)
      · obtain rfl : c = 0x80 := BitVec.eq_of_toNat_eq hc
        exact readFrom_of_equation (code := [0x80]) h (decodeLcw_end hc) rfl rfl rfl
      · exact decodeLcwLit_readFrom hc hc' (decodeLcw_lit hc hc' ▸ h)
      · exact decodeLcwRcopy_readFrom hc hc' (decodeLcw_rcopy hc hc' ▸ h)
      · have hl := hlong (by omega)
        exact decodeLcwFill_readFrom hl hc (decodeLcw_fill hl hc ▸ h)
      · have hl := hlong (by omega)
        exact decodeLcwLcopy_readFrom hl hc (decodeLcw_lcopy hl hc ▸ h)

/-- A block-pointer command is read from its own code: the opcode selects the format (R88). -/
theorem decodeVp_readFrom {bytes : List Byte} {i : Instr} (h : decodeVp cfg bytes = .ok i) :
    ReadFrom cfg .vp i bytes := by
  match bytes, h with
  | lo :: hi :: rest, h =>
    obtain ⟨op, low, hword, -⟩ := exists_vpBytes lo hi
    have hbytes : lo :: hi :: rest = vpBytes op low ++ rest := by rw [← hword]; rfl
    rw [hbytes] at h ⊢
    obtain ⟨k, b, hlow⟩ := exists_listFields low
    rcases opcode_cases op with rfl | rfl | rfl | rfl | rfl | rfl | rfl | rfl
    · exact readFrom_of_equation h (decodeVp_skip low rest) rfl rfl rfl
    · subst hlow
      exact readFrom_of_equation h (decodeVp_repeat k b rest) rfl rfl rfl
    · subst hlow
      rw [decodeVp_list, decodeVpList_eq_ok] at h
      obtain ⟨hlen, rfl⟩ := h
      have hwf : Instr.wf cfg (.vpList k b (rest.take (cfg.extraOf k))) = true := by simp [Instr.wf, hlen]
      simpa using readFrom_append hwf rfl (Nat.add_comm _ _) (rest.drop (cfg.extraOf k))
    · exact readFrom_of_equation h (decodeVp_put low rest) rfl rfl rfl
    · exact readFrom_of_equation h (decodeVp_putk low rest) rfl rfl rfl
    · cases rest with
      | nil => rw [List.append_nil, decodeVp_run_cut (.inl rfl)] at h; cases h
      | cons m rest =>
        exact readFrom_of_equation (code := vpBytes 5 low ++ [m]) h (decodeVp_run low m rest) rfl rfl rfl
    · cases rest with
      | nil => rw [List.append_nil, decodeVp_run_cut (.inr rfl)] at h; cases h
      | cons m rest =>
        exact readFrom_of_equation (code := vpBytes 6 low ++ [m]) h (decodeVp_runk low m rest) rfl rfl rfl
    · exact readFrom_of_equation h (decodeVp_illegal low rest) rfl rfl rfl

/-! ### ADPCM codes and host records -/

theorem decodeAd_encode (s : BitVec 1) (m : BitVec 3) : decodeAd (s ++ m) = .adCode s m := by
  rw [decodeAd, BitVec.extractLsb'_append_eq_left, BitVec.extractLsb'_append_eq_right]

theorem encode_decodeAd (code : BitVec 4) : encode (decodeAd code) = .ad code :=
  congrArg Code.ad (BitVec.extractLsb'_append_extractLsb' (w := 1) (len := 3))

theorem wf_of_host {i : Instr} (h : Machine.isCommand i = false) : i.wf cfg = true := by
  cases i with
  | reset | config | cbUpdate | vptrExpand | adpcmSetparam | adpcmDecode | readRaster | readPcm | readReg => rfl
  | _ => cases h

theorem decodeHost_badHostOp {r : HostRequest} (h : 9 ≤ r.op.toNat) : decodeHost r = .error .badHostOp := by
  unfold decodeHost
  split
  pick_goal -1
  · rfl
  all_goals omega

end Sys2Proof
end

section
/-!
SUPPORT. The numbers the fields of a code stand for (30_encoding.md R81, R82), where a code is cut short (R163, R200,
R201), and the step on bytes or a record that are no instruction (R91, R92, R161).
-/

namespace Sys2Proof

variable {cfg : Config} {start : Bool} {c : Byte} {rest : List Byte}

/-! ### The commands as numbers of their bytes -/

theorem decodeLcwScopy_numbers (hc : c.toNat ≤ 0x7F) (p : Byte) (rest : List Byte) :
    ∃ n dist, decodeLcwScopy c (p :: rest) = .ok (.lcwScopy n dist) ∧
      n.toNat = c.toNat / 16 ∧ dist.toNat = c.toNat % 16 * 256 + p.toNat := by
  refine ⟨_, _, rfl, ?_, ?_⟩
  · rw [field_toNat]
    omega
  · have hdist := append_toNat (c.extractLsb' 0 4) p
    rw [field_toNat] at hdist
    omega

theorem decodeLcwLit_numbers (hc : 0x81 ≤ c.toNat) (hc' : c.toNat ≤ 0xBF) (hlen : 63 ≤ rest.length) :
    decodeLcwLit c rest = .ok (.lcwLit (rest.take (c.toNat - 0x80))) := by
  rw [decodeLcwLit, litCount_toNat (by omega) hc', if_neg (by omega)]

theorem decodeLcwRcopy_numbers (hc : 0xC0 ≤ c.toNat) (lo hi : Byte) (rest : List Byte) :
    ∃ n off, decodeLcwRcopy c (lo :: hi :: rest) = .ok (.lcwRcopy n off) ∧
      n.toNat = c.toNat - 0xC0 ∧ off.toNat = lo.toNat + 256 * hi.toNat := by
  have hlt := c.isLt
  refine ⟨_, _, rfl, ?_, le16_toNat lo hi⟩
  rw [field_toNat]
  omega

/-! ### Where a command is cut short -/

/-- Fewer bytes follow the control byte than its format has. -/
def LcwCut (cfg : Config) (c : Byte) (rest : List Byte) : Prop :=
  c.toNat ≤ 0x7F ∧ rest.length < 1 ∨
  0x81 ≤ c.toNat ∧ c.toNat ≤ 0xBF ∧ rest.length < c.toNat - 0x80 ∨
  0xC0 ≤ c.toNat ∧ c.toNat ≤ 0xFD ∧ rest.length < 2 ∨
  cfg.lcwLongForms = true ∧ c.toNat = 0xFE ∧ rest.length < 3 ∨
  cfg.lcwLongForms = true ∧ c.toNat = 0xFF ∧ rest.length < 4

theorem decodeLcwScopy_underrun : decodeLcwScopy c rest = .error .lcwUnderrun ↔ rest.length < 1 := by
  unfold decodeLcwScopy
  split <;> simp

theorem decodeLcwLit_underrun (hc : 0x80 ≤ c.toNat) (hc' : c.toNat ≤ 0xBF) :
    decodeLcwLit c rest = .error .lcwUnderrun ↔ rest.length < c.toNat - 0x80 := by
  rw [decodeLcwLit, litCount_toNat hc hc']
  split <;> simp [*]

theorem decodeLcwRcopy_underrun : decodeLcwRcopy c rest = .error .lcwUnderrun ↔ rest.length < 2 := by
  unfold decodeLcwRcopy
  split <;> simp

theorem decodeLcwFill_underrun : decodeLcwFill rest = .error .lcwUnderrun ↔ rest.length < 3 := by
  unfold decodeLcwFill
  split <;> simp

theorem decodeLcwLcopy_underrun : decodeLcwLcopy rest = .error .lcwUnderrun ↔ rest.length < 4 := by
  unfold decodeLcwLcopy
  split <;> simp

/-- The decoder answers an underrun after a control byte exactly where its command is cut short. -/
theorem decodeLcw_underrun_iff :
    decodeLcw cfg start (c :: rest) = .error .lcwUnderrun ↔
      ¬(start = true ∧ c.toNat = 0x00) ∧ LcwCut cfg c rest := by
  unfold LcwCut
  by_cases h0 : start = true ∧ c.toNat = 0x00
  · rw [decodeLcw_mode h0]
    simp [h0]
  · rw [and_iff_right h0]
    rcases controlByte_cases c with hc | hc | ⟨hc, hc'⟩ | ⟨hc, hc'⟩ | hc | hc
    · rw [decodeLcw_scopy h0 hc, decodeLcwScopy_underrun]
      omega
    · rw [decodeLcw_end hc]
      simp [hc]
    · rw [decodeLcw_lit hc hc', decodeLcwLit_underrun (by omega) hc']
      omega
    · rw [decodeLcw_rcopy hc hc', decodeLcwRcopy_underrun]
      omega
    · cases hlong : cfg.lcwLongForms with
      | false => simp [decodeLcw_reserved hlong (c := c) (by omega), hc]
      | true => simp [decodeLcw_fill hlong hc, decodeLcwFill_underrun, hc]
    · cases hlong : cfg.lcwLongForms with
      | false => simp [decodeLcw_reserved hlong (c := c) (by omega), hc]
      | true => simp [decodeLcw_lcopy hlong hc, decodeLcwLcopy_underrun, hc]

end Sys2Proof

namespace Sys2Proof.Machine

variable {s : State}

/-! ### The step on what is no instruction -/

theorem step_of_lcw_reject {e : LcwEngine} {r : Reject} (he : s.engine = .lcw e)
    (hdec : decodeLcw s.config (e.ls == 0) (e.input.drop e.ls) = .error r) : step s = takeReject r s := by
  simp [step, fetch_lcw he, hdec, Fetched.ofDecode]

theorem step_of_block_reject {e : BlockEngine} {r : Reject} (he : s.engine = .block e) (hvs : e.vs < e.input.length)
    (hdec : decodeVp s.config (e.input.drop e.vs) = .error r) : step s = takeReject r s := by
  simp [step, fetch_block he hvs, hdec, Fetched.ofDecode]

theorem step_of_bad_request {r : HostRequest} {queue : List HostRequest} (idle : s.engine = .idle)
    (hqueue : s.pending = r :: queue) (hdec : decodeHost r = .error .badHostOp) :
    step s = .next (raiseError .badHostOp 0 { s with pending := queue }) := by
  simp [step, fetch_eq_idle.2 idle, hqueue, hdec, takeReject]

theorem step_of_lcw_underrun {e : LcwEngine} (he : s.engine = .lcw e)
    (hdec : decodeLcw s.config (e.ls == 0) (e.input.drop e.ls) = .error .lcwUnderrun) :
    step s = .next (raiseError .lcwSrcUnderrun e.ls s) := by
  rw [step_of_lcw_reject he hdec, takeReject, withLcw_eq he]

theorem step_of_lcw_reserved {e : LcwEngine} (he : s.engine = .lcw e)
    (hdec : decodeLcw s.config (e.ls == 0) (e.input.drop e.ls) = .error .lcwReserved) :
    step s = .next (raiseError .lcwReserved e.ls s) := by
  rw [step_of_lcw_reject he hdec, takeReject, withLcw_eq he]

theorem step_of_vp_underrun {e : BlockEngine} (he : s.engine = .block e) (hvs : e.vs < e.input.length)
    (hdec : decodeVp s.config (e.input.drop e.vs) = .error .vpUnderrun) :
    step s = .next (raiseError .vptrSrcUnderrun e.vs s) := by
  rw [step_of_block_reject he hvs hdec, takeReject, withBlock_eq he]

end Sys2Proof.Machine
end

section
/-!
CERTIFICATES. The obligations of the encodings (30_encoding.md): R81, R82, R84, R85, R87, R88, R91, R92, R94, R100, R161,
R163, R200, R201.
-/

namespace Sys2Proof.Proofs

open Sys2Proof.Machine

/-- Settles O6, by the instructions: each equation of the decoder, read at the code of its instruction. -/
theorem decodeOfEncode : Obligations.DecodeOfEncode := by
  intro cfg start i rest hwf
  cases i with
  | lcwMode =>
    intro hmode _
    exact decodeLcw_mode ⟨hmode rfl, rfl⟩
  | lcwScopy n dist =>
    intro _ hhead
    exact decodeLcw_scopyCode n dist rest fun hs hzero => hhead hs nofun (congrArg some hzero)
  | lcwEnd => exact fun _ _ => decodeLcw_end rfl
  | lcwLit bytes =>
    obtain ⟨h1, h63⟩ : 1 ≤ bytes.length ∧ bytes.length ≤ 63 := by simpa [Instr.wf] using hwf
    exact fun _ _ => decodeLcw_litCode h1 h63 rest
  | lcwFill cnt val => exact fun _ _ => decodeLcw_fillCode hwf cnt val rest
  | lcwLcopy cnt off => exact fun _ _ => decodeLcw_lcopyCode hwf cnt off rest
  | lcwRcopy n off => exact fun _ _ => decodeLcw_rcopyCode (of_decide_eq_true hwf) off rest
  | vpSkip n => exact decodeVp_skip n rest
  | vpRepeat k b => exact decodeVp_repeat k b rest
  | vpList k b idx =>
    have hidx : idx.length = cfg.extraOf k := of_decide_eq_true hwf
    show decodeVp cfg (vpBytes 2 (k ++ b) ++ (idx ++ rest)) = _
    rw [decodeVp_list, decodeVpList_eq_ok, ← hidx]
    simp
  | vpPut b => exact decodeVp_put b rest
  | vpPutk b => exact decodeVp_putk b rest
  | vpRun b m => exact decodeVp_run b m rest
  | vpRunk b m => exact decodeVp_runk b m rest
  | vpIllegal x => exact decodeVp_illegal x rest
  | adCode s m => exact decodeAd_encode s m
  | _ => rfl

/-- Settles O7: the bytes a decoder read are the instruction's code and what follows it. -/
theorem encodeOfDecode : Obligations.EncodeOfDecode := by
  refine ⟨fun cfg start bytes i => decodeLcw_readFrom, fun cfg bytes i => decodeVp_readFrom, encode_decodeAd,
    fun cfg r i h => ?host⟩
  case host =>
    rcases decodeHost_cases r with ⟨j, hj, host⟩ | hbad
    · obtain rfl : j = i := Except.ok.inj (hj.symm.trans h)
      exact ⟨wf_of_host host, host⟩
    · rw [hbad] at h
      cases h

/-- Settles O1, by running the decoders. -/
theorem specWordsDecode : Obligations.SpecWordsDecode := by
  unfold Obligations.SpecWordsDecode
  decide

/-- Settles O2: the equation of each range of R87, with the fields of its format as numbers. -/
theorem lcwControlByteMap : Obligations.LcwControlByteMap := by
  refine ⟨fun cfg start c rest hlen => ?map, fun cfg start c rest hlong hc => ⟨decodeLcw_reserved hlong hc, ?step⟩⟩
  case map =>
    match rest, hlen with
    | b0 :: b1 :: b2 :: b3 :: rest, hlen =>
      refine ⟨decodeLcw_mode, fun h0 => ⟨fun hc => ?scopy, decodeLcw_end, fun ⟨hc, hc'⟩ => ?lit,
        fun ⟨hc, hc'⟩ => ?rcopy, fun hlong => ⟨fun hc => ?fill, fun hc => ?lcopy⟩⟩⟩
      case scopy =>
        rw [decodeLcw_scopy h0 hc]
        exact decodeLcwScopy_numbers hc b0 _
      case lit => rw [decodeLcw_lit hc hc', decodeLcwLit_numbers hc hc' hlen]
      case rcopy =>
        rw [decodeLcw_rcopy hc hc']
        exact decodeLcwRcopy_numbers hc b0 b1 _
      case fill =>
        rw [decodeLcw_fill hlong hc]
        exact ⟨_, rfl, le16_toNat b0 b1⟩
      case lcopy =>
        rw [decodeLcw_lcopy hlong hc]
        exact ⟨_, _, rfl, le16_toNat b0 b1, le16_toNat b2 b3⟩
  case step =>
    rintro s e he rfl hdrop
    exact step_of_lcw_reserved he (hdrop ▸ decodeLcw_reserved hlong hc)

/-- Settles O3: any two bytes are a word of an opcode and thirteen bits, and the opcode's equation gives the command. -/
theorem vpOpcodeMap : Obligations.VpOpcodeMap := by
  intro cfg lo hi m rest hroom
  obtain ⟨op, low, hbytes, hw⟩ := exists_vpBytes lo hi
  obtain ⟨k, b, hlow⟩ := exists_listFields low
  have hkb : low.toNat = 256 * k.toNat + b.toNat := hlow ▸ append_toNat k b
  have hop : (8192 * op.toNat + low.toNat) / 8192 = op.toNat := by omega
  have hlow13 : (8192 * op.toNat + low.toNat) % 8192 = low.toNat := by omega
  have hk : (8192 * op.toNat + low.toNat) / 256 % 32 = k.toNat := by omega
  have hb : (8192 * op.toNat + low.toNat) % 256 = b.toNat := by omega
  have hdec : decodeVp cfg (lo :: hi :: m :: rest) = decodeVp cfg (vpBytes op low ++ m :: rest) := by
    rw [← hbytes]
    rfl
  simp only [hdec, hw, hop, hlow13, hk, hb]
  rcases opcode_cases op with rfl | rfl | rfl | rfl | rfl | rfl | rfl | rfl
  · exact ⟨_, decodeVp_skip low _, by simp⟩
  · exact ⟨_, hlow ▸ decodeVp_repeat k b _, by simp⟩
  · exact ⟨_, hlow ▸ (decodeVp_list k b _).trans (decodeVpList_eq_ok.2 ⟨hroom k, rfl⟩), by simp⟩
  · exact ⟨_, decodeVp_put low _, by simp⟩
  · exact ⟨_, decodeVp_putk low _, by simp⟩
  · exact ⟨_, decodeVp_run low m rest, by simp⟩
  · exact ⟨_, decodeVp_runk low m rest, by simp⟩
  · exact ⟨_, decodeVp_illegal low _, by simp⟩

/-- Settles O5: the number alone selects the operation, and no clause looks at an operand its operation does not use. -/
theorem hostOperationNumbers : Obligations.HostOperationNumbers := by
  rintro ⟨op, args, payload⟩
  refine ⟨?_, ?_, ?_, ?_, ?_, ?_, ?_, ?_, ?_, decodeHost_badHostOp⟩ <;> rintro rfl <;> rfl

/-- Settles O9: the record is rejected, and its error enters at `INFO` 0 with the request taken. -/
theorem badOperationNumber : Obligations.BadOperationNumber := by
  intro s r rest idle hqueue hop
  rw [step_of_bad_request idle hqueue (decodeHost_badHostOp hop), raiseError, ← idle]
  rfl

/-- Settles O11: the decoder's underruns, and the step on each. -/
theorem streamUnderruns : Obligations.StreamUnderruns := by
  refine ⟨fun s e he hend => ?nothingLeft, fun cfg start c rest => ⟨decodeLcw_underrun_iff, ?cut⟩,
    fun s e he hlen => ?halfWord, fun s e b he hdrop => ?runWord⟩
  case nothingLeft =>
    refine step_of_lcw_underrun he ?_
    rw [List.drop_eq_nil_of_le hend]
    rfl
  case cut =>
    rintro s e he rfl hdrop hmode hcut
    refine step_of_lcw_underrun he ?_
    rw [hdrop, decodeLcw_underrun_iff, beq_iff_eq]
    exact ⟨hmode, hcut⟩
  case halfWord =>
    have hone : (e.input.drop e.vs).length = 1 := by
      rw [List.length_drop]
      omega
    obtain ⟨b, hb⟩ := List.length_eq_one_iff.1 hone
    refine step_of_vp_underrun he (by omega) ?_
    rw [hb]
    rfl
  case runWord =>
    obtain ⟨op, hop, hdrop⟩ : ∃ op, (op = 5 ∨ op = 6) ∧ e.input.drop e.vs = vpBytes op b := by
      rcases hdrop with h | h
      · exact ⟨5, .inl rfl, h⟩
      · exact ⟨6, .inr rfl, h⟩
    have hvs : e.vs < e.input.length := by
      have hlen := congrArg List.length hdrop
      rw [List.length_drop, vpBytes, List.length_cons] at hlen
      omega
    exact step_of_vp_underrun he hvs (hdrop ▸ decodeVp_run_cut hop b)

end Sys2Proof.Proofs
end

section
/-!
SUPPORT. The gates and the operand checks of the host operations (40_host_operations.md R119 to R134): one equation per
outcome of an operation on an idle core.
-/

namespace Sys2Proof.Machine

variable {s : State}

section
variable (idle : s.engine = .idle)
include idle

/-! ### The ends of an operation of an idle core -/

theorem raiseError_of_idle (c : Cause) (n : Nat) : raiseError c n s =
    { s with status := c.status, info := BitVec.ofNat 32 n, resp := some ⟨c.status, 0⟩ } := by
  rw [raiseError, ← idle]

theorem finishOk_of_idle : finishOk s = { s with status := 0, info := 0, resp := some ⟨0, 0⟩ } := by
  rw [finishOk, ← idle]
  rfl

theorem commitLcw_of_idle (e : LcwEngine) :
    commitLcw e s = { s with cb := e.work, status := 0, info := 0, resp := some ⟨0, 0⟩ } :=
  finishOk_of_idle (s := { s with cb := e.work }) idle

theorem commitBlock_of_idle (e : BlockEngine) :
    commitBlock e s = { s with ras := e.work, status := 0, info := 0, resp := some ⟨0, 0⟩ } :=
  finishOk_of_idle (s := { s with ras := e.work }) idle

theorem commitAdpcm_of_idle (e : AdpcmEngine) :
    commitAdpcm e s = { s with
      pcm := e.work, aIndex := e.index, aPred := e.pred, status := 0, info := 0, resp := some ⟨0, 0⟩ } :=
  finishOk_of_idle (s := { s with pcm := e.work, aIndex := e.index, aPred := e.pred }) idle

theorem renewed_of_idle (configured : Bool) (cfg : CfgRegs) : renewed configured cfg s =
    { s with
      status := 0, info := 0, configured := configured, aIndex := 0, aPred := 0, cfg := cfg
      cb := [], ras := [], pcm := [], epoch := s.epoch + 1, resp := some ⟨0, 0⟩ } :=
  finishOk_of_idle (s := { freshMemories s with configured := configured, aIndex := 0, aPred := 0, cfg := cfg }) idle

/-! ### The gates -/

theorem whenConfigured_eq (conf : s.configured = true) (r : Result) : whenConfigured s r = r := by
  rw [whenConfigured, whenIdle_eq idle, if_pos conf]

theorem whenConfigured_unconfigured (conf : s.configured = false) (r : Result) :
    whenConfigured s r = .next (raiseError .notConfigured 0 s) := by
  rw [whenConfigured, whenIdle_eq idle, if_neg (ne_true_of_eq_false conf)]

theorem readWhenConfigured_eq (conf : s.configured = true) (r : Result) : readWhenConfigured s r = r := by
  rw [readWhenConfigured, whenIdle_eq idle, if_pos conf]

theorem readWhenConfigured_unconfigured (conf : s.configured = false) (r : Result) :
    readWhenConfigured s r = .next (failRead .notConfigured s) := by
  rw [readWhenConfigured, whenIdle_eq idle, if_neg (ne_true_of_eq_false conf)]

/-! ### `CONFIG` (R122) -/

variable {p : ConfigOperands}

theorem execConfig_configured (conf : s.configured = true) :
    execConfig p s = .next (raiseError .alreadyConfigured 0 s) := by
  rw [execConfig, whenIdle_eq idle, if_pos conf]

theorem execConfig_unconfigured (conf : s.configured = false) : execConfig p s =
    if (CfgRegs.ofOperands p).geometryOk = false then .next (raiseError .badGeometry 0 s)
    else if audioBad s.config p = true then .next (raiseError .badAudioConfig 0 s)
    else .next (renewed true (CfgRegs.ofOperands p) s) := by
  rw [execConfig, whenIdle_eq idle, if_neg (ne_true_of_eq_false conf)]
  rfl

omit idle in
/-- The declared audio is mono, of 16 bits, and of the fixed rate if there is one (R122). -/
theorem audioBad_eq_false_iff {c : Config} : audioBad c p = false ↔
    p.aCh.toNat = 1 ∧ p.aBits.toNat = 16 ∧ ∀ rate, c.fixedRate = some rate → p.aRate = rate := by
  have hch : p.aCh = 1 ↔ p.aCh.toNat = 1 := BitVec.toNat_inj.symm
  have hbits : p.aBits = 16 ↔ p.aBits.toNat = 16 := BitVec.toNat_inj.symm
  rw [← hch, ← hbits, audioBad]
  cases c.fixedRate <;> simp [and_assoc]

/-! ### The operations with a payload (R125, R127, R130) and `ADPCM_SETPARAM` (R129) -/

section
variable (conf : s.configured = true) {d o : BitVec 32} {payload : List Byte}
include conf

theorem execCbUpdate_window (h : s.cfg.cbBytes < d.toNat + o.toNat) :
    execCbUpdate d o payload s = .next (raiseError .cbWindow 0 s) := by
  rw [execCbUpdate, whenConfigured_eq idle conf, if_pos h]

theorem execCbUpdate_overLimit (hwin : d.toNat + o.toNat ≤ s.cfg.cbBytes) (h : s.cfg.maxCbf.toNat < payload.length) :
    execCbUpdate d o payload s = .next (raiseError .cbOverLimit 0 s) := by
  rw [execCbUpdate, whenConfigured_eq idle conf, if_neg (Nat.not_lt.2 hwin), if_pos h]

theorem execCbUpdate_runs (hwin : d.toNat + o.toNat ≤ s.cfg.cbBytes) (hlim : payload.length ≤ s.cfg.maxCbf.toNat) :
    execCbUpdate d o payload s = runEngine (payload.length + 1) (beginLcw d o payload s) := by
  rw [execCbUpdate, whenConfigured_eq idle conf, if_neg (Nat.not_lt.2 hwin), if_neg (Nat.not_lt.2 hlim)]

theorem execVptrExpand_overLimit (h : s.cfg.maxVptr.toNat < payload.length) :
    execVptrExpand payload s = .next (raiseError .vptrOverLimit 0 s) := by
  rw [execVptrExpand, whenConfigured_eq idle conf, if_pos h]

theorem execVptrExpand_runs (hlim : payload.length ≤ s.cfg.maxVptr.toNat) :
    execVptrExpand payload s = runEngine (payload.length + 1) (beginBlock payload s) := by
  rw [execVptrExpand, whenConfigured_eq idle conf, if_neg (Nat.not_lt.2 hlim)]

theorem execAdpcmDecode_badLength (h : payload.length ≠ unitBytes s.config) :
    execAdpcmDecode payload s = .next (raiseError .adpcmLen 0 s) := by
  rw [execAdpcmDecode, whenConfigured_eq idle conf, if_pos h]

theorem execAdpcmDecode_runs (hlen : payload.length = unitBytes s.config) :
    execAdpcmDecode payload s = runEngine (s.config.unitSamples.toNat + 1) (beginAdpcm payload s) := by
  rw [execAdpcmDecode, whenConfigured_eq idle conf, if_neg (not_not.2 hlen)]

theorem execAdpcmSetparam_eq (idx : BitVec 16) (pred : BitVec 32) : execAdpcmSetparam idx pred s =
    if 88 < idx.toNat ∨ pred.toInt < -32768 ∨ 32767 < pred.toInt then .next (raiseError .adpcmBadState 0 s)
    else .next { s with
      aIndex := BitVec.ofNat 7 idx.toNat, aPred := BitVec.ofInt 16 pred.toInt
      status := 0, info := 0, resp := some ⟨0, 0⟩ } := by
  rw [execAdpcmSetparam, whenConfigured_eq idle conf, finishOk_of_idle]
  exact idle

/-! ### The reads (R131 to R133) -/

theorem execReadRaster_eq (x y : BitVec 16) : execReadRaster x y s =
    if s.cfg.rw.toNat ≤ x.toNat ∨ s.cfg.rh.toNat ≤ y.toNat then .next (failRead .readRange s)
    else .next (answerRead (readRas s.epoch s.ras (rasKey x.toNat y.toNat)).toNat s) := by
  rw [execReadRaster, readWhenConfigured_eq idle conf]

theorem execReadPcm_eq (k : BitVec 16) : execReadPcm k s =
    if s.config.unitSamples.toNat ≤ k.toNat then .next (failRead .readRange s)
    else .next (answerRead (readPcmAt s.epoch s.pcm k.toNat).toInt s) := by
  rw [execReadPcm, readWhenConfigured_eq idle conf]

end

theorem execReadReg_of_some {n : BitVec 8} {v : Int} (h : readRegister s n.toNat = some v) :
    execReadReg n s = .next (answerRead v s) := by
  rw [execReadReg, whenIdle_eq idle, h]

theorem execReadReg_of_none {n : BitVec 8} (h : readRegister s n.toNat = none) :
    execReadReg n s = .next (failRead .readRange s) := by
  rw [execReadReg, whenIdle_eq idle, h]

end

/-- The registers are those numbered 0 to 16 (R23 to R25). -/
theorem readRegister_eq_none {n : Nat} (h : 17 ≤ n) : readRegister s n = none := by
  unfold readRegister
  split
  pick_goal -1
  · rfl
  all_goals omega

end Sys2Proof.Machine
end

section
/-!
SUPPORT. The unit loop in closed form (43_adpcm.md R255 to R257): the operation in progress after `k` codes, and that the
loop ends with the whole unit.
-/

namespace Sys2Proof.Machine

variable {s : State} {payload : List Byte} {k : Nat}

/-- The working copy of `PCM` after the first `k` codes of a unit: sample `j` is the predictor after code `j`. -/
def unitWork (c : Config) (input : List Byte) (start : BitVec 7 × BitVec 16) (m : Memory 16) : Nat → Memory 16
  | 0 => m
  | k + 1 => Memory.set (unitWork c input start m k) k (unitPair c input start (k + 1)).2

/-- The `ADPCM_DECODE` of `payload` begun in `s`, after `k` codes (R257). -/
def unitEngine (s : State) (payload : List Byte) (k : Nat) : AdpcmEngine where
  input := payload
  asOff := k / 2
  ak := k
  index := (unitPair s.config payload (s.aIndex, s.aPred) k).1
  pred := (unitPair s.config payload (s.aIndex, s.aPred) k).2
  work := unitWork s.config payload (s.aIndex, s.aPred) s.pcm k

theorem unitPair_succ {c : Config} {start : BitVec 7 × BitVec 16} {code : BitVec 4}
    (h : codeAt c payload k = some code) : unitPair c payload start (k + 1) =
      adpcmNext c (unitPair c payload start k).1 (unitPair c payload start k).2
        (code.extractLsb' 3 1) (code.extractLsb' 0 3) := by
  simp [unitPair, h]

/-- Sample `k` is the predictor after code `k`, and stays so. -/
theorem readPcmAt_unitWork (ep : Nat) (c : Config) (start : BitVec 7 × BitVec 16) (m : Memory 16) {n : Nat}
    (h : k < n) : readPcmAt ep (unitWork c payload start m n) k = (unitPair c payload start (k + 1)).2 := by
  induction n with
  | zero => exact absurd h (Nat.not_lt_zero k)
  | succ n ih =>
    rw [unitWork, readPcmAt_set]
    split
    next hk => rw [hk]
    next hk => exact ih (by omega)

/-- The state of an `ADPCM_DECODE` of `payload` begun in `s`, after `k` codes. -/
def decodingUnit (s : State) (payload : List Byte) (k : Nat) : State :=
  { s with engine := .adpcm (unitEngine s payload k) }

theorem beginAdpcm_eq_decodingUnit : beginAdpcm payload s = decodingUnit s payload 0 := rfl

theorem decodingUnit_busy : (decodingUnit s payload k).engine ≠ .idle := nofun

/-- A round of the unit loop runs the next code. -/
theorem engineStep_decodingUnit (hlen : payload.length = unitBytes s.config) (hk : k < s.config.unitSamples.toNat) :
    engineStep (decodingUnit s payload k) = .next (decodingUnit s payload (k + 1)) := by
  obtain ⟨code, hcode⟩ := codeAt_isSome hlen hk
  have hfetch : fetch (decodingUnit s payload k) = .command (decodeAd code) := fetch_adpcm rfl hk hcode
  have hsample : ¬ (decodingUnit s payload k).config.unitSamples.toNat ≤ (unitEngine s payload k).ak :=
    Nat.not_le.2 hk
  simp only [engineStep, hfetch, decodeAd, runCommand, execAdCode]
  rw [withAdpcm_eq rfl, if_neg hsample]
  simp only [decodingUnit, unitEngine, unitWork, unitPair_succ hcode]

/-- The round after the last code ends the operation. -/
theorem engineStep_decodingUnit_last :
    engineStep (decodingUnit s payload s.config.unitSamples.toNat) =
      .next (commitAdpcm (unitEngine s payload s.config.unitSamples.toNat) s) := by
  have hfetch : fetch (decodingUnit s payload s.config.unitSamples.toNat) = .finished := if_pos le_rfl
  rw [engineStep, hfetch]
  rfl

theorem runEngine_decodingUnit (hlen : payload.length = unitBytes s.config) {left : Nat}
    (hleft : k + left = s.config.unitSamples.toNat) :
    runEngine (left + 1) (decodingUnit s payload k) =
      .next (commitAdpcm (unitEngine s payload s.config.unitSamples.toNat) s) := by
  induction left generalizing k with
  | zero =>
    obtain rfl : k = s.config.unitSamples.toNat := hleft
    rw [runEngine_succ decodingUnit_busy engineStep_decodingUnit_last, runEngine_idle rfl]
  | succ left ih =>
    rw [runEngine_succ decodingUnit_busy (engineStep_decodingUnit hlen (by omega))]
    exact ih (by omega)

/-- A unit of `UNIT_BYTES` bytes is decoded to its end (R130, R257). -/
theorem runEngine_beginAdpcm (hlen : payload.length = unitBytes s.config) :
    runEngine (s.config.unitSamples.toNat + 1) (beginAdpcm payload s) =
      .next (commitAdpcm (unitEngine s payload s.config.unitSamples.toNat) s) := by
  rw [beginAdpcm_eq_decodingUnit]
  exact runEngine_decodingUnit hlen (Nat.zero_add _)

end Sys2Proof.Machine
end

section
/-!
SUPPORT. The frame of the block-pointer stream (42_vptr_block_engine.md R59, R202, R205): in any state, no command
writes a pixel outside the grid.
-/

namespace Sys2Proof.Machine

variable {s t : State} {e e' : BlockEngine}

/-- `new` holds what `old` holds at every raster place outside the grid (R59). -/
def SameOffGrid (c : CfgRegs) (old new : Memory 16) : Prop :=
  ∀ key, (∀ d, d < c.nblk → ¬ c.inBlock d key) → Memory.get? new key = Memory.get? old key

theorem SameOffGrid.refl (c : CfgRegs) (m : Memory 16) : SameOffGrid c m m := fun _ _ => rfl

theorem SameOffGrid.trans {c : CfgRegs} {m₁ m₂ m₃ : Memory 16} (h : SameOffGrid c m₁ m₂) (h' : SameOffGrid c m₂ m₃) :
    SameOffGrid c m₁ m₃ := fun key hkey => (h' key hkey).trans (h key hkey)

theorem put_sameOffGrid {keyed : Bool} {b : Nat} (h : put s keyed b e = .ok e') :
    SameOffGrid s.cfg e.work e'.work := by
  unfold put at h
  split at h
  · cases h
  · split at h
    · cases h
    next hd =>
      split at h
      · cases h
      · cases h
        exact fun key hkey => get?_putPixels_outside s keyed b e.vd _ _ le_rfl (hkey e.vd (Nat.lt_of_not_le hd))

theorem putAll_sameOffGrid {keyed : Bool} {bs : List Nat} (h : putAll s keyed bs e = .ok e') :
    SameOffGrid s.cfg e.work e'.work := by
  induction bs generalizing e with
  | nil => cases h; exact .refl _ _
  | cons b bs ih =>
    rw [putAll] at h
    split at h
    next e₁ hput => exact (put_sameOffGrid hput).trans (ih h)
    · cases h

theorem putListed_sameOffGrid {n : Nat} {idx : List Byte} (h : putListed s n idx e = .ok e') :
    SameOffGrid s.cfg e.work e'.work := by
  induction n generalizing idx e with
  | zero => cases h; exact .refl _ _
  | succ n ih =>
    cases idx with
    | nil => cases h
    | cons b bs =>
      rw [putListed] at h
      split at h
      next e₁ hput => exact (put_sameOffGrid hput).trans (ih h)
      · cases h

/-- The ends of a round of the block loop, in any state: the operation goes on with the pixels outside the grid as they
were; an error; or the working copy is committed. -/
inductive BlockEffect (s : State) (e : BlockEngine) : State → Prop
  | goesOn (e' : BlockEngine) (frame : SameOffGrid s.cfg e.work e'.work) :
      BlockEffect s e { s with engine := .block e' }
  | error (c : Cause) (n : Nat) : BlockEffect s e (raiseError c n s)
  | ends : BlockEffect s e (commitBlock e s)

/-- A result that is a next state is an effect of the block loop. -/
def HasBlockEffect (s : State) (e : BlockEngine) (r : Result) : Prop := ∀ t, r = .next t → BlockEffect s e t

namespace HasBlockEffect

theorem next (h : BlockEffect s e t) : HasBlockEffect s e (.next t) := by
  rintro _ ⟨⟩
  exact h

theorem error (c : Cause) (n : Nat) : HasBlockEffect s e (.next (raiseError c n s)) := next (.error c n)

theorem ite {c : Prop} [Decidable c] {a b : Result} (ha : HasBlockEffect s e a) (hb : HasBlockEffect s e b) :
    HasBlockEffect s e (if c then a else b) := by
  split
  · exact ha
  · exact hb

theorem withBlock (he : s.engine = .block e) {f : BlockEngine → Result} (h : HasBlockEffect s e (f e)) :
    HasBlockEffect s e (withBlock s f) := by
  rwa [withBlock_eq he]

theorem blockResult (len : Nat) {r : Except PutStop BlockEngine}
    (frame : ∀ e', r = .ok e' → SameOffGrid s.cfg e.work e'.work) :
    HasBlockEffect s e (blockResult len e s r) := by
  rcases r with (c | _) | e'
  · exact error _ _
  · nofun
  · exact next (.goesOn _ (frame e' rfl))

theorem puts (len : Nat) (keyed : Bool) (bs : List Nat) :
    HasBlockEffect s e (Machine.blockResult len e s (putAll s keyed bs e)) :=
  blockResult len fun _ h => putAll_sameOffGrid h

theorem vpListOp (k : BitVec 5) (b : BitVec 8) (idx : List Byte) : HasBlockEffect s e (vpListOp k b idx e s) := by
  refine blockResult _ fun e' h => ?_
  split at h
  next e₁ hput => exact (put_sameOffGrid hput).trans (putListed_sameOffGrid h)
  · cases h

end HasBlockEffect

/-- Every next state of a round of the block loop is one of the three effects. -/
theorem engineStep_hasBlockEffect (he : s.engine = .block e) : HasBlockEffect s e (engineStep s) := by
  unfold engineStep fetch
  simp only [he]
  by_cases hend : e.input.length ≤ e.vs
  · rw [if_pos hend]
    refine .next ?_
    rw [closeStream, he]
    exact .ends
  rw [if_neg hend]
  cases hd : decodeVp s.config (e.input.drop e.vs) with
  | error r =>
    rcases decodeVp_error hd with rfl | ⟨k, b, idx, rfl, -⟩
    · exact .withBlock he (.error _ _)
    · exact .withBlock he (.vpListOp k b idx)
  | ok i =>
    rcases (decodeVp_ok hd).2 with ⟨n, rfl⟩ | ⟨k, b, rfl⟩ | ⟨k, b, idx, rfl, -⟩ | ⟨b, rfl⟩ | ⟨b, rfl⟩ | ⟨b, m, rfl⟩ |
      ⟨b, m, rfl⟩ | ⟨x, rfl⟩
    · exact .withBlock he (.ite (.error _ _) (.next (.goesOn _ (.refl _ _))))
    · exact .withBlock he (.puts _ _ _)
    · exact .withBlock he (.vpListOp k b idx)
    · exact .withBlock he (.puts _ _ _)
    · exact .withBlock he (.puts _ _ _)
    · exact .withBlock he (.ite (.error _ _) (.puts _ _ _))
    · exact .withBlock he (.ite (.error _ _) (.puts _ _ _))
    · exact .withBlock he (.error _ _)

/-- What every state of a `VPTR_EXPAND` begun in `s` keeps: outside the grid the raster, and the working copy while the
operation lasts, are those of `s`. -/
structure BlockFrame (s u : State) : Prop where
  cfg : u.cfg = s.cfg
  raster : SameOffGrid s.cfg s.ras u.ras
  engine : u.engine = .idle ∨ ∃ e, u.engine = .block e ∧ SameOffGrid s.cfg s.ras e.work

theorem engineStep_keeps_blockFrame {a b : State} (frame : BlockFrame s a) (h : engineStep a = .next b) :
    BlockFrame s b := by
  obtain ⟨hcfg, hras, idle | ⟨e, he, hwork⟩⟩ := frame
  · rw [engineStep, fetch_eq_idle.2 idle] at h
    cases h
    exact ⟨hcfg, hras, .inl idle⟩
  · cases engineStep_hasBlockEffect he b h with
    | goesOn e' hframe => exact ⟨hcfg, hras, .inr ⟨e', rfl, hwork.trans (hcfg ▸ hframe)⟩⟩
    | error c n => exact ⟨hcfg, hras, .inl rfl⟩
    | ends => exact ⟨hcfg, hwork, .inl rfl⟩

end Sys2Proof.Machine
end

section
/-!
SUPPORT. The host operations as a whole (R121, R134, R353): how a stream operation ends, how any operation ends, and that
the machine's steps are the rounds of an operation.
-/

namespace Sys2Proof.Machine

variable {s t : State}

/-! ### How the stream operations end -/

/-- A `CB_UPDATE` ends with an error of its stream, or commits a copy that differs inside the window only (R125). -/
theorem runEngine_beginLcw (inv : s.Inv) {d o : BitVec 32} {payload : List Byte}
    (hwin : d.toNat + o.toNat ≤ s.cfg.cbBytes) (hlim : payload.length ≤ s.cfg.maxCbf.toNat) :
    (∃ c n, isLcwCause c ∧ n ≤ payload.length ∧
      runEngine (payload.length + 1) (beginLcw d o payload s) = .next (raiseError c n s)) ∨
    ∃ e, runEngine (payload.length + 1) (beginLcw d o payload s) = .next (commitLcw e s) ∧
      ∀ a, a < d.toNat ∨ d.toNat + o.toNat ≤ a → Memory.get? e.work a = Memory.get? s.cb a := by
  obtain ⟨t, ht, ⟨c, n, hc, hn, rfl⟩ | ⟨e, ok, hdst, hout, hfull, rfl⟩⟩ :=
    runEngine_lcw rfl (beginLcw_ok inv hwin hlim) (Nat.lt_succ_self _)
  · exact .inl ⟨c, n, hc, hn, ht⟩
  · refine .inr ⟨e, ht, fun a ha => ok.kept a ?_⟩
    rwa [hfull, hout, hdst]

/-- A `VPTR_EXPAND` ends with an error of its stream, or commits a copy that differs inside the grid only (R127). -/
theorem runEngine_beginBlock (inv : s.Inv) (conf : s.configured = true) {payload : List Byte}
    (hlim : payload.length ≤ s.cfg.maxVptr.toNat) :
    (∃ c n, isBlockCause c ∧ n ≤ payload.length ∧
      runEngine (payload.length + 1) (beginBlock payload s) = .next (raiseError c n s)) ∨
    ∃ e, runEngine (payload.length + 1) (beginBlock payload s) = .next (commitBlock e s) ∧
      SameOffGrid s.cfg s.ras e.work := by
  obtain ⟨t, ht, ⟨c, n, hc, hn, rfl⟩ | ⟨e, -, rfl⟩⟩ :=
    runEngine_block (s := beginBlock payload s) rfl (inv.geometry conf) (beginBlock_ok inv hlim) (Nat.lt_succ_self _)
  · exact .inl ⟨c, n, hc, hn, ht⟩
  · have start : BlockFrame s (beginBlock payload s) := ⟨rfl, .refl _ _, .inr ⟨_, rfl, .refl _ _⟩⟩
    exact .inr ⟨e, ht, (runEngine_induction (fun _ _ => engineStep_keeps_blockFrame) start ht).raster⟩

/-! ### How a host operation ends -/

/-- The ends of a host operation (R119, R121, R134); `read` says whether it is a read. -/
inductive HostEnd (s : State) : Bool → State → Prop
  | error (c : Cause) (n : Nat) : HostEnd s false (raiseError c n s)
  | failedRead (c : Cause) : HostEnd s true (failRead c s)
  | ok {read : Bool} {t : State} {v : Int} (resp : t.resp = some ⟨statusOk, v⟩) : HostEnd s read t

/-- A result that is a next state is an end of a host operation. -/
def HasHostEnd (s : State) (read : Bool) (r : Result) : Prop := ∀ t, r = .next t → HostEnd s read t

namespace HasHostEnd

variable {read : Bool} {r : Result}

theorem next (h : HostEnd s read t) : HasHostEnd s read (.next t) := by
  rintro _ ⟨⟩
  exact h

theorem error (c : Cause) (n : Nat) : HasHostEnd s false (.next (raiseError c n s)) := next (.error c n)

theorem failedRead (c : Cause) : HasHostEnd s true (.next (failRead c s)) := next (.failedRead c)

theorem finishOk (u : State) : HasHostEnd s read (.next (finishOk u)) := next (.ok rfl)

theorem answerRead (v : Int) : HasHostEnd s read (.next (answerRead v s)) := next (.ok rfl)

theorem ite {c : Prop} [Decidable c] {a b : Result} (ha : c → HasHostEnd s read a) (hb : ¬c → HasHostEnd s read b) :
    HasHostEnd s read (if c then a else b) := by
  split
  · exact ha ‹_›
  · exact hb ‹_›

theorem whenIdle (h : HasHostEnd s read r) : HasHostEnd s read (whenIdle s r) :=
  fun t ht => h t (whenIdle_eq_next.1 ht).2

theorem whenConfigured (h : s.configured = true → HasHostEnd s false r) : HasHostEnd s false (whenConfigured s r) :=
  .whenIdle (.ite h fun _ => .error _ _)

theorem readWhenConfigured (h : HasHostEnd s true r) : HasHostEnd s true (readWhenConfigured s r) :=
  .whenIdle (.ite (fun _ => h) fun _ => .failedRead _)

end HasHostEnd

/-- Every host operation ends in one of the three ways: its checks fail, or its stream ends as above, or it answers. -/
theorem exec_hasHostEnd (inv : s.Inv) {i : Instr} (host : isCommand i = false) :
    HasHostEnd s (isRead i) (exec i s) := by
  cases i with
  | reset => exact .whenIdle (.finishOk _)
  | config p =>
    exact .whenIdle (.ite (fun _ => .error _ _) fun _ => .ite (fun _ => .error _ _) fun _ =>
      .ite (fun _ => .error _ _) fun _ => .finishOk _)
  | cbUpdate d o payload =>
    refine .whenConfigured fun conf => .ite (fun _ => .error _ _) fun hwin => .ite (fun _ => .error _ _) fun hlim => ?_
    rcases runEngine_beginLcw inv (Nat.le_of_not_lt hwin) (Nat.le_of_not_lt hlim) with ⟨c, n, -, -, h⟩ | ⟨e, h, -⟩
    · exact h ▸ .error c n
    · exact h ▸ .finishOk _
  | vptrExpand payload =>
    refine .whenConfigured fun conf => .ite (fun _ => .error _ _) fun hlim => ?_
    rcases runEngine_beginBlock inv conf (Nat.le_of_not_lt hlim) with ⟨c, n, -, -, h⟩ | ⟨e, h, -⟩
    · exact h ▸ .error c n
    · exact h ▸ .finishOk _
  | adpcmSetparam idx pred =>
    exact .whenConfigured fun _ => .ite (fun _ => .error _ _) fun _ => .finishOk _
  | adpcmDecode payload =>
    refine .whenConfigured fun _ => .ite (fun _ => .error _ _) fun hlen => ?_
    exact runEngine_beginAdpcm (not_not.1 hlen) ▸ .finishOk _
  | readRaster x y => exact .readWhenConfigured (.ite (fun _ => .failedRead _) fun _ => .answerRead _)
  | readPcm k => exact .readWhenConfigured (.ite (fun _ => .failedRead _) fun _ => .answerRead _)
  | readReg n =>
    refine .whenIdle ?_
    split
    · exact .answerRead _
    · exact .failedRead _
  | _ => exact absurd host nofun

/-! ### An operation is its commands -/

theorem run_succ {u : State} (h : step s = .next u) (n : Nat) :
    Sys2Proof.core.run (n + 1) s = Sys2Proof.core.run n u := by
  have hcore : Sys2Proof.core.step s = .next u := h
  simp only [Host.Core.run, hcore]

/-- The rounds of an operation in progress are steps of the machine. -/
theorem run_of_runEngine {fuel : Nat} (h : runEngine fuel s = .next t) :
    ∃ n, n ≤ fuel ∧ Sys2Proof.core.run n s = .next t := by
  induction fuel generalizing s with
  | zero => exact ⟨0, le_rfl, h⟩
  | succ fuel ih =>
    by_cases idle : s.engine = .idle
    · rw [runEngine_idle idle] at h
      exact ⟨0, Nat.zero_le _, h⟩
    · cases hr : engineStep s with
      | next u =>
        rw [runEngine_succ idle hr] at h
        obtain ⟨n, hn, hrun⟩ := ih h
        exact ⟨n + 1, Nat.succ_le_succ hn, (run_succ ((step_eq_engineStep idle).trans hr) n).trans hrun⟩
      | fault | refused => cases he : s.engine <;> simp_all [runEngine]

/-- An operation that runs the engine from `u` is the steps of the machine from `u` to an idle core. -/
theorem run_of_exec {i : Instr} {u : State} {fuel : Nat} (inv : s.Inv) (idle : s.engine = .idle)
    (host : isCommand i = false) (h : exec i s = runEngine fuel u) :
    ∃ n t, n ≤ fuel ∧ Sys2Proof.core.run n u = .next t ∧ t.engine = .idle ∧ exec i s = .next t := by
  obtain ⟨t, _, ht, tidle, -⟩ := exec_answers idle inv host
  obtain ⟨n, hn, hrun⟩ := run_of_runEngine (h.symm.trans ht)
  exact ⟨n, t, hn, hrun, tidle, ht⟩

end Sys2Proof.Machine
end

section
/-!
CERTIFICATES. The obligations of the host operations (40_host_operations.md): R119 to R134, R171, R215, R257, R353.
-/

namespace Sys2Proof.Proofs

open Sys2Proof.Machine

/-- Settles O16: an operation ends with an error, as a failed read, or with the status `OK`. -/
theorem allOrNothing : Obligations.AllOrNothing := by
  intro s t i r inv idle host h hresp hfail
  have hend := exec_hasHostEnd inv host t h
  generalize isRead i = read at hend ⊢
  cases hend with
  | error c n =>
    cases hresp
    exact ⟨raiseError_of_idle idle c n, nofun, fun _ => rfl⟩
  | failedRead c =>
    cases hresp
    exact ⟨rfl, fun _ => ⟨rfl, rfl⟩, nofun⟩
  | ok hok =>
    cases hok.symm.trans hresp
    exact absurd rfl hfail

/-- Settles O29: with its checks passed an operation runs its engine, whose rounds are steps of the machine. -/
theorem operationIsItsCommands : Obligations.OperationIsItsCommands := by
  intro s inv idle conf
  exact ⟨fun d o payload hwin hlim => run_of_exec inv idle rfl (execCbUpdate_runs idle conf hwin hlim),
    fun payload hlim => run_of_exec inv idle rfl (execVptrExpand_runs idle conf hlim),
    fun payload hlen => run_of_exec inv idle rfl (execAdpcmDecode_runs idle conf hlen)⟩

/-- Settles O30: the stream raises an error, or the committed copy is the codebook outside the window. -/
theorem cbUpdateOutcome : Obligations.CbUpdateOutcome := by
  intro s d o payload inv idle conf hwin hlim
  have hrun : exec (.cbUpdate d o payload) s = _ := execCbUpdate_runs idle conf hwin hlim
  rw [hrun]
  rcases runEngine_beginLcw inv hwin hlim with herror | ⟨e, h, hkept⟩
  · exact .inl herror
  · exact .inr ⟨e.work, h.trans (congrArg _ (commitLcw_of_idle idle e)), fun a ha => readCb_congr (hkept a ha)⟩

/-- Settles O40: the stream raises an error, or the committed copy is the raster outside the grid. -/
theorem vptrExpandOutcome : Obligations.VptrExpandOutcome := by
  intro s payload inv idle conf hlim
  have hrun : exec (.vptrExpand payload) s = _ := execVptrExpand_runs idle conf hlim
  rw [hrun]
  rcases runEngine_beginBlock inv conf hlim with herror | ⟨e, h, hframe⟩
  · exact .inl herror
  · refine .inr ⟨e.work, h.trans (congrArg _ (commitBlock_of_idle idle e)), fun key hkey => ?_⟩
    rw [readRas, hframe key hkey, readRas]

/-- Settles O50: of the effects of a command, only going on leaves an operation in progress. -/
theorem commandsWorkOnACopy : Obligations.CommandsWorkOnACopy := by
  intro s t i command h busy
  rw [← runCommand_eq_exec command] at h
  cases runCommand_hasStreamEffect i t h with
  | goesOn e => rfl
  | error | lcwEnds | blockEnds | adpcmEnds => exact absurd rfl busy

/-- Settles O51: in range, neither operand loses a bit in its register. -/
theorem setparamOutcome : Obligations.SetparamOutcome := by
  intro s idx pred idle
  refine ⟨fun conf => whenConfigured_unconfigured idle conf _, fun conf ⟨hidx, hlow, hhigh⟩ => ?stored,
    fun conf hbad => (execAdpcmSetparam_eq idle conf idx pred).trans (if_pos hbad)⟩
  case stored =>
    refine ⟨_, _, (execAdpcmSetparam_eq idle conf idx pred).trans (if_neg (by omega)), ?_, ?_⟩
    · rw [BitVec.toNat_ofNat]
      omega
    · rw [BitVec.toInt_ofInt]
      exact Int.bmod_eq_of_le (by omega) (by omega)

/-- Settles O53, by the closed form of the unit loop. -/
theorem adpcmDecodeOutcome : Obligations.AdpcmDecodeOutcome := by
  intro s payload idle
  refine ⟨fun conf => whenConfigured_unconfigured idle conf _, fun conf => execAdpcmDecode_badLength idle conf,
    fun conf hlen => ⟨(unitEngine s payload s.config.unitSamples.toNat).work, ?_,
      fun k hk => readPcmAt_unitWork _ _ _ _ hk⟩⟩
  have hrun : exec (.adpcmDecode payload) s = _ := execAdpcmDecode_runs idle conf hlen
  rw [hrun, runEngine_beginAdpcm hlen, commitAdpcm_of_idle idle]
  rfl

/-- Settles O19: `RESET` renews the state with zero registers. -/
theorem resetEffect : Obligations.ResetEffect :=
  fun _ idle => execReset_eq_next.2 ⟨idle, renewed_of_idle idle false CfgRegs.zero⟩

/-- Settles O21: the geometry and the audio of the statement are the two checks of `CONFIG`. -/
theorem configOutcome : Obligations.ConfigOutcome := by
  intro s p idle geometry audio
  have hgeometry : (CfgRegs.ofOperands p).geometryOk = true ↔ geometry := CfgRegs.geometryOk_iff _
  have haudio : audioBad s.config p = false ↔ audio := audioBad_eq_false_iff
  have hchecks (conf : s.configured = false) : exec (.config p) s = _ := execConfig_unconfigured idle conf
  refine ⟨execConfig_configured idle, fun conf hbad => ?badGeometry, fun conf hgood hbad => ?badAudio,
    fun conf hgood hok => ?accepted⟩
  case badGeometry => rw [hchecks conf, if_pos (eq_false_of_ne_true (mt hgeometry.1 hbad))]
  case badAudio =>
    rw [hchecks conf, if_neg (ne_false_of_eq_true (hgeometry.2 hgood)), if_pos (eq_true_of_ne_false (mt haudio.1 hbad))]
  case accepted =>
    rw [hchecks conf, if_neg (ne_false_of_eq_true (hgeometry.2 hgood)), if_neg (ne_true_of_eq_false (haudio.2 hok)),
      renewed_of_idle idle]
    rfl

/-- Settles O22: the gates answer before any check, and the three operations without a gate answer other statuses. -/
theorem notConfiguredComesFirst : Obligations.NotConfiguredComesFirst := by
  intro s idle
  refine ⟨fun conf => ⟨fun _ _ _ => whenConfigured_unconfigured idle conf _,
    fun _ => whenConfigured_unconfigured idle conf _, fun _ _ => whenConfigured_unconfigured idle conf _,
    fun _ => whenConfigured_unconfigured idle conf _, fun _ _ => readWhenConfigured_unconfigured idle conf _,
    fun _ => readWhenConfigured_unconfigured idle conf _⟩, ?_⟩
  rintro i (rfl | ⟨p, rfl⟩ | ⟨n, rfl⟩)
  · exact ⟨_, _, resetEffect s idle, rfl, by decide⟩
  · cases conf : s.configured with
    | true => exact ⟨_, _, execConfig_configured idle conf, rfl, by decide⟩
    | false =>
      rw [exec, execConfig_unconfigured idle conf]
      split
      · exact ⟨_, _, rfl, rfl, by decide⟩
      · split <;> exact ⟨_, _, rfl, rfl, by decide⟩
  · cases hreg : readRegister s n.toNat with
    | some v => exact ⟨_, _, execReadReg_of_some idle hreg, rfl, (by decide : statusOk ≠ 0x0110)⟩
    | none => exact ⟨_, _, execReadReg_of_none idle hreg, rfl, by decide⟩

/-- Settles O25: the gate, then the one check of the read. -/
theorem readRasterOutcome : Obligations.ReadRasterOutcome := by
  intro s x y idle
  exact ⟨fun conf => readWhenConfigured_unconfigured idle conf _,
    fun conf hbad => (execReadRaster_eq idle conf x y).trans (if_pos hbad),
    fun conf hx hy => (execReadRaster_eq idle conf x y).trans (if_neg (by omega))⟩

/-- Settles O26: the gate, then the one check of the read. -/
theorem readPcmOutcome : Obligations.ReadPcmOutcome := by
  intro s k idle
  exact ⟨fun conf => readWhenConfigured_unconfigured idle conf _,
    fun conf hbad => (execReadPcm_eq idle conf k).trans (if_pos hbad),
    fun conf hk => (execReadPcm_eq idle conf k).trans (if_neg (Nat.not_le.2 hk))⟩

/-- Settles O27: the read answers what the register map holds at the number. -/
theorem readRegOutcome : Obligations.ReadRegOutcome := by
  intro s idle answers
  have hreg {n : BitVec 8} {v : Int} (h : readRegister s n.toNat = some v) : answers n v := execReadReg_of_some idle h
  refine ⟨hreg rfl, hreg rfl, hreg ?configured, hreg rfl, hreg rfl, hreg rfl, hreg rfl, hreg rfl, hreg rfl, hreg rfl,
    hreg rfl, hreg rfl, hreg rfl, hreg rfl, hreg rfl, hreg rfl, hreg rfl,
    fun n hn => execReadReg_of_none idle (readRegister_eq_none hn)⟩
  case configured => cases hconf : s.configured <;> simp [readRegister, hconf]

/-- Settles O28: the checks of the two operations, in their order. -/
theorem payloadChecks : Obligations.PayloadChecks := by
  intro s d o payload idle conf
  exact ⟨execCbUpdate_window idle conf, execCbUpdate_overLimit idle conf, execCbUpdate_runs idle conf,
    execVptrExpand_overLimit idle conf, execVptrExpand_runs idle conf⟩

end Sys2Proof.Proofs
end

section
/-!
SUPPORT. The LCW commands (41_lcw_codebook.md R162 to R169): one equation per check of the two shared operations, the
bytes a command that passes its checks writes, and the copy sources.
-/

namespace Sys2Proof.Machine

variable {s : State} {e : LcwEngine} {len count : Nat}

/-! ### The bytes written -/

/-- A written list stands at its address, each byte given by `value`, and nothing else is written. -/
theorem writeBytes_bytesWritten (ep : Nat) (m : Memory 8) (a : Nat) {bs : List Byte} {value : Nat → Byte}
    (hvalue : ∀ i (h : i < bs.length), bs[i] = value i) :
    BytesWritten ep a bs.length value m (writeBytes m a bs) :=
  ⟨fun i hi => (readCb_writeBytes_inside ep bs m a i hi).trans (hvalue i hi),
    fun _ hb => readCb_writeBytes_outside ep bs m hb⟩

theorem writeBytes_bytesWritten_getD (ep : Nat) (m : Memory 8) (a : Nat) (bs : List Byte) :
    BytesWritten ep a bs.length (fun i => bs.getD i 0) m (writeBytes m a bs) :=
  writeBytes_bytesWritten ep m a fun i hi => by simp [hi]

theorem writeBytes_replicate_bytesWritten (ep : Nat) (m : Memory 8) (a n : Nat) (v : Byte) :
    BytesWritten ep a n (fun _ => v) m (writeBytes m a (List.replicate n v)) := by
  have h := writeBytes_bytesWritten (bs := List.replicate n v) (value := fun _ => v) ep m a fun i hi => by simp
  rwa [List.length_replicate] at h

/-- A copy from `dist` bytes back repeats the last `dist` bytes before the destination (R62). -/
theorem copyBytes_bytesWritten (ep n : Nat) (m : Memory 8) {src dst dist : Nat} (hdist : src + dist = dst)
    (hpos : 0 < dist) :
    BytesWritten ep dst n (fun i => readCb ep m (src + i % dist)) m (copyBytes ep n m src dst) := by
  obtain rfl : dist = dst - src := by omega
  exact ⟨fun i hi => readCb_copyBytes_inside ep n m src dst i (by omega) hi,
    fun b hb => readCb_congr (get?_copyBytes_outside ep n m src dst hb)⟩

theorem writeBytes_append (m : Memory 8) (a : Nat) (xs ys : List Byte) :
    writeBytes m a (xs ++ ys) = writeBytes (writeBytes m a xs) (a + xs.length) ys := by
  induction xs generalizing m a with
  | nil => rfl
  | cons x xs ih =>
    rw [List.cons_append, writeBytes, ih, writeBytes, List.length_cons, Nat.add_assoc, Nat.add_comm 1]

/-! ### A command that passes its checks -/

/-- The state after a command of `len` bytes that produced `count` bytes: the cursors moved, the working copy is `work`,
all else is as before. -/
def afterLcw (s : State) (e : LcwEngine) (len count : Nat) (work : Memory 8) : State :=
  { s with engine := .lcw { e with ls := e.ls + len, lc := e.lc + count, work := work } }

/-- With room in a window inside the codebook no write is outside it (log 12). -/
theorem lcwAdvance_eq (hroom : e.lc + count ≤ e.outLen) (hwin : e.dstOff + e.outLen ≤ s.cfg.cbBytes)
    (work : Memory 8) : lcwAdvance len count work e s = .next (afterLcw s e len count work) :=
  if_neg (by omega)

/-! ### The checks of a command without a copy source (R164, R169) -/

theorem lcwProduce_underrun (hsrc : e.input.length < e.ls + len) (work : Memory 8) :
    lcwProduce len count work e s = .next (raiseError .lcwSrcUnderrun e.ls s) := if_pos hsrc

theorem lcwProduce_overrun (hsrc : e.ls + len ≤ e.input.length) (hroom : e.outLen < e.lc + count) (work : Memory 8) :
    lcwProduce len count work e s = .next (raiseError .lcwOverrun e.ls s) :=
  (if_neg (Nat.not_lt.2 hsrc)).trans (if_pos hroom)

theorem lcwProduce_eq (hsrc : e.ls + len ≤ e.input.length) (hroom : e.lc + count ≤ e.outLen)
    (hwin : e.dstOff + e.outLen ≤ s.cfg.cbBytes) (work : Memory 8) :
    lcwProduce len count work e s = .next (afterLcw s e len count work) := by
  rw [lcwProduce, if_neg (Nat.not_lt.2 hsrc), if_neg (Nat.not_lt.2 hroom), lcwAdvance_eq hroom hwin]

/-! ### The checks of a copy (R166 to R168) -/

theorem lcwCopy_underrun (hsrc : e.input.length < e.ls + len) (source : Option Nat) :
    lcwCopy len count source e s = .next (raiseError .lcwSrcUnderrun e.ls s) := if_pos hsrc

theorem lcwCopy_badOffset (hsrc : e.ls + len ≤ e.input.length) :
    lcwCopy len count none e s = .next (raiseError .lcwBadOffset e.ls s) := if_neg (Nat.not_lt.2 hsrc)

theorem lcwCopy_overrun (hsrc : e.ls + len ≤ e.input.length) (hroom : e.outLen < e.lc + count) (src : Nat) :
    lcwCopy len count (some src) e s = .next (raiseError .lcwOverrun e.ls s) :=
  (if_neg (Nat.not_lt.2 hsrc)).trans (if_pos hroom)

theorem lcwCopy_eq (hsrc : e.ls + len ≤ e.input.length) (hroom : e.lc + count ≤ e.outLen)
    (hwin : e.dstOff + e.outLen ≤ s.cfg.cbBytes) (src : Nat) :
    lcwCopy len count (some src) e s =
      .next (afterLcw s e len count (copyBytes s.epoch count e.work (e.dstOff + src) (e.dstOff + e.lc))) :=
  ((if_neg (Nat.not_lt.2 hsrc)).trans (if_neg (Nat.not_lt.2 hroom))).trans (lcwAdvance_eq hroom hwin _)

/-! ### Copy sources (R163) -/

/-- `source` is the window index `src`, `dist > 0` bytes behind the cursor, unless the offset is `bad`. -/
structure SourceRule (e : LcwEngine) (source : Option Nat) (bad : Prop) (src dist : Nat) : Prop where
  rejects : bad → source = none
  accepts : ¬bad → source = some src ∧ src + dist = e.lc ∧ 0 < dist

theorem backref_sourceRule (e : LcwEngine) (dist : Nat) :
    SourceRule e (backref e.lc dist) (dist = 0 ∨ e.lc < dist) (e.lc - dist) dist :=
  ⟨fun hbad => if_pos hbad, fun hgood => ⟨if_neg hgood, by omega, by omega⟩⟩

/-- The offset of a run copy does not point into the produced output (R167, R168). -/
def BadRunOffset (e : LcwEngine) (off : Nat) : Prop :=
  e.lrel = true ∧ (off = 0 ∨ e.lc < off) ∨ e.lrel = false ∧ e.lc ≤ off

/-- The window index of the offset of a run copy (R167, R168). -/
def runStart (e : LcwEngine) (off : Nat) : Nat := if e.lrel = true then e.lc - off else off

theorem runSource_sourceRule (e : LcwEngine) (off : Nat) :
    SourceRule e (runSource e off) (BadRunOffset e off) (runStart e off) (e.lc - runStart e off) := by
  cases hrel : e.lrel with
  | true =>
    have hbad : BadRunOffset e off ↔ off = 0 ∨ e.lc < off := by simp [BadRunOffset, hrel]
    rw [runSource, runStart, if_pos hrel, if_pos hrel, hbad]
    exact ⟨fun h => if_pos h, fun h => ⟨if_neg h, by omega, by omega⟩⟩
  | false =>
    have hbad : BadRunOffset e off ↔ e.lc ≤ off := by simp [BadRunOffset, hrel]
    have habs := ne_true_of_eq_false hrel
    rw [runSource, runStart, if_neg habs, if_neg habs, hbad]
    exact ⟨fun h => if_pos h, fun h => ⟨if_neg h, by omega, by omega⟩⟩

/-- The four outcomes of a copy, in the order of its checks (R163). -/
theorem lcwCopy_rule {source : Option Nat} {bad : Prop} {src dist : Nat} (rule : SourceRule e source bad src dist) :
    (e.input.length < e.ls + len →
      lcwCopy len count source e s = .next (raiseError .lcwSrcUnderrun e.ls s)) ∧
    (e.ls + len ≤ e.input.length → bad →
      lcwCopy len count source e s = .next (raiseError .lcwBadOffset e.ls s)) ∧
    (e.ls + len ≤ e.input.length → ¬bad → e.outLen < e.lc + count →
      lcwCopy len count source e s = .next (raiseError .lcwOverrun e.ls s)) ∧
    (e.ls + len ≤ e.input.length → ¬bad → e.lc + count ≤ e.outLen → e.dstOff + e.outLen ≤ s.cfg.cbBytes →
      ∃ m, lcwCopy len count source e s = .next (afterLcw s e len count m) ∧
        BytesWritten s.epoch (e.dstOff + e.lc) count
          (fun i => readCb s.epoch e.work (e.dstOff + src + i % dist)) e.work m) := by
  refine ⟨fun hsrc => lcwCopy_underrun hsrc source, fun hsrc hbad => ?_, fun hsrc hgood hroom => ?_,
    fun hsrc hgood hroom hwin => ?_⟩
  · rw [rule.rejects hbad, lcwCopy_badOffset hsrc]
  · rw [(rule.accepts hgood).1, lcwCopy_overrun hsrc hroom]
  · obtain ⟨hsome, hdist, hpos⟩ := rule.accepts hgood
    rw [hsome]
    exact ⟨_, lcwCopy_eq hsrc hroom hwin src, copyBytes_bytesWritten _ _ _ (by omega) hpos⟩

/-! ### The long forms (R92) -/

theorem execLcwFill_reserved (he : s.engine = .lcw e) (hshort : s.config.lcwLongForms = false) (cnt : BitVec 16)
    (val : Byte) : execLcwFill cnt val s = .next (raiseError .lcwReserved e.ls s) :=
  (withLcw_eq he _).trans (if_pos hshort)

theorem execLcwFill_eq (he : s.engine = .lcw e) (hlong : s.config.lcwLongForms = true) (cnt : BitVec 16) (val : Byte) :
    execLcwFill cnt val s =
      lcwProduce 4 cnt.toNat (writeBytes e.work (e.dstOff + e.lc) (List.replicate cnt.toNat val)) e s :=
  (withLcw_eq he _).trans (if_neg (ne_false_of_eq_true hlong))

theorem execLcwLcopy_reserved (he : s.engine = .lcw e) (hshort : s.config.lcwLongForms = false) (cnt off : BitVec 16) :
    execLcwLcopy cnt off s = .next (raiseError .lcwReserved e.ls s) :=
  (withLcw_eq he _).trans (if_pos hshort)

theorem execLcwLcopy_none (he : s.engine = .lcw e) (hlong : s.config.lcwLongForms = true) (off : BitVec 16) :
    execLcwLcopy 0 off s =
      if e.input.length < e.ls + 5 then .next (raiseError .lcwSrcUnderrun e.ls s) else lcwAdvance 5 0 e.work e s :=
  (withLcw_eq he _).trans ((if_neg (ne_false_of_eq_true hlong)).trans (if_pos rfl))

theorem execLcwLcopy_some (he : s.engine = .lcw e) (hlong : s.config.lcwLongForms = true) {cnt : BitVec 16}
    (hcnt : cnt ≠ 0) (off : BitVec 16) :
    execLcwLcopy cnt off s = lcwCopy 5 cnt.toNat (runSource e off.toNat) e s :=
  (withLcw_eq he _).trans ((if_neg (ne_false_of_eq_true hlong)).trans (if_neg hcnt))

end Sys2Proof.Machine
end

section
/-!
SUPPORT. A stream of literals (41_lcw_codebook.md R164, R170), run to its end.
-/

namespace Sys2Proof.Machine

variable {s : State} {e : LcwEngine}

/-- The step runs the command at the cursor (R161). -/
theorem step_of_decodeLcw {i : Instr} (he : s.engine = .lcw e)
    (hdec : decodeLcw s.config (e.ls == 0) (e.input.drop e.ls) = .ok i) : step s = exec i s :=
  step_of_fetch_command ((fetch_lcw he).trans (ofDecode_eq_command.2 hdec))

theorem engineStep_of_decodeLcw {i : Instr} (he : s.engine = .lcw e)
    (hdec : decodeLcw s.config (e.ls == 0) (e.input.drop e.ls) = .ok i) : engineStep s = exec i s :=
  (step_eq_engineStep (by simp [he])).symm.trans (step_of_decodeLcw he hdec)

/-- With the end marker at the cursor and the window full the operation commits its working copy (R165). -/
theorem runEngine_lcwEnd (he : s.engine = .lcw e) (hin : e.input.drop e.ls = encodeBytes .lcwEnd)
    (hfull : e.lc = e.outLen) (fuel : Nat) : runEngine (fuel + 1) s = .next (commitLcw e s) := by
  have hexec : exec .lcwEnd s = .next (commitLcw e s) := (withLcw_eq he _).trans (if_neg (not_not.2 hfull))
  have hdec : decodeLcw s.config (e.ls == 0) (e.input.drop e.ls) = .ok .lcwEnd := hin ▸ decodeLcw_end rfl
  rw [runEngine_succ (by simp [he]) ((engineStep_of_decodeLcw he hdec).trans hexec), runEngine_idle rfl]

/-- With a literal at the cursor and room for its bytes the loop writes them and goes on behind it (R164). -/
theorem runEngine_lcwLit {bytes rest : List Byte} (he : s.engine = .lcw e) (h1 : 1 ≤ bytes.length)
    (h63 : bytes.length ≤ 63) (hin : e.input.drop e.ls = encodeBytes (.lcwLit bytes) ++ rest)
    (hroom : e.lc + bytes.length ≤ e.outLen) (hwin : e.dstOff + e.outLen ≤ s.cfg.cbBytes) (fuel : Nat) :
    runEngine (fuel + 1) s = runEngine fuel (afterLcw s e (1 + bytes.length) bytes.length
      (writeBytes e.work (e.dstOff + e.lc) bytes)) := by
  have hlen := congrArg List.length hin
  rw [List.length_append, Laws.EncLength.lcwLit, List.length_drop, Instr.length] at hlen
  have hexec : exec (.lcwLit bytes) s = .next (afterLcw s e (1 + bytes.length) bytes.length _) :=
    (withLcw_eq he _).trans (lcwProduce_eq (by omega) hroom hwin _)
  have hdec : decodeLcw s.config (e.ls == 0) (e.input.drop e.ls) = .ok (.lcwLit bytes) :=
    hin ▸ decodeLcw_litCode h1 h63 rest
  exact runEngine_succ (by simp [he]) ((engineStep_of_decodeLcw he hdec).trans hexec) fuel

/-- The two forms of a stream of literals (R170): the fuel of the definition, at least the number of bytes, never ends it
early. -/
theorem literalCommands_cases {k : Nat} {bytes : List Byte} (hk : bytes.length ≤ k) :
    (bytes = [] ∧ literalCommands k bytes = []) ∨
    ∃ j first rest, k = j + 1 ∧ bytes = first ++ rest ∧ 1 ≤ first.length ∧ first.length ≤ 63 ∧
      literalCommands k bytes = encodeBytes (.lcwLit first) ++ literalCommands j rest := by
  cases k with
  | zero => exact .inl ⟨List.eq_nil_of_length_eq_zero (Nat.le_zero.1 hk), rfl⟩
  | succ j =>
    cases bytes with
    | nil => exact .inl ⟨rfl, rfl⟩
    | cons b bs =>
      exact .inr ⟨j, (b :: bs).take 63, (b :: bs).drop 63, rfl, (List.take_append_drop 63 _).symm,
        by simp, by simp, rfl⟩

/-- Literals that fill the rest of the window, then the end marker: the operation commits the working copy with their
bytes at the cursor. -/
theorem runEngine_literals {bytes : List Byte} {k fuel : Nat} (he : s.engine = .lcw e) (hk : bytes.length ≤ k)
    (hin : e.input.drop e.ls = literalCommands k bytes ++ encodeBytes .lcwEnd)
    (hfuel : e.input.length < fuel + e.ls) (hfull : e.lc + bytes.length = e.outLen)
    (hwin : e.dstOff + e.outLen ≤ s.cfg.cbBytes) :
    runEngine fuel s = .next (commitLcw { e with work := writeBytes e.work (e.dstOff + e.lc) bytes } s) := by
  induction k using Nat.strong_induction_on generalizing s e bytes fuel with
  | _ k ih =>
    have hlen := congrArg List.length hin
    rw [List.length_append, Laws.EncLength.lcwEnd, List.length_drop, Instr.length] at hlen
    obtain ⟨fuel, rfl⟩ : ∃ n, fuel = n + 1 := ⟨fuel - 1, by omega⟩
    rcases literalCommands_cases hk with ⟨rfl, hnil⟩ | ⟨j, first, rest, rfl, rfl, h1, h63, hcons⟩
    · rw [hnil] at hin
      exact runEngine_lcwEnd he hin hfull fuel
    · rw [hcons, List.append_assoc] at hin
      rw [List.length_append] at hk hfull
      have hnext : e.input.drop (e.ls + (1 + first.length)) = literalCommands j rest ++ encodeBytes .lcwEnd := by
        rw [← List.drop_drop, hin]
        exact List.drop_left' (Laws.EncLength.lcwLit first)
      rw [runEngine_lcwLit he h1 h63 hin (by omega) hwin, writeBytes_append, Nat.add_assoc]
      exact ih j (Nat.lt_succ_self j) (s := afterLcw s e _ _ _) rfl (by omega) hnext (by simp only; omega)
        (by simp only; omega) hwin

end Sys2Proof.Machine
end

section
/-!
CERTIFICATES. The obligations of the LCW commands (41_lcw_codebook.md): R162, R164 to R170.
-/

namespace Sys2Proof.Proofs

open Sys2Proof.Machine

/-- Settles O32: a fresh operation runs the command at offset 0, and 0x00 is the only code of the prefix. -/
theorem lcwModePrefix : Obligations.LcwModePrefix := by
  refine ⟨fun s e he => withLcw_eq he _, fun s d o rest => ?pref, fun s d o c rest i hc hdec => ⟨?other, ?runs⟩,
    fun s d o => step_of_lcw_underrun (s := beginLcw d o [] s) rfl rfl⟩
  case pref => exact step_of_decodeLcw (s := beginLcw d o (0x00 :: rest) s) rfl (decodeLcw_mode ⟨rfl, rfl⟩)
  case other =>
    rintro rfl
    obtain ⟨-, -, hcode⟩ := decodeLcw_readFrom hdec
    exact hc (List.cons.inj (Code.lcw.inj hcode)).1.symm
  case runs => exact step_of_decodeLcw (s := beginLcw d o (c :: rest) s) rfl hdec

/-- Settles O31: the loop over the literals of the stream, begun on the codebook. -/
theorem literalStreamRoundTrip : Obligations.LiteralStreamRoundTrip := by
  intro s d o bytes inv idle conf hlen hwin hlim
  rw [← hlen] at hwin
  have hexec : exec (.cbUpdate d o (literalStream bytes)) s = _ := execCbUpdate_runs idle conf hwin hlim
  have hrun := runEngine_literals (s := beginLcw d o (literalStream bytes) s) rfl le_rfl rfl (Nat.lt_succ_self _)
    ((Nat.zero_add _).trans hlen.symm) hwin
  exact ⟨_, (hexec.trans hrun).trans (congrArg _ (commitLcw_of_idle idle _)), writeBytes_bytesWritten_getD _ _ _ bytes⟩

/-- Settles O33: the three outcomes of a command without a copy source. -/
theorem lcwLitRule : Obligations.LcwLitRule := by
  intro s e bytes he
  have hexec : exec (.lcwLit bytes) s = _ := withLcw_eq he _
  exact ⟨fun hsrc => hexec.trans (lcwProduce_underrun hsrc _),
    fun hsrc hroom => hexec.trans (lcwProduce_overrun hsrc hroom _),
    fun hsrc hroom hwin =>
      ⟨_, hexec.trans (lcwProduce_eq hsrc hroom hwin _), writeBytes_bytesWritten_getD _ _ _ bytes⟩⟩

/-- Settles O34: reserved, or the three outcomes of a command without a copy source. -/
theorem lcwFillRule : Obligations.LcwFillRule := by
  intro s e cnt val he
  have hexec (hlong : s.config.lcwLongForms = true) : exec (.lcwFill cnt val) s = _ := execLcwFill_eq he hlong cnt val
  exact ⟨fun hshort => execLcwFill_reserved he hshort cnt val,
    fun hlong hsrc => (hexec hlong).trans (lcwProduce_underrun hsrc _),
    fun hlong hsrc hroom => (hexec hlong).trans (lcwProduce_overrun hsrc hroom _),
    fun hlong hsrc hroom hwin =>
      ⟨_, (hexec hlong).trans (lcwProduce_eq hsrc hroom hwin _), writeBytes_replicate_bytesWritten _ _ _ _ val⟩⟩

/-- Settles O35: the copy whose source is a distance back, in both modes. -/
theorem lcwScopyRule : Obligations.LcwScopyRule := by
  intro s e n dist he
  have hexec : exec (.lcwScopy n dist) s = _ := withLcw_eq he _
  rw [hexec]
  exact lcwCopy_rule (backref_sourceRule e dist.toNat)

/-- Settles O36: the copy whose source is by the mode. -/
theorem lcwRcopyRule : Obligations.LcwRcopyRule := by
  intro s e n off he
  have hexec : exec (.lcwRcopy n off) s = _ := withLcw_eq he _
  rw [hexec]
  exact lcwCopy_rule (runSource_sourceRule e off.toNat)

/-- Settles O37: a count of 0 goes around the copy and its offset check; any other is the run copy. -/
theorem lcwLcopyRule : Obligations.LcwLcopyRule := by
  intro s e cnt off he bad src
  refine ⟨fun hshort => execLcwLcopy_reserved he hshort cnt off, fun hlong => ?_⟩
  by_cases hcnt : cnt = 0
  · subst hcnt
    have hexec : exec (.lcwLcopy 0 off) s = _ := execLcwLcopy_none he hlong off
    rw [hexec]
    exact ⟨fun hsrc => if_pos hsrc,
      fun hsrc _ hroom hwin => (if_neg (Nat.not_lt.2 hsrc)).trans (lcwAdvance_eq (count := 0) hroom hwin e.work),
      fun _ h => absurd rfl h, fun _ h => absurd rfl h, fun _ h => absurd rfl h⟩
  · have hexec : exec (.lcwLcopy cnt off) s = _ := execLcwLcopy_some he hlong hcnt off
    rw [hexec]
    obtain ⟨hunderrun, hbad, hoverrun, hcopied⟩ := lcwCopy_rule (runSource_sourceRule e off.toNat)
    exact ⟨hunderrun, fun _ h => absurd h hcnt, fun hsrc _ => hbad hsrc, fun hsrc _ => hoverrun hsrc,
      fun hsrc _ => hcopied hsrc⟩

/-- Settles O38: the one check of the end marker; the operation's end is its `commitLcw`. -/
theorem lcwEndOutcome : Obligations.LcwEndOutcome := by
  intro s e he
  have hexec : exec .lcwEnd s = _ := withLcw_eq he _
  rw [hexec]
  exact ⟨fun hfull => if_neg (not_not.2 hfull), fun hne => if_pos hne⟩

end Sys2Proof.Proofs
end

section
/-!
SUPPORT. The block-pointer commands (42_vptr_block_engine.md R202, R207 to R212): which check of a run of `put`s fails
first, the blocks written by one that passes, and the index loop of `VP.LIST` with all its bytes or with one missing.
-/

namespace Sys2Proof.Machine

variable {s : State} {e : BlockEngine} {keyed : Bool} {b d j : Nat} {bs : List Nat} {c : Cause}

/-! ### The first failing check -/

/-- Block `b` to destination `d` fails the first or the second check of `put`, with cause `c` (R202). -/
def PutFails (s : State) (b d : Nat) (c : Cause) : Prop :=
  s.cfg.maxBlocks.toNat ≤ b ∧ c = .vptrBadBlock ∨
  b < s.cfg.maxBlocks.toNat ∧ s.cfg.nblk ≤ d ∧ c = .vptrDestOverrun

theorem putFails_badBlock (hb : s.cfg.maxBlocks.toNat ≤ b) (d : Nat) : PutFails s b d .vptrBadBlock := .inl ⟨hb, rfl⟩

theorem putFails_destOverrun (hb : b < s.cfg.maxBlocks.toNat) (hd : s.cfg.nblk ≤ d) :
    PutFails s b d .vptrDestOverrun := .inr ⟨hb, hd, rfl⟩

theorem put_of_putFails (h : PutFails s b e.vd c) (keyed : Bool) : put s keyed b e = .error (.cause c) := by
  rcases h with ⟨hb, rfl⟩ | ⟨hb, hd, rfl⟩
  · exact if_pos hb
  · exact (if_neg (Nat.not_le.2 hb)).trans (if_pos hd)

theorem put_ok (hg : s.cfg.geometryOk = true) (hb : b < s.cfg.maxBlocks.toNat) (hd : e.vd < s.cfg.nblk)
    (keyed : Bool) : put s keyed b e =
      .ok { e with vd := e.vd + 1, work := putPixels s keyed b e.vd s.cfg.blkPix e.work } := by
  rw [put_eq hg, if_neg (Nat.not_le.2 hb), if_neg (Nat.not_le.2 hd)]

/-- The first block that fails a check decides: the `j` blocks before it exist and fit in the grid. -/
theorem putAll_of_putFails (hg : s.cfg.geometryOk = true) (hj : j < bs.length)
    (hbefore : ∀ i (hi : i < j), bs[i] < s.cfg.maxBlocks.toNat) (hroom : j ≤ s.cfg.nblk - e.vd)
    (hfail : PutFails s bs[j] (e.vd + j) c) : putAll s keyed bs e = .error (.cause c) := by
  induction bs generalizing j e with
  | nil => cases hj
  | cons b bs ih =>
    cases j with
    | zero => rw [putAll, put_of_putFails (b := b) hfail]
    | succ j =>
      have hb : b < s.cfg.maxBlocks.toNat := hbefore 0 j.succ_pos
      rw [putAll, put_ok hg hb (by omega)]
      refine ih (Nat.lt_of_succ_lt_succ hj) (fun i hi => hbefore (i + 1) (Nat.succ_lt_succ hi)) ?_ ?_
      · simp only
        omega
      · rwa [Nat.add_right_comm e.vd 1 j]

/-! ### The blocks written -/

/-- The state after a command of `len` bytes that wrote `n` blocks: the cursors moved, the working copy is `work`, all
else is as before. -/
def afterBlocks (s : State) (e : BlockEngine) (len n : Nat) (work : Memory 16) : State :=
  { s with engine := .block { e with vd := e.vd + n, vs := e.vs + len, work := work } }

/-- A command whose `put`s succeed goes on with its blocks written. -/
theorem blockResult_of_putAll (hg : s.cfg.geometryOk = true) (len : Nat) (h : ∃ e', putAll s keyed bs e = .ok e') :
    ∃ m, blockResult len e s (putAll s keyed bs e) = .next (afterBlocks s e len bs.length m) ∧
      BlocksWritten s keyed bs e.vd e.work m := by
  obtain ⟨e', hputs⟩ := h
  have done := putAll_done hg hputs
  refine ⟨e'.work, ?_, done.written s.epoch, done.kept s.epoch⟩
  rw [hputs, blockResult, afterBlocks, done.input, done.vd]

section Repeated
/-! ### One block to consecutive destinations (R207, R209 to R212) -/

variable {n : Nat} (hg : s.cfg.geometryOk = true) (len : Nat)
include hg

theorem blockResult_replicate_badBlock (hn : 0 < n) (hb : s.cfg.maxBlocks.toNat ≤ b) :
    blockResult len e s (putAll s keyed (List.replicate n b) e) = .next (raiseError .vptrBadBlock e.vs s) := by
  have hputs : putAll s keyed (List.replicate n b) e = .error (.cause .vptrBadBlock) :=
    putAll_of_putFails hg (j := 0) (by simpa) nofun (Nat.zero_le _) (putFails_badBlock (by simpa) _)
  rw [hputs, blockResult]

/-- The blocks that fit pass, and the next one has no destination. -/
theorem blockResult_replicate_destOverrun (hn : 0 < n) (hb : b < s.cfg.maxBlocks.toNat)
    (hd : s.cfg.nblk < e.vd + n) :
    blockResult len e s (putAll s keyed (List.replicate n b) e) = .next (raiseError .vptrDestOverrun e.vs s) := by
  have hj : s.cfg.nblk - e.vd < (List.replicate n b).length := by
    rw [List.length_replicate]
    omega
  have hputs : putAll s keyed (List.replicate n b) e = .error (.cause .vptrDestOverrun) :=
    putAll_of_putFails hg hj (by simpa using fun _ _ => hb) le_rfl (putFails_destOverrun (by simpa) (by omega))
  rw [hputs, blockResult]

theorem blockResult_replicate_ok (h : n = 0 ∨ b < s.cfg.maxBlocks.toNat ∧ e.vd + n ≤ s.cfg.nblk) :
    ∃ m, blockResult len e s (putAll s keyed (List.replicate n b) e) = .next (afterBlocks s e len n m) ∧
      BlocksWritten s keyed (List.replicate n b) e.vd e.work m := by
  have hputs : ∃ e', putAll s keyed (List.replicate n b) e = .ok e' := by
    rcases h with rfl | ⟨hb, hd⟩
    · exact ⟨e, rfl⟩
    · exact putAll_ok hg (fun _ hmem => List.eq_of_mem_replicate hmem ▸ hb) (by rwa [List.length_replicate])
  simpa only [List.length_replicate] using blockResult_of_putAll hg len hputs

end Repeated

/-! ### The byte `M` (R211, R212) -/

section Run

variable {block : BitVec 13} {m : Byte}

theorem vpRunOp_underrun (hsrc : e.input.length < e.vs + 3) :
    vpRunOp keyed block m e s = .next (raiseError .vptrSrcUnderrun e.vs s) := if_pos (Nat.le_of_lt_succ hsrc)

theorem vpRunOp_eq (hsrc : e.vs + 3 ≤ e.input.length) : vpRunOp keyed block m e s =
    blockResult 3 e s (putAll s keyed (List.replicate m.toNat block.toNat) e) := if_neg (Nat.not_le.2 hsrc)

end Run

/-! ### `VP.LIST` (R208) -/

variable {k : BitVec 5} {index : BitVec 8} {idx : List Byte}

/-- A whole `VP.LIST` writes the addressed block and then those of its index bytes. -/
theorem vpListOp_whole (hlen : idx.length = s.config.extraOf k) : vpListOp k index idx e s =
    blockResult (2 + idx.length) e s (putAll s false ((index :: idx).map BitVec.toNat) e) := by
  rw [vpListOp_eq s k index idx e hlen.ge, ← hlen, List.take_length, List.map_cons]

/-- The index loop with a byte missing: the bytes that are there, then the underrun. -/
theorem putListed_cut {n : Nat} (hcut : idx.length < n) : putListed s n idx e =
    (putAll s false (idx.map BitVec.toNat) e).bind fun _ => .error (.cause .vptrSrcUnderrun) := by
  induction idx generalizing n e with
  | nil =>
    obtain ⟨n, rfl⟩ := Nat.exists_eq_add_of_lt hcut
    rfl
  | cons v idx ih =>
    obtain ⟨n, rfl⟩ : ∃ m, n = m + 1 := Nat.exists_eq_succ_of_ne_zero (Nat.ne_zero_of_lt hcut)
    rw [putListed, List.map_cons, putAll]
    cases put s false v.toNat e with
    | error stop => rfl
    | ok e' => exact ih (Nat.lt_of_succ_lt_succ hcut)

/-- A `VP.LIST` with a byte missing: the checks of the blocks that are there, then the underrun. -/
theorem vpListOp_cut (hcut : idx.length < s.config.extraOf k) : vpListOp k index idx e s =
    blockResult (2 + s.config.extraOf k) e s
      ((putAll s false ((index :: idx).map BitVec.toNat) e).bind fun _ => .error (.cause .vptrSrcUnderrun)) := by
  rw [vpListOp, List.map_cons, putAll]
  cases put s false index.toNat e with
  | error stop => rfl
  | ok e' => exact congrArg _ (putListed_cut hcut)

/-- With a byte left at the cursor the loop is not over. -/
theorem vs_lt_of_drop_ne_nil (h : e.input.drop e.vs ≠ []) : e.vs < e.input.length :=
  Nat.lt_of_not_le (mt List.drop_eq_nil_of_le h)

/-- The step on a `VP.LIST` that `in_len` cuts short (R201). -/
theorem step_of_vpList_cut (he : s.engine = .block e) (hcut : idx.length < s.config.extraOf k)
    (hin : e.input.drop e.vs = vpBytes 2 (k ++ index) ++ idx) : step s = vpListOp k index idx e s := by
  have hdec : decodeVp s.config (e.input.drop e.vs) = .error (.vpListCut k index idx) := by
    rw [hin, decodeVp_list, decodeVpList, if_pos hcut]
  have hvs : e.vs < e.input.length := vs_lt_of_drop_ne_nil (hin ▸ nofun)
  rw [step_of_block_reject he hvs hdec, takeReject, withBlock_eq he]

end Sys2Proof.Machine
end

section
/-!
SUPPORT. The block-pointer stream, run to its end (42_vptr_block_engine.md R200, R214).
-/

namespace Sys2Proof.Machine

variable {s : State} {e : BlockEngine}

theorem fetch_block_finished (he : s.engine = .block e) (hend : e.input.length ≤ e.vs) : fetch s = .finished := by
  simp [fetch, he, hend]

/-- At the end of the payload the operation commits its working copy. -/
theorem step_of_block_end (he : s.engine = .block e) (hend : e.input.length ≤ e.vs) :
    step s = .next (commitBlock e s) := by
  simp [step, fetch_block_finished he hend, closeStream, he]

theorem runEngine_block_end (he : s.engine = .block e) (hend : e.input.length ≤ e.vs) (fuel : Nat) :
    runEngine (fuel + 1) s = .next (commitBlock e s) := by
  have busy : s.engine ≠ .idle := by simp [he]
  rw [runEngine_succ busy ((step_eq_engineStep busy).symm.trans (step_of_block_end he hend)), runEngine_idle rfl]

/-- With a command at the cursor the loop runs it and goes on. -/
theorem runEngine_block_command {i : Instr} {t : State} (he : s.engine = .block e)
    (hdec : decodeVp s.config (e.input.drop e.vs) = .ok i) (hexec : exec i s = .next t) (fuel : Nat) :
    runEngine (fuel + 1) s = runEngine fuel t := by
  have busy : s.engine ≠ .idle := by simp [he]
  have hvs : e.vs < e.input.length := vs_lt_of_drop_ne_nil fun hnil => by simp [hnil, decodeVp] at hdec
  have hstep : step s = exec i s := step_of_fetch_command ((fetch_block he hvs).trans (ofDecode_eq_command.2 hdec))
  exact runEngine_succ busy ((step_eq_engineStep busy).symm.trans (hstep.trans hexec)) fuel

/-! ### A frame of one solid block (R214) -/

/-- The first `n` blocks of the grid hold the pixel `p` everywhere, and off the grid the raster is that of `s`. -/
structure SolidUpTo (s : State) (p : Pixel) (n : Nat) (m : Memory 16) : Prop where
  solid : ∀ d key, d < n → s.cfg.inBlock d key → readRas s.epoch m key = p
  offGrid : ∀ key, (∀ d, d < s.cfg.nblk → ¬ s.cfg.inBlock d key) → readRas s.epoch m key = readRas s.epoch s.ras key

variable {p : Pixel} {n : Nat}

/-- A solid block written after `n` solid blocks: no block of the grid shares a pixel with it (R59). -/
theorem SolidUpTo.put {b : Nat} {m m' : Memory 16} (hg : s.cfg.geometryOk = true) (hn : n < s.cfg.nblk)
    (hsolid : ∀ x y, x < s.cfg.bw.toNat → y < s.cfg.bh.toNat → cbPixel s b x y = p)
    (h : SolidUpTo s p n m) (hput : BlocksWritten s false [b] n m m') : SolidUpTo s p (n + 1) m' := by
  obtain ⟨hwritten, hkept⟩ := hput
  have hother {key : Nat} (hkey : ¬ s.cfg.inBlock n key) : readRas s.epoch m' key = readRas s.epoch m key :=
    hkept key fun j hj => by rwa [Nat.lt_one_iff.1 hj]
  refine ⟨fun d key hd hkey => ?_, fun key hkey => (hother (hkey n hn)).trans (h.offGrid key hkey)⟩
  rcases Nat.lt_succ_iff_lt_or_eq.1 hd with hlt | rfl
  · have hne : ¬ s.cfg.inBlock n key := fun hin => hlt.ne (CfgRegs.inBlock_unique hg (hlt.trans hn) hn hkey hin)
    exact (hother hne).trans (h.solid d key hlt hkey)
  · obtain ⟨x, y, hx, hy, rfl⟩ := hkey
    exact (hwritten 0 Nat.one_pos x y hx hy).trans (hsolid x y hx hy)

/-- `VP.PUT` of a solid block for each of the last `n` blocks of the grid: the operation commits a solid grid. -/
theorem runEngine_solidPuts {b : BitVec 13} {fuel : Nat} (hg : s.cfg.geometryOk = true)
    (hb : b.toNat < s.cfg.maxBlocks.toNat)
    (hsolid : ∀ x y, x < s.cfg.bw.toNat → y < s.cfg.bh.toNat → cbPixel s b.toNat x y = p)
    (hin : e.input.drop e.vs = (List.replicate n (encodeBytes (.vpPut b))).flatten) (hvd : e.vd + n = s.cfg.nblk)
    (hfuel : n ≤ fuel) (start : SolidUpTo s p e.vd e.work) :
    ∃ m, runEngine (fuel + 1) { s with engine := .block e } = .next (commitBlock { e with work := m } s) ∧
      SolidUpTo s p s.cfg.nblk m := by
  induction n generalizing e fuel with
  | zero => exact ⟨e.work, runEngine_block_end rfl (List.drop_eq_nil_iff.1 hin) fuel, hvd ▸ start⟩
  | succ n ih =>
    obtain ⟨fuel, rfl⟩ : ∃ f, fuel = f + 1 := Nat.exists_eq_succ_of_ne_zero (Nat.ne_zero_of_lt hfuel)
    rw [List.replicate_succ, List.flatten_cons] at hin
    obtain ⟨m, hexec, hput⟩ := blockResult_replicate_ok (s := { s with engine := .block e }) (e := e) (keyed := false)
      (n := 1) hg 2 (.inr ⟨hb, by simp only; omega⟩)
    have hrun := runEngine_block_command (s := { s with engine := .block e }) (i := .vpPut b) rfl
      (hin ▸ decodeVp_put b _) hexec (fuel + 1)
    have hnext : e.input.drop (e.vs + 2) = (List.replicate n (encodeBytes (.vpPut b))).flatten := by
      rw [← List.drop_drop, hin]
      rfl
    obtain ⟨m', hend, hall⟩ := ih (e := { e with vd := e.vd + 1, vs := e.vs + 2, work := m }) hnext
      (by simp only; omega) (Nat.le_of_succ_le_succ hfuel) (start.put hg (by omega) hsolid hput)
    exact ⟨m', hrun.trans hend, hall⟩

end Sys2Proof.Machine
end

section
/-!
CERTIFICATES. The obligations of the block-pointer stream (42_vptr_block_engine.md): R200 to R214.
-/

namespace Sys2Proof.Proofs

open Sys2Proof.Machine

/-- Settles O12: the commit of the working copy, at the end of the payload. -/
theorem blockStreamEnds : Obligations.BlockStreamEnds :=
  fun _ _ he hend => step_of_block_end he hend.ge

/-- Settles O43: the one check of the command. -/
theorem vpSkipOutcome : Obligations.VpSkipOutcome := by
  intro s e n he
  have hexec : exec (.vpSkip n) s = _ := withBlock_eq he _
  rw [hexec]
  exact ⟨fun hroom => if_neg (Nat.not_lt.2 hroom), fun hover => if_pos hover⟩

/-- Settles O49: the error of the command is unconditional. -/
theorem vpIllegalOpcode : Obligations.VpIllegalOpcode :=
  fun _ _ _ he => withBlock_eq he _

/-- Settles O41: the skip moves the cursor and nothing else, and its two bytes are the payload. -/
theorem skipWholeFrame : Obligations.SkipWholeFrame := by
  intro s n idle conf hn hlim
  have hexec : exec (.vptrExpand (encodeBytes (.vpSkip n))) s = _ := execVptrExpand_runs idle conf hlim
  have hskip := (vpSkipOutcome (beginBlock (encodeBytes (.vpSkip n)) s) _ n rfl).1 ((Nat.zero_add _).trans hn).le
  have hrun := runEngine_block_command rfl (decodeVp_skip n []) hskip 2
  rw [hexec]
  exact (hrun.trans (runEngine_block_end rfl le_rfl 1)).trans (congrArg _ (commitBlock_of_idle idle _))

/-- Settles O42: the loop over the puts, begun on the raster. -/
theorem solidFrame : Obligations.SolidFrame := by
  intro s b p inv idle conf hb hlim hsolid
  have hlen : (List.replicate s.cfg.nblk (encodeBytes (.vpPut b))).flatten.length = 2 * s.cfg.nblk := by
    rw [List.length_flatten, List.map_replicate, List.sum_replicate_nat, Laws.EncLength.vpPut, Instr.length,
      Nat.mul_comm]
  obtain ⟨m, hrun, hgrid⟩ := runEngine_solidPuts (e := ⟨_, 0, 0, s.ras⟩) (fuel := 2 * s.cfg.nblk)
    (inv.geometry conf) hb hsolid rfl (Nat.zero_add _) (by omega) ⟨nofun, fun _ _ => rfl⟩
  have hexec : exec (.vptrExpand _) s = _ := execVptrExpand_runs idle conf (hlen.trans_le hlim)
  rw [hlen] at hexec
  exact ⟨m, (hexec.trans hrun).trans (congrArg _ (commitBlock_of_idle idle _)), hgrid.solid, hgrid.offGrid⟩

/-- Settles O44: both commands are a run of one block. -/
theorem vpPutRule : Obligations.VpPutRule := by
  intro s e b he hg
  have hput : exec (.vpPut b) s = blockResult 2 e s (putAll s false (List.replicate 1 b.toNat) e) := withBlock_eq he _
  have hputk : exec (.vpPutk b) s = blockResult 2 e s (putAll s true (List.replicate 1 b.toNat) e) := withBlock_eq he _
  rw [hput, hputk]
  refine ⟨fun hb => ⟨?_, ?_⟩, fun hb hd => ⟨?_, ?_⟩, fun hb hd => ⟨?_, ?_⟩⟩
  · exact blockResult_replicate_badBlock hg 2 Nat.one_pos hb
  · exact blockResult_replicate_badBlock hg 2 Nat.one_pos hb
  · exact blockResult_replicate_destOverrun hg 2 Nat.one_pos hb (Nat.lt_succ_of_le hd)
  · exact blockResult_replicate_destOverrun hg 2 Nat.one_pos hb (Nat.lt_succ_of_le hd)
  · exact blockResult_replicate_ok hg 2 (.inr ⟨hb, hd⟩)
  · exact blockResult_replicate_ok hg 2 (.inr ⟨hb, hd⟩)

/-- Settles O45: a run of `2 * (k + 1)` blocks. -/
theorem vpRepeatRule : Obligations.VpRepeatRule := by
  intro s e k b he hg
  have hexec : exec (.vpRepeat k b) s = _ := withBlock_eq he _
  rw [hexec]
  have hpos : 0 < 2 * (k.toNat + 1) := by omega
  exact ⟨blockResult_replicate_badBlock hg 2 hpos, blockResult_replicate_destOverrun hg 2 hpos,
    fun hb hd => blockResult_replicate_ok hg 2 (.inr ⟨hb, hd⟩)⟩

/-- Settles O46: the list is a run of existing blocks that fit. -/
theorem vpListEffect : Obligations.VpListEffect := by
  intro s e k b idx he hg hlen hexist hroom
  have hexec : exec (.vpList k b idx) s = _ := (withBlock_eq he _).trans (vpListOp_whole hlen)
  have hlength : ((b :: idx).map BitVec.toNat).length = 1 + idx.length := by
    rw [List.length_map, List.length_cons, Nat.add_comm]
  rw [hexec, ← hlength]
  rw [← hlength] at hroom
  exact blockResult_of_putAll hg _ (putAll_ok hg (List.forall_mem_map.2 hexist) hroom)

/-- Settles O47: the check of the byte `M`, then a run of `M` blocks. -/
theorem vpRunRule : Obligations.VpRunRule := by
  intro s e b m he hg
  have hrun : exec (.vpRun b m) s = vpRunOp false b m e s := withBlock_eq he _
  have hrunk : exec (.vpRunk b m) s = vpRunOp true b m e s := withBlock_eq he _
  rw [hrun, hrunk]
  refine ⟨fun hsrc => ⟨vpRunOp_underrun hsrc, vpRunOp_underrun hsrc⟩, fun hsrc hm hb => ?badBlock,
    fun hsrc hm hb hd => ?overrun, fun hsrc hok => ?written⟩ <;> rw [vpRunOp_eq hsrc, vpRunOp_eq hsrc]
  case badBlock =>
    have hpos : 0 < m.toNat := Nat.pos_of_ne_zero (BitVec.toNat_ne.1 hm)
    exact ⟨blockResult_replicate_badBlock hg 3 hpos hb, blockResult_replicate_badBlock hg 3 hpos hb⟩
  case overrun =>
    have hpos : 0 < m.toNat := Nat.pos_of_ne_zero (BitVec.toNat_ne.1 hm)
    exact ⟨blockResult_replicate_destOverrun hg 3 hpos hb hd, blockResult_replicate_destOverrun hg 3 hpos hb hd⟩
  case written =>
    have hfits := hok.imp_left (congrArg BitVec.toNat)
    exact ⟨blockResult_replicate_ok hg 3 hfits, blockResult_replicate_ok hg 3 hfits⟩

/-- Settles O48: the first failing block of the list decides, whether or not a byte is missing. -/
theorem vpListErrors : Obligations.VpListErrors := by
  intro s e k b idx j hj he hg hbefore hroom cut badBlock
  have hstop {c : Cause} (hfail : PutFails s ((b :: idx)[j]).toNat (e.vd + j) c) :
      putAll s false ((b :: idx).map BitVec.toNat) e = .error (.cause c) :=
    putAll_of_putFails hg (by rwa [List.length_map]) (fun i hi => by simpa only [List.getElem_map] using hbefore i hi)
      (by omega) (by rwa [List.getElem_map])
  refine ⟨fun hlen => ?whole, fun ⟨hshort, hin⟩ => ?cut⟩
  case whole =>
    have hexec : exec (.vpList k b idx) s = _ := (withBlock_eq he _).trans (vpListOp_whole hlen)
    rw [hexec]
    refine ⟨fun hbad => ?_, fun hgood hfull => ?_⟩
    · rw [hstop (putFails_badBlock hbad _), blockResult]
    · rw [hstop (putFails_destOverrun (Nat.lt_of_not_le hgood) hfull.ge), blockResult]
  case cut =>
    rw [step_of_vpList_cut he hshort hin, vpListOp_cut hshort]
    refine ⟨fun hbad => ?_, fun hgood hfull => ?_, fun hgood hfits hlast => ?_⟩
    · rw [hstop (putFails_badBlock hbad _), Except.bind, blockResult]
    · rw [hstop (putFails_destOverrun (Nat.lt_of_not_le hgood) hfull.ge), Except.bind, blockResult]
    · have hexist : ∀ v ∈ (b :: idx).map BitVec.toNat, v < s.cfg.maxBlocks.toNat := by
        refine List.forall_mem_map.2 (List.forall_mem_iff_getElem.2 fun i hi => ?_)
        rcases Nat.lt_or_eq_of_le (Nat.le_of_lt_succ (hlast ▸ hi : i < j + 1)) with hlt | rfl
        · exact hbefore i hlt
        · exact Nat.lt_of_not_le hgood
      have hdest : e.vd + ((b :: idx).map BitVec.toNat).length ≤ s.cfg.nblk := by
        rw [List.length_map, List.length_cons, ← hlast]
        exact hfits
      obtain ⟨e', hputs⟩ := putAll_ok (keyed := false) hg hexist hdest
      rw [hputs, Except.bind, blockResult]

end Sys2Proof.Proofs
end

section
/-!
SUPPORT. The codes of an audio unit (43_adpcm.md R256, R258): which half of which byte a code is, that a unit is decoded
from its codes alone, and how its operation ends.
-/

namespace Sys2Proof.Machine

variable {c : Config} {input input' : List Byte} {start : BitVec 7 × BitVec 16} {s : State} {k : Nat}

/-! ### The half of a byte a code is (R256) -/

theorem codeAt_congr (h : input[k / 2]? = input'[k / 2]?) : codeAt c input k = codeAt c input' k := by
  rw [codeAt, codeAt, h]

section
variable {j : Nat} {byte : Byte} (hbyte : input[j]? = some byte)
include hbyte

theorem codeAt_even : codeAt c input (2 * j) =
    some (if c.lowNibbleFirst = true then byte.extractLsb' 0 4 else byte.extractLsb' 4 4) := by
  have hhalf : 2 * j / 2 = j := by omega
  simp only [codeAt, hhalf, hbyte]
  cases c.lowNibbleFirst <;> simp

theorem codeAt_odd : codeAt c input (2 * j + 1) =
    some (if c.lowNibbleFirst = true then byte.extractLsb' 4 4 else byte.extractLsb' 0 4) := by
  have hhalf : (2 * j + 1) / 2 = j := by omega
  simp only [codeAt, hhalf, hbyte]
  cases c.lowNibbleFirst <;> simp

end

/-- Of the byte after `front` the code `2 * front.length` is the half that comes first (R258). -/
theorem codeAt_append_congr {front : List Byte} {b b' : Byte}
    (half : if c.lowNibbleFirst = true then b.extractLsb' 0 4 = b'.extractLsb' 0 4
      else b.extractLsb' 4 4 = b'.extractLsb' 4 4) (hk : k < 2 * front.length + 1) :
    codeAt c (front ++ [b]) k = codeAt c (front ++ [b']) k := by
  by_cases hlast : k = 2 * front.length
  · rw [hlast, codeAt_even List.getElem?_concat_length, codeAt_even List.getElem?_concat_length]
    split at half
    next low => rw [if_pos low, if_pos low, half]
    next high => rw [if_neg high, if_neg high, half]
  · have hfront : k / 2 < front.length := by omega
    refine codeAt_congr ?_
    rw [List.getElem?_append_left hfront, List.getElem?_append_left hfront]

/-! ### A unit is decoded from its codes -/

theorem unitPair_congr (h : ∀ j, j < k → codeAt c input j = codeAt c input' j) :
    unitPair c input start k = unitPair c input' start k := by
  induction k with
  | zero => rfl
  | succ k ih => rw [unitPair, unitPair, h k k.lt_succ_self, ih fun j hj => h j (by omega)]

theorem unitWork_congr {m : Memory 16} (h : ∀ j, j < k → codeAt c input j = codeAt c input' j) :
    unitWork c input start m k = unitWork c input' start m k := by
  induction k with
  | zero => rfl
  | succ k ih => rw [unitWork, unitWork, ih fun j hj => h j (by omega), unitPair_congr h]

/-- The state after an `ADPCM_DECODE` of `payload` in `s` (R257). -/
def unitDecoded (s : State) (payload : List Byte) : State :=
  commitAdpcm (unitEngine s payload s.config.unitSamples.toNat) s

theorem exec_adpcmDecode (idle : s.engine = .idle) (conf : s.configured = true) {payload : List Byte}
    (hlen : payload.length = unitBytes s.config) : exec (.adpcmDecode payload) s = .next (unitDecoded s payload) :=
  (execAdpcmDecode_runs idle conf hlen).trans (runEngine_beginAdpcm hlen)

/-- Units with the same codes leave the same state. -/
theorem unitDecoded_congr
    (h : ∀ j, j < s.config.unitSamples.toNat → codeAt s.config input j = codeAt s.config input' j) :
    unitDecoded s input = unitDecoded s input' := by
  simp only [unitDecoded, commitAdpcm, unitEngine, unitPair_congr h, unitWork_congr h]

theorem readPcmAt_unitDecoded (ep : Nat) (payload : List Byte) (hk : k < s.config.unitSamples.toNat) :
    readPcmAt ep (unitDecoded s payload).pcm k = (unitPair s.config payload (s.aIndex, s.aPred) (k + 1)).2 :=
  readPcmAt_unitWork ep _ _ _ hk

/-- A unit decodes the same from any two states with the same parameters and the same pair (R255 to R257). -/
theorem unitDecoded_of_same_pair {t : State} (hconfig : t.config = s.config) (hindex : t.aIndex = s.aIndex)
    (hpred : t.aPred = s.aPred) (payload : List Byte) :
    (unitDecoded t payload).aIndex = (unitDecoded s payload).aIndex ∧
    (unitDecoded t payload).aPred = (unitDecoded s payload).aPred ∧
    ∀ k, k < s.config.unitSamples.toNat →
      readPcmAt (unitDecoded t payload).epoch (unitDecoded t payload).pcm k =
        readPcmAt (unitDecoded s payload).epoch (unitDecoded s payload).pcm k := by
  refine ⟨?_, ?_, fun k hk => ?_⟩
  · simp only [unitDecoded, commitAdpcm_aIndex, unitEngine, hconfig, hindex, hpred]
  · simp only [unitDecoded, commitAdpcm_aPred, unitEngine, hconfig, hindex, hpred]
  · rw [readPcmAt_unitDecoded _ _ (hconfig ▸ hk), readPcmAt_unitDecoded _ _ hk, hconfig, hindex, hpred]

/-! ### The end of the unit (R257) -/

theorem fetch_adpcm_finished {e : AdpcmEngine} (he : s.engine = .adpcm e) (hend : s.config.unitSamples.toNat ≤ e.ak) :
    fetch s = .finished := by
  simp [fetch, he, hend]

/-- After the last code the operation commits its working copy and its pair. -/
theorem step_of_adpcm_end {e : AdpcmEngine} (he : s.engine = .adpcm e) (hend : s.config.unitSamples.toNat ≤ e.ak) :
    step s = .next (commitAdpcm e s) := by
  simp [step, fetch_adpcm_finished he hend, closeStream, he]

/-! ### The pair of the registers as operands of `ADPCM_SETPARAM` (R129, R259) -/

/-- `ADPCM_SETPARAM` with a pair read from the registers restores that pair. -/
theorem exec_adpcmSetparam_pair (idle : s.engine = .idle) (conf : s.configured = true) {index : BitVec 7}
    (hindex : index.toNat ≤ 88) (pred : BitVec 16) :
    exec (.adpcmSetparam (BitVec.ofNat 16 index.toNat) (BitVec.ofInt 32 pred.toInt)) s =
      .next { s with aIndex := index, aPred := pred, status := 0, info := 0, resp := some ⟨0, 0⟩ } := by
  have hlow := BitVec.le_toInt (x := pred)
  have hhigh := BitVec.toInt_lt (x := pred)
  have hidx : (BitVec.ofNat 16 index.toNat).toNat = index.toNat := by
    rw [BitVec.toNat_ofNat, Nat.mod_eq_of_lt (by omega)]
  have hpred : (BitVec.ofInt 32 pred.toInt).toInt = pred.toInt := by
    rw [BitVec.toInt_ofInt, Int.bmod_eq_of_le (by omega) (by omega)]
  refine (execAdpcmSetparam_eq idle conf _ _).trans ?_
  rw [hidx, hpred, if_neg (by omega), BitVec.ofNat_toNat, BitVec.setWidth_eq, BitVec.ofInt_toInt]

end Sys2Proof.Machine
end

section
/-!
SUPPORT. The invariant of the machine as a law of the step (10_state.md R23, 20_memory.md R59, 40_host_operations.md
R123, 41_lcw_codebook.md R163, 42_vptr_block_engine.md R205, 43_adpcm.md R260): every end of an operation keeps it, and
so does every round of a stream.
-/

namespace Sys2Proof.Machine

variable {s t : State}

/-! ### The ends of an operation -/

theorem engineOk_of_idle (idle : s.engine = .idle) : s.EngineOk := by simp [State.EngineOk, idle]

section
variable (inv : s.Inv)
include inv

theorem inv_raiseError (c : Cause) (n : Nat) : (raiseError c n s).Inv := { inv with engineOk := trivial }

theorem inv_failRead (idle : s.engine = .idle) (c : Cause) : (failRead c s).Inv :=
  { inv with engineOk := engineOk_of_idle idle }

theorem inv_answerRead (idle : s.engine = .idle) (v : Int) : (answerRead v s).Inv :=
  { inv with engineOk := engineOk_of_idle idle }

theorem inv_commitLcw {e : LcwEngine} (ok : LcwEngine.Ok s e) : (commitLcw e s).Inv :=
  { inv with cbCanonical := ok.canonical, cbInside := ok.inside, engineOk := trivial }

theorem inv_commitBlock {e : BlockEngine} (ok : BlockEngine.Ok s e) : (commitBlock e s).Inv :=
  { inv with rasCanonical := ok.canonical, rasInside := ok.inside, engineOk := trivial }

theorem inv_commitAdpcm {e : AdpcmEngine} (ok : AdpcmEngine.Ok s e) : (commitAdpcm e s).Inv :=
  { inv with pcmCanonical := ok.canonical, pcmInside := ok.inside, indexRange := ok.index, engineOk := trivial }

/-- `ADPCM_SETPARAM` stores an index its range check accepts (R129). -/
theorem inv_setPair {index : BitVec 7} (hindex : index.toNat ≤ 88) (pred : BitVec 16) :
    (finishOk { s with aIndex := index, aPred := pred }).Inv :=
  { inv with indexRange := hindex, engineOk := trivial }

/-- A sound operation may be in progress. -/
theorem inv_engine {g : Engine} (sound : State.EngineOk { s with engine := g }) : State.Inv { s with engine := g } :=
  { inv with engineOk := sound }

end

/-- `RESET` and an accepted `CONFIG`: empty memories, and registers that are legal or zero (R120, R122). -/
theorem inv_renewed (s : State) {configured : Bool} {cfg : CfgRegs}
    (hgeometry : configured = true → cfg.geometryOk = true) (hzero : configured = false → cfg = CfgRegs.zero) :
    (renewed configured cfg s).Inv where
  cbCanonical := .nil
  rasCanonical := .nil
  pcmCanonical := .nil
  cbInside := nofun
  rasInside := nofun
  pcmInside := nofun
  indexRange := Nat.zero_le _
  geometry := hgeometry
  unconfigured := hzero
  engineOk := trivial

/-! ### A round of a stream -/

theorem inv_of_lcwRound {e : LcwEngine} (inv : s.Inv) (conf : s.configured = true) (ok : LcwEngine.Ok s e)
    (round : LcwRound s e (.next t)) : t.Inv := by
  obtain ⟨_, ⟨⟩, ⟨c, -, rfl⟩ | ⟨e', rfl, -, -, -, -, ok'⟩ | ⟨rfl, -⟩⟩ := round
  · exact inv_raiseError inv c e.ls
  · exact inv_engine inv ⟨conf, { ok' with }⟩
  · exact inv_commitLcw inv ok

theorem inv_of_blockRound {e : BlockEngine} (inv : s.Inv) (conf : s.configured = true) (ok : BlockEngine.Ok s e)
    (round : BlockRound s e (.next t)) : t.Inv := by
  obtain ⟨_, ⟨⟩, ⟨c, -, rfl⟩ | ⟨e', rfl, -, -, ok'⟩ | ⟨rfl, -⟩⟩ := round
  · exact inv_raiseError inv c e.vs
  · exact inv_engine inv ⟨conf, { ok' with }⟩
  · exact inv_commitBlock inv ok

theorem inv_of_adpcmRound {e : AdpcmEngine} (inv : s.Inv) (conf : s.configured = true) (ok : AdpcmEngine.Ok s e)
    (round : AdpcmRound s e (.next t)) : t.Inv := by
  obtain ⟨_, ⟨⟩, ⟨e', rfl, -, -, ok'⟩ | ⟨rfl, -⟩⟩ := round
  · exact inv_engine inv ⟨conf, { ok' with }⟩
  · exact inv_commitAdpcm inv ok

/-- A round of the main loop keeps the invariant, whatever operation is in progress. -/
theorem engineStep_keeps_inv (inv : s.Inv) (h : engineStep s = .next t) : t.Inv := by
  have sound := inv.engineOk
  unfold State.EngineOk at sound
  cases he : s.engine with
  | idle =>
    rw [engineStep, fetch_eq_idle.2 he] at h
    cases h
    exact inv
  | lcw e =>
    rw [he] at sound
    exact inv_of_lcwRound inv sound.1 sound.2 (h ▸ engineStep_lcw he sound.2)
  | block e =>
    rw [he] at sound
    exact inv_of_blockRound inv sound.1 sound.2 (h ▸ engineStep_block he (inv.geometry sound.1) sound.2)
  | adpcm e =>
    rw [he] at sound
    exact inv_of_adpcmRound inv sound.1 sound.2 (h ▸ engineStep_adpcm he sound.2)

/-! ### A host operation -/

/-- Every next state of a result meets the invariant. -/
def HasInv (r : Result) : Prop := ∀ t, r = .next t → t.Inv

namespace HasInv

variable {r a b : Result}

theorem next (h : t.Inv) : HasInv (.next t) := by
  rintro _ ⟨⟩
  exact h

theorem ite {c : Prop} [Decidable c] (ha : c → HasInv a) (hb : ¬c → HasInv b) : HasInv (if c then a else b) := by
  split
  · exact ha ‹_›
  · exact hb ‹_›

theorem whenIdle (h : HasInv r) : HasInv (whenIdle s r) := fun t ht => h t (whenIdle_eq_next.1 ht).2

theorem runEngine (inv : s.Inv) (fuel : Nat) : HasInv (runEngine fuel s) :=
  fun _ => runEngine_induction (fun _ _ => engineStep_keeps_inv) inv

variable (inv : s.Inv)
include inv

theorem error (c : Cause) (n : Nat) : HasInv (.next (raiseError c n s)) := next (inv_raiseError inv c n)

theorem whenConfigured (h : s.configured = true → HasInv r) : HasInv (whenConfigured s r) :=
  .whenIdle (.ite h fun _ => .error inv _ _)

variable (idle : s.engine = .idle)
include idle

theorem failedRead (c : Cause) : HasInv (.next (failRead c s)) := next (inv_failRead inv idle c)

theorem answerRead (v : Int) : HasInv (.next (answerRead v s)) := next (inv_answerRead inv idle v)

theorem readWhenConfigured (h : HasInv r) : HasInv (readWhenConfigured s r) :=
  .whenIdle (.ite (fun _ => h) fun _ => .failedRead inv idle _)

end HasInv

/-- Every host operation keeps the invariant: a failing check changes nothing the invariant speaks of, a stream begins
sound, and each of its rounds keeps it so. -/
theorem exec_hasInv (inv : s.Inv) (idle : s.engine = .idle) {i : Instr} (host : isCommand i = false) :
    HasInv (exec i s) := by
  cases i with
  | reset => exact .whenIdle (.next (inv_renewed s nofun fun _ => rfl))
  | config p =>
    refine .whenIdle (.ite (fun _ => .error inv _ _) fun _ => .ite (fun _ => .error inv _ _) fun hgeometry =>
      .ite (fun _ => .error inv _ _) fun _ => .next ?_)
    exact inv_renewed s (fun _ => eq_true_of_ne_false hgeometry) nofun
  | cbUpdate d o payload =>
    refine .whenConfigured inv fun conf => .ite (fun _ => .error inv _ _) fun hwin =>
      .ite (fun _ => .error inv _ _) fun hlim => .runEngine ?_ _
    exact inv_engine inv ⟨conf, beginLcw_ok inv (Nat.le_of_not_lt hwin) (Nat.le_of_not_lt hlim)⟩
  | vptrExpand payload =>
    refine .whenConfigured inv fun conf => .ite (fun _ => .error inv _ _) fun hlim => .runEngine ?_ _
    exact inv_engine inv ⟨conf, beginBlock_ok inv (Nat.le_of_not_lt hlim)⟩
  | adpcmSetparam idx pred =>
    refine .whenConfigured inv fun _ => .ite (fun _ => .error inv _ _) fun hrange => .next (inv_setPair inv ?_ _)
    rw [BitVec.toNat_ofNat]
    omega
  | adpcmDecode payload =>
    refine .whenConfigured inv fun conf => .ite (fun _ => .error inv _ _) fun hlen => .runEngine ?_ _
    exact inv_engine inv ⟨conf, beginAdpcm_ok inv (not_not.1 hlen)⟩
  | readRaster x y =>
    exact .readWhenConfigured inv idle (.ite (fun _ => .failedRead inv idle _) fun _ => .answerRead inv idle _)
  | readPcm k =>
    exact .readWhenConfigured inv idle (.ite (fun _ => .failedRead inv idle _) fun _ => .answerRead inv idle _)
  | readReg n =>
    refine .whenIdle ?_
    split
    · exact .answerRead inv idle _
    · exact .failedRead inv idle _
  | _ => exact absurd host nofun

/-! ### A step of an idle core -/

/-- An idle core waits, runs a host operation, or raises `BAD_HOSTOP` (R20, R91, R340). -/
theorem step_idle_keeps_inv (inv : s.Inv) (idle : s.engine = .idle) (h : step s = .next t) : t.Inv := by
  cases hqueue : s.pending with
  | nil =>
    simp only [step, fetch_eq_idle.2 idle, hqueue] at h
    cases h
    exact inv
  | cons r rest =>
    have taken := inv_pending inv idle rest
    rcases decodeHost_cases r with ⟨i, hdec, host⟩ | hdec
    · rw [step_of_idle_request idle hqueue hdec] at h
      exact exec_hasInv taken idle host t h
    · rw [step_of_bad_request idle hqueue hdec] at h
      cases h
      exact inv_raiseError taken _ _

end Sys2Proof.Machine
end

section
/-!
CERTIFICATES. The obligations of the audio (43_adpcm.md): R89, R255 to R260, and the invariant of the step.
-/

namespace Sys2Proof.Proofs

open Sys2Proof.Machine

/-- Settles O58: an idle core by its host operations, an operation in progress by one round of its loop. -/
theorem stepKeepsInvariant : Obligations.StepKeepsInvariant := by
  intro s t inv h
  by_cases idle : s.engine = .idle
  · exact step_idle_keeps_inv inv idle h
  · exact engineStep_keeps_inv inv ((step_eq_engineStep idle).symm.trans h)

/-- Settles O52: both clamped integers fit their registers. -/
theorem adCodeEffect : Obligations.AdCodeEffect := by
  intro s e sgn m he hak
  refine ⟨_, _, Memory.set e.work e.ak (adpcmNext s.config e.index e.pred sgn m).2, ?next,
    adpcmNext_pred s.config e.index e.pred sgn m, adpcmNext_index s.config e.index e.pred sgn m, ?sample,
    fun k hk => ?others⟩
  case next =>
    have hexec : exec (.adCode sgn m) s = _ := withAdpcm_eq he _
    exact hexec.trans (if_neg (Nat.not_le.2 hak))
  case sample => rw [readPcmAt_set, if_pos rfl]
  case others => rw [readPcmAt_set, if_neg hk]

/-- Settles O54: both units have the same codes. -/
theorem spareNibbleIsIgnored : Obligations.SpareNibbleIsIgnored := by
  intro s front b b' idle conf hodd half
  have hlen (byte : Byte) : (front ++ [byte]).length = unitBytes s.config := by
    rw [List.length_append, List.length_singleton, unitBytes]
    omega
  have hsame : unitDecoded s (front ++ [b]) = unitDecoded s (front ++ [b']) :=
    unitDecoded_congr fun j hj => codeAt_append_congr half (hodd ▸ hj)
  exact ⟨_, exec_adpcmDecode idle conf (hlen b), hsame ▸ exec_adpcmDecode idle conf (hlen b'), rfl⟩

/-- Settles O55: the pair read back is in the range of `ADPCM_SETPARAM`, because the first unit keeps the invariant, and
the second unit's samples and pair are a function of its codes and of the pair before it. -/
theorem audioRestart : Obligations.AudioRestart := by
  intro s x u1 u2 p inv idle conf xidle xconfig hcfg haudio hlen1 hlen2
  have hfirst := exec_adpcmDecode idle conf hlen1
  have hindex : (unitDecoded s u1).aIndex.toNat ≤ 88 := (exec_hasInv inv idle rfl _ hfirst).indexRange
  have hgeometry : (CfgRegs.ofOperands p).geometryOk = true := hcfg ▸ inv.geometry conf
  have hconfigure : exec (.config p) (renewed false CfgRegs.zero x) = _ := execConfig_unconfigured rfl rfl
  rw [if_neg (ne_false_of_eq_true hgeometry), if_neg (ne_true_of_eq_false (xconfig ▸ haudio))] at hconfigure
  refine ⟨_, _, _, _, _, _, hfirst, exec_adpcmDecode (s := unitDecoded s u1) rfl conf hlen2,
    execReset_eq_next.2 ⟨xidle, rfl⟩, hconfigure, exec_adpcmSetparam_pair rfl rfl hindex _,
    exec_adpcmDecode rfl rfl (hlen2.trans (congrArg unitBytes xconfig.symm)), rfl, rfl, ?_⟩
  apply unitDecoded_of_same_pair (s := unitDecoded s u1)
  case hconfig => exact xconfig
  all_goals rfl

/-- Settles O4, by the fields of a byte and of a code as numbers. -/
theorem adpcmPacking : Obligations.AdpcmPacking := by
  refine ⟨fun cfg input j byte hbyte => ⟨byte.extractLsb' 0 4, byte.extractLsb' 4 4, ?low, ?high,
    fun lowFirst => ?lowFirst, fun highFirst => ?highFirst⟩, fun code => ⟨_, _, rfl, ?sign, ?magnitude⟩⟩
  case lowFirst =>
    rw [codeAt_even hbyte, codeAt_odd hbyte, if_pos lowFirst, if_pos lowFirst]
    exact ⟨rfl, rfl⟩
  case highFirst =>
    rw [codeAt_even hbyte, codeAt_odd hbyte, if_neg (ne_true_of_eq_false highFirst),
      if_neg (ne_true_of_eq_false highFirst)]
    exact ⟨rfl, rfl⟩
  all_goals
    rw [field_toNat]
    omega

/-- Settles O13: the commit of the working copy and of the pair, after the last code. -/
theorem unitEnds : Obligations.UnitEnds :=
  fun _ _ he hend => step_of_adpcm_end he hend.ge

end Sys2Proof.Proofs
end

section
/-!
SUPPORT. The causes as a list: a status determines its cause (R300, R301).
-/

namespace Sys2Proof.Machine

/-- The causes, in the order of the table of R301. -/
def Cause.all : List Cause :=
  [.notConfigured, .alreadyConfigured, .badGeometry, .badAudioConfig, .badHostOp, .cbWindow, .readRange, .cbOverLimit,
    .lcwSrcUnderrun, .lcwBadOffset, .lcwOverrun, .lcwSizeMismatch, .lcwReserved, .vptrOverLimit, .vptrSrcUnderrun,
    .vptrBadOpcode, .vptrBadBlock, .vptrDestOverrun, .adpcmLen, .adpcmBadState]

theorem Cause.mem_all (c : Cause) : c ∈ Cause.all := by
  cases c <;> decide

/-- Cause numbers are unique across the classes (R301). -/
theorem Cause.causeNo_injective : Function.Injective Cause.causeNo := by
  have distinct : (Cause.all.map Cause.causeNo).Nodup := by decide
  exact fun c d h => List.inj_on_of_nodup_map distinct c.mem_all d.mem_all h

/-- The low byte of a status is the cause number (R300). -/
@[simp] theorem Cause.lowByte_status (c : Cause) : lowByte c.status = c.causeNo := BitVec.extractLsb'_append_eq_right

theorem Cause.status_injective : Function.Injective Cause.status := by
  intro c d h
  have hnumber : c.causeNo = d.causeNo := by simpa using congrArg lowByte h
  exact Cause.causeNo_injective hnumber

end Sys2Proof.Machine
end

section
/-!
CERTIFICATES. The obligations of the errors (60_exceptions.md): R300, R301, R303, R307 (and R121).
-/

namespace Sys2Proof.Proofs

open Sys2Proof.Machine

/-- Settles O15: the words by evaluation of the table; a status determines its cause by the low byte. -/
theorem statusWords : Obligations.StatusWords :=
  ⟨rfl, rfl, rfl, rfl, rfl, rfl, rfl, rfl, rfl, rfl, rfl, rfl, rfl, rfl, rfl, rfl, rfl, rfl, rfl, rfl,
    fun _ _ h => Cause.status_injective h, Cause.status_ne_ok⟩

/-- Settles O14, field by field: what the error writes, then what it leaves alone. -/
theorem errorEntry : Obligations.ErrorEntry :=
  fun c n s =>
    ⟨raiseError_status c n s, raiseError_info c n s, raiseError_resp c n s, raiseError_engine c n s,
      raiseError_configured c n s, raiseError_aIndex c n s, raiseError_aPred c n s, raiseError_cfg c n s,
      raiseError_cb c n s, raiseError_ras c n s, raiseError_pcm c n s, raiseError_config c n s,
      raiseError_epoch c n s, raiseError_pending c n s⟩

end Sys2Proof.Proofs
end

section
/-!
SUPPORT. The independence of audio and video (R344): runs from two states that differ in the audio state only, or in the
video state only, and the step of an idle core without a request (R314, R340).
-/

namespace Sys2Proof.Machine

variable {s s' : State}

theorem step_of_idle_no_request (idle : s.engine = .idle) (hqueue : s.pending = []) : step s = .next s := by
  simp only [step, fetch_eq_idle.2 idle, hqueue]

/-! ### Two results with the same outcome -/

/-- Both results are next states, which `R` relates, or both stop for the same reason. -/
inductive SameOutcome (R : State → State → Prop) : Result → Result → Prop
  | next {t t' : State} (h : R t t') : SameOutcome R (.next t) (.next t')
  | fault (f : Fault) : SameOutcome R (.fault f) (.fault f)
  | refused (f : Refusal) : SameOutcome R (.refused f) (.refused f)

namespace SameOutcome

variable {R : State → State → Prop} {r r' : Result}

theorem ite_of {c : Prop} [Decidable c] {a b a' b' : Result} (ha : c → SameOutcome R a a')
    (hb : ¬c → SameOutcome R b b') : SameOutcome R (if c then a else b) (if c then a' else b') := by
  split
  · exact ha ‹_›
  · exact hb ‹_›

theorem ite {c : Prop} [Decidable c] {a b a' b' : Result} (ha : SameOutcome R a a') (hb : SameOutcome R b b') :
    SameOutcome R (if c then a else b) (if c then a' else b') :=
  ite_of (fun _ => ha) fun _ => hb

theorem exists_next {t : State} (h : SameOutcome R r r') (hr : r = .next t) : ∃ t', r' = .next t' ∧ R t t' := by
  cases h with
  | next h =>
    cases hr
    exact ⟨_, rfl, h⟩
  | fault | refused => cases hr

section
variable (engine : s'.engine = s.engine)
include engine

theorem whenIdle (h : SameOutcome R r r') : SameOutcome R (whenIdle s r) (whenIdle s' r') := by
  unfold Machine.whenIdle
  rw [engine]
  split
  · exact h
  all_goals exact .refused _

theorem withLcw {f f' : LcwEngine → Result} (h : ∀ e, SameOutcome R (f e) (f' e)) :
    SameOutcome R (withLcw s f) (withLcw s' f') := by
  unfold Machine.withLcw
  rw [engine]
  split
  · exact h _
  all_goals exact .refused _

theorem withBlock {f f' : BlockEngine → Result} (h : ∀ e, SameOutcome R (f e) (f' e)) :
    SameOutcome R (withBlock s f) (withBlock s' f') := by
  unfold Machine.withBlock
  rw [engine]
  split
  · exact h _
  all_goals exact .refused _

variable (configured : s'.configured = s.configured)
include configured

theorem whenConfigured (error : R (raiseError .notConfigured 0 s) (raiseError .notConfigured 0 s'))
    (h : SameOutcome R r r') : SameOutcome R (whenConfigured s r) (whenConfigured s' r') := by
  unfold Machine.whenConfigured
  rw [configured]
  exact .whenIdle engine (.ite h (.next error))

theorem readWhenConfigured (error : R (failRead .notConfigured s) (failRead .notConfigured s'))
    (h : SameOutcome R r r') : SameOutcome R (readWhenConfigured s r) (readWhenConfigured s' r') := by
  unfold Machine.readWhenConfigured
  rw [configured]
  exact .whenIdle engine (.ite h (.next error))

end

end SameOutcome

/-! ### An audio operation does not see the video state -/

/-- `s` with another codebook and another raster. -/
def State.withVideo (cb : Memory 8) (ras : Memory 16) (s : State) : State := { s with cb := cb, ras := ras }

theorem eq_withVideo_iff {cb : Memory 8} {ras : Memory 16} : s = s.withVideo cb ras ↔ s.cb = cb ∧ s.ras = ras := by
  cases s
  simp [State.withVideo]

/-- An instruction of the audio: `ADPCM_SETPARAM`, `ADPCM_DECODE` or `READ_PCM` (R344). -/
def IsAudio (i : Instr) : Prop :=
  (∃ idx pred, i = .adpcmSetparam idx pred) ∨ (∃ u, i = .adpcmDecode u) ∨ ∃ k, i = .readPcm k

/-- `t` has the configuration registers of `s`, and `t'` is `t` with the given codebook and raster. -/
def VideoReplaced (s : State) (cb : Memory 8) (ras : Memory 16) (t t' : State) : Prop :=
  t.cfg = s.cfg ∧ t' = t.withVideo cb ras

/-- A whole unit is decoded to the same samples and pair, because they are functions of the parameters, the codes and
the pair before it; every other outcome is one check's. -/
theorem exec_audio_withVideo (cb : Memory 8) (ras : Memory 16) {i : Instr} (audio : IsAudio i) :
    SameOutcome (VideoReplaced s cb ras) (exec i s) (exec i (s.withVideo cb ras)) := by
  rcases audio with ⟨idx, pred, rfl⟩ | ⟨payload, rfl⟩ | ⟨k, rfl⟩
  · exact .whenConfigured rfl rfl ⟨rfl, rfl⟩ (.ite (.next ⟨rfl, rfl⟩) (.next ⟨rfl, rfl⟩))
  · refine .whenConfigured rfl rfl ⟨rfl, rfl⟩ (.ite_of (fun _ => .next ⟨rfl, rfl⟩) fun hlen => ?_)
    have hunit : payload.length = unitBytes s.config := not_not.1 hlen
    rw [runEngine_beginAdpcm hunit, runEngine_beginAdpcm (s := s.withVideo cb ras) hunit]
    exact .next ⟨rfl, rfl⟩
  · exact .readWhenConfigured rfl rfl ⟨rfl, rfl⟩ (.ite (.next ⟨rfl, rfl⟩) (.next ⟨rfl, rfl⟩))

/-! ### A video operation does not see the audio state -/

/-- `s` with another PCM buffer and another ADPCM pair. -/
def State.withAudio (pcm : Memory 16) (a : BitVec 7) (p : BitVec 16) (s : State) : State :=
  { s with pcm := pcm, aIndex := a, aPred := p }

theorem eq_withAudio_iff {pcm : Memory 16} {a : BitVec 7} {p : BitVec 16} :
    s = s.withAudio pcm a p ↔ s.aIndex = a ∧ s.aPred = p ∧ s.pcm = pcm := by
  cases s
  simp [State.withAudio]

/-- An instruction of the video: `CB_UPDATE`, `VPTR_EXPAND` or `READ_RASTER` (R344). -/
def IsVideo (i : Instr) : Prop :=
  (∃ d o u, i = .cbUpdate d o u) ∨ (∃ u, i = .vptrExpand u) ∨ ∃ x y, i = .readRaster x y

section
variable {pcm : Memory 16} {a : BitVec 7} {p : BitVec 16}

/-! The block writes read the codebook and the configuration registers only. -/

theorem putPixels_withAudio (keyed : Bool) (b d n : Nat) (m : Memory 16) :
    putPixels (s.withAudio pcm a p) keyed b d n m = putPixels s keyed b d n m := by
  induction n with
  | zero => rfl
  | succ n ih => rw [putPixels, putPixels, ih]; rfl

theorem put_withAudio (keyed : Bool) (b : Nat) (e : BlockEngine) :
    put (s.withAudio pcm a p) keyed b e = put s keyed b e := by
  unfold put
  rw [putPixels_withAudio]
  rfl

theorem putAll_withAudio (keyed : Bool) (bs : List Nat) (e : BlockEngine) :
    putAll (s.withAudio pcm a p) keyed bs e = putAll s keyed bs e := by
  induction bs generalizing e with
  | nil => rfl
  | cons b bs ih => simp only [putAll, put_withAudio, ih]

theorem putListed_withAudio (n : Nat) (idx : List Byte) (e : BlockEngine) :
    putListed (s.withAudio pcm a p) n idx e = putListed s n idx e := by
  induction n generalizing idx e with
  | zero => rfl
  | succ n ih =>
    cases idx with
    | nil => rfl
    | cons b bs => simp only [putListed, put_withAudio, ih]

/-- No audio unit is being decoded in `t`, and `t'` is `t` with the given PCM buffer and ADPCM pair. -/
inductive AudioReplaced (pcm : Memory 16) (a : BitVec 7) (p : BitVec 16) (t : State) : State → Prop
  | intro (video : ∀ e, t.engine ≠ .adpcm e) : AudioReplaced pcm a p t (t.withAudio pcm a p)

/-- The two results have the same outcome but for the audio state. -/
abbrev SameVideo (pcm : Memory 16) (a : BitVec 7) (p : BitVec 16) : Result → Result → Prop :=
  SameOutcome (AudioReplaced pcm a p)

theorem sameVideo_error (c : Cause) (n : Nat) :
    SameVideo pcm a p (.next (raiseError c n s)) (.next (raiseError c n (s.withAudio pcm a p))) :=
  .next ⟨nofun⟩

theorem sameVideo_lcwAdvance (len count : Nat) (work : Memory 8) (e : LcwEngine) :
    SameVideo pcm a p (lcwAdvance len count work e s) (lcwAdvance len count work e (s.withAudio pcm a p)) :=
  .ite (.fault _) (.next ⟨nofun⟩)

theorem sameVideo_lcwProduce (len count : Nat) (work : Memory 8) (e : LcwEngine) :
    SameVideo pcm a p (lcwProduce len count work e s) (lcwProduce len count work e (s.withAudio pcm a p)) :=
  .ite (sameVideo_error _ _) (.ite (sameVideo_error _ _) (sameVideo_lcwAdvance _ _ _ e))

theorem sameVideo_lcwCopy (len count : Nat) (source : Option Nat) (e : LcwEngine) :
    SameVideo pcm a p (lcwCopy len count source e s) (lcwCopy len count source e (s.withAudio pcm a p)) := by
  refine .ite (sameVideo_error _ _) ?_
  cases source with
  | none => exact sameVideo_error _ _
  | some src => exact .ite (sameVideo_error _ _) (sameVideo_lcwAdvance _ _ _ e)

theorem sameVideo_blockResult (len : Nat) (e : BlockEngine) (r : Except PutStop BlockEngine) :
    SameVideo pcm a p (blockResult len e s r) (blockResult len e (s.withAudio pcm a p) r) := by
  rcases r with (c | _) | e'
  · exact sameVideo_error _ _
  · exact .fault _
  · exact .next ⟨nofun⟩

theorem sameVideo_puts (len : Nat) (keyed : Bool) (bs : List Nat) (e : BlockEngine) :
    SameVideo pcm a p (blockResult len e s (putAll s keyed bs e))
      (blockResult len e (s.withAudio pcm a p) (putAll (s.withAudio pcm a p) keyed bs e)) := by
  rw [putAll_withAudio]
  exact sameVideo_blockResult _ _ _

theorem sameVideo_vpListOp (k : BitVec 5) (b : BitVec 8) (idx : List Byte) (e : BlockEngine) :
    SameVideo pcm a p (vpListOp k b idx e s) (vpListOp k b idx e (s.withAudio pcm a p)) := by
  simp only [vpListOp, put_withAudio, putListed_withAudio]
  exact sameVideo_blockResult _ _ _

/-- A code of an audio unit has no operation to act on. -/
theorem withAdpcm_refused (video : ∀ e, s.engine ≠ .adpcm e) (f : AdpcmEngine → Result) :
    withAdpcm s f = .refused .noOperation := by
  unfold withAdpcm
  split
  next e he => exact absurd he (video e)
  all_goals rfl

section
variable (video : ∀ e, s.engine ≠ .adpcm e)
include video

theorem runCommand_sameVideo (i : Instr) :
    SameVideo pcm a p (runCommand i s) (runCommand i (s.withAudio pcm a p)) := by
  cases i with
  | lcwMode => exact .withLcw rfl fun e => .next ⟨nofun⟩
  | lcwScopy | lcwRcopy => exact .withLcw rfl fun e => sameVideo_lcwCopy _ _ _ e
  | lcwEnd => exact .withLcw rfl fun e => .ite (sameVideo_error _ _) (.next ⟨nofun⟩)
  | lcwLit => exact .withLcw rfl fun e => sameVideo_lcwProduce _ _ _ e
  | lcwFill => exact .withLcw rfl fun e => .ite (sameVideo_error _ _) (sameVideo_lcwProduce _ _ _ e)
  | lcwLcopy =>
    exact .withLcw rfl fun e => .ite (sameVideo_error _ _)
      (.ite (.ite (sameVideo_error _ _) (sameVideo_lcwAdvance _ _ _ e)) (sameVideo_lcwCopy _ _ _ e))
  | vpSkip => exact .withBlock rfl fun e => .ite (sameVideo_error _ _) (.next ⟨nofun⟩)
  | vpRepeat | vpPut | vpPutk => exact .withBlock rfl fun e => sameVideo_puts _ _ _ e
  | vpList => exact .withBlock rfl fun e => sameVideo_vpListOp _ _ _ e
  | vpRun | vpRunk => exact .withBlock rfl fun e => .ite (sameVideo_error _ _) (sameVideo_puts _ _ _ e)
  | vpIllegal => exact .withBlock rfl fun e => sameVideo_error _ _
  | adCode =>
    simp only [runCommand, execAdCode]
    rw [withAdpcm_refused video, withAdpcm_refused (s := s.withAudio pcm a p) video]
    exact .refused _
  | reset | config | cbUpdate | vptrExpand | adpcmSetparam | adpcmDecode | readRaster | readPcm | readReg =>
    exact .refused _

omit video in
theorem takeReject_sameVideo (r : Reject) :
    SameVideo pcm a p (takeReject r s) (takeReject r (s.withAudio pcm a p)) := by
  cases r with
  | lcwUnderrun | lcwReserved => exact .withLcw rfl fun e => sameVideo_error _ _
  | vpUnderrun => exact .withBlock rfl fun e => sameVideo_error _ _
  | vpListCut => exact .withBlock rfl fun e => sameVideo_vpListOp _ _ _ e
  | badHostOp => exact sameVideo_error _ _

theorem closeStream_audioReplaced :
    AudioReplaced pcm a p (closeStream s) (closeStream (s.withAudio pcm a p)) := by
  have hengine : (s.withAudio pcm a p).engine = s.engine := rfl
  unfold closeStream
  rw [hengine]
  split
  · exact ⟨nofun⟩
  next e he => exact absurd he (video e)
  all_goals exact ⟨video⟩

theorem engineStep_sameVideo :
    SameVideo pcm a p (engineStep s) (engineStep (s.withAudio pcm a p)) := by
  have hfetch : fetch (s.withAudio pcm a p) = fetch s := rfl
  unfold engineStep
  rw [hfetch]
  cases fetch s with
  | idle => exact .next ⟨video⟩
  | command i => exact runCommand_sameVideo video i
  | finished => exact .next (closeStream_audioReplaced video)
  | rejected r => exact takeReject_sameVideo r
  | hole => exact .fault _

/-- Each round has the same outcome, and so has the loop. -/
theorem runEngine_sameVideo (fuel : Nat) :
    SameVideo pcm a p (runEngine fuel s) (runEngine fuel (s.withAudio pcm a p)) := by
  induction fuel generalizing s with
  | zero => exact .next ⟨video⟩
  | succ fuel ih =>
    have hengine : (s.withAudio pcm a p).engine = s.engine := rfl
    have hround := engineStep_sameVideo (pcm := pcm) (a := a) (p := p) video
    unfold runEngine
    rw [hengine]
    split
    · exact .next ⟨video⟩
    all_goals
      generalize engineStep s = r, engineStep (s.withAudio pcm a p) = r' at hround ⊢
      cases hround with
      | next h =>
        obtain ⟨hnext⟩ := h
        exact ih hnext
      | fault f => exact .fault f
      | refused f => exact .refused f

end

variable (pcm a p) in
/-- A video operation does the same whatever the audio state holds: its checks do not read it, and neither does a round
of its stream. -/
theorem exec_video_withAudio (idle : s.engine = .idle) {i : Instr} (video : IsVideo i) :
    SameVideo pcm a p (exec i s) (exec i (s.withAudio pcm a p)) := by
  have hvideo : ∀ e, s.engine ≠ .adpcm e := by
    rw [idle]
    nofun
  rcases video with ⟨d, o, payload, rfl⟩ | ⟨payload, rfl⟩ | ⟨x, y, rfl⟩
  · refine .whenConfigured rfl rfl ⟨nofun⟩ (.ite (sameVideo_error _ _) (.ite (sameVideo_error _ _) ?_))
    exact runEngine_sameVideo (s := beginLcw d o payload s) nofun _
  · refine .whenConfigured rfl rfl ⟨nofun⟩ (.ite (sameVideo_error _ _) ?_)
    exact runEngine_sameVideo (s := beginBlock payload s) nofun _
  · exact .readWhenConfigured rfl rfl ⟨hvideo⟩ (.ite (.next ⟨hvideo⟩) (.next ⟨hvideo⟩))

end

end Sys2Proof.Machine
end

section
/-!
CERTIFICATES. The obligations of reset and of the independence of audio and video (70_reset_and_hazards.md): R314, R340,
R344.
-/

namespace Sys2Proof.Proofs

open Sys2Proof.Machine

/-- Settles O56: each half by two runs. Run beside a state whose hidden part is replaced, an operation has the same
outcome with the same part replaced; run beside the state itself, that says the hidden part is left as it was. -/
theorem audioVideoIndependent : Obligations.AudioVideoIndependent := by
  refine ⟨fun s t i cb ras _ audio h => ?audio, fun s t i pcm a p idle video h => ?video⟩
  case audio =>
    obtain ⟨_, hother, hcfg, rfl⟩ := (exec_audio_withVideo cb ras audio).exists_next h
    obtain ⟨_, hself, -, rfl⟩ := (exec_audio_withVideo s.cb s.ras audio).exists_next h
    obtain ⟨hcb, hras⟩ := eq_withVideo_iff.1 (Host.Outcome.next.inj (h.symm.trans hself))
    exact ⟨hcb, hras, hcfg, hother⟩
  case video =>
    obtain ⟨_, hother, ⟨-⟩⟩ := (exec_video_withAudio pcm a p idle video).exists_next h
    obtain ⟨_, hself, ⟨-⟩⟩ := (exec_video_withAudio s.pcm s.aIndex s.aPred idle video).exists_next h
    obtain ⟨hindex, hpred, hpcm⟩ := eq_withAudio_iff.1 (Host.Outcome.next.inj (h.symm.trans hself))
    exact ⟨hpcm, hindex, hpred, hother⟩

/-- Settles O10: nothing is fetched and no request is waiting. -/
theorem idleCoreWaits : Obligations.IdleCoreWaits :=
  fun _ => step_of_idle_no_request

end Sys2Proof.Proofs
end
